-- ==== Sys2Proof/Word.lean ====
section
/-! DEFINITION. The bit-vector types of the engine and the register selectors. -/

namespace Sys2Proof

/-- A 32-bit word: a command word, a window word, `ARG`, `RES` (00_scope.md R5 WORD_BITS, CMD_BITS). -/
abbrev Word := BitVec 32

/-- The 128-bit contents of a decimal register, well-formed or not (10_state.md R21, R22). -/
abbrev Dec := BitVec 128

/-- The 256-bit unsigned magnitude of a wide register (10_state.md R27). -/
abbrev Mag := BitVec 256

/-- A decimal register number, `D0` to `D7` (10_state.md R22; NDREG = 8, log 12). -/
abbrev DSel := Fin 8

/-- A wide register number, `B0` to `B3` (10_state.md R27; NBREG = 4, log 12). -/
abbrev BSel := Fin 4

end Sys2Proof
end

