-- ==== Sys2Proof/Config.lean ====
section
/-! DEFINITION. The parameters of the engine (00_scope.md R5) and the two the spec leaves open. -/

namespace Sys2Proof.Config

/-- MANT_BITS, the width of a mantissa (00_scope.md R5). -/
abbrev mantBits : Nat := 96

/-- MAX_MANT = 2^96 - 1, the largest mantissa (00_scope.md R5). -/
abbrev maxMant : Nat := 79228162514264337593543950335

/-- MAX_SCALE, the largest legal scale of a decimal (00_scope.md R5). -/
abbrev maxScale : Nat := 28

/-- WINDOW_WORDS, the size of the host window in words (00_scope.md R5, 20_memory.md R50). -/
abbrev windowWords : Nat := 256

/-- The window word CMD, whose writes execute commands (20_memory.md R51). -/
abbrev cmdAddr : BitVec 8 := 0x80#8

/-- DESIGN CHOICE (log 9): the values that HOST_BYTE_ORDER may take in the model. The spec leaves the order of the four bytes
of a word wholly open and lists no values (00_scope.md R5, 20_memory.md R54); the model admits these two and no other of the
24 orders. -/
inductive ByteOrder where
  | littleEndian
  | bigEndian
deriving DecidableEq, Repr, Inhabited

/-- HOST_BYTE_ORDER, an open parameter: "the engine never sees it" (00_scope.md R5, 20_memory.md R54; log 9). -/
opaque hostByteOrder : ByteOrder

/-- WINDOW_BASE, an open parameter "which no rule reads" (20_memory.md R57; log 9). -/
opaque windowBase : Nat

end Sys2Proof.Config
end

