-- ==== Sys2Proof/Syntax.lean ====
section
/-! DEFINITION. The 43 commands, one constructor per row of the opcode table (30_encoding.md R76).
Operands stand in the order of the assembler syntax (R80): destinations, sources, immediates. -/

namespace Sys2Proof

/-- A command of DEC-CMD version 1 with its operands. A D selector is 0 to 7 and a B selector 0 to 3
(30_encoding.md R73, R75); an immediate ranges over its whole field (R74), so that the mantissa bit index and
the place count can be out of range: `Instr.wellFormed` says when they are not. -/
inductive Instr where
  -- constants and no-operation (47_constants.md)
  | nop
  -- bit-field unit (40_bitfield.md)
  | wgetb (ra : DSel) (w : Fin 4) (i : Fin 32)
  | wsetb (rd ra : DSel) (w : Fin 4) (i : Fin 32)
  | wclrb (rd ra : DSel) (w : Fin 4) (i : Fin 32)
  | winvb (rd ra : DSel) (w : Fin 4) (i : Fin 32)
  | mgetb (ra : DSel) (i : Fin 128)
  | msetb (rd ra : DSel) (i : Fin 128)
  | mclrb (rd ra : DSel) (i : Fin 128)
  | minvb (rd ra : DSel) (i : Fin 128)
  | getscale (ra : DSel)
  | setscale (rd ra : DSel) (imm8 : BitVec 8)
  | getsign (ra : DSel)
  | setsign (rd ra : DSel) (imm1 : BitVec 1)
  -- wide-integer unit (41_wide.md)
  | bshl (bd ba : BSel) (n : Fin 4096)
  | bshr (bd ba : BSel) (n : Fin 4096)
  | biszero (ba : BSel)
  | bcmp (ba bb : BSel)
  | badd (bd ba bb : BSel)
  | bsub (bd ba bb : BSel)
  | bmul (bd : BSel) (ra rb : DSel)
  | narrow (rd : DSel) (ba : BSel)
  -- scale-alignment unit (42_align.md)
  | align (bd bc : BSel) (ra rb : DSel)
  -- arithmetic unit (43_arith.md)
  | add (rd ra rb : DSel)
  | sub (rd ra rb : DSel)
  | mul (rd ra rb : DSel)
  | div (rd rc ra rb : DSel)
  | neg (rd ra : DSel)
  -- comparison unit (44_compare.md)
  | iseq (ra rb : DSel)
  | isne (ra rb : DSel)
  | islt (ra rb : DSel)
  | isle (ra rb : DSel)
  | isgt (ra rb : DSel)
  | isge (ra rb : DSel)
  -- conversion unit (45_convert.md)
  | itod (rd : DSel)
  | dtoi (ra : DSel)
  | ftod (rd : DSel)
  | dtof (ra : DSel)
  -- rounding unit (46_round.md)
  | trunc (rd ra : DSel)
  | floor (rd ra : DSel)
  | round (rd ra : DSel)
  | roundp (rd ra : DSel) (p : Fin 32)
  -- constants (47_constants.md)
  | ldzero (rd : DSel)
  | ldmax (rd : DSel)
deriving DecidableEq, Repr

end Sys2Proof
end

