-- ==== Sys2Proof/WellFormed.lean ====
section
/-! DEFINITION. When a command's immediates are in range (30_encoding.md R74). Selectors are in range by their
types (R75). -/

namespace Sys2Proof

/-- A mantissa bit index is legal from 0 to 95 (30_encoding.md R74, 40_bitfield.md R103). -/
def mantissaIndexOk (i : Fin 128) : Bool := decide (i.val ≤ 95)

/-- A place count is legal from 0 to 28 (30_encoding.md R74). -/
def placesOk (p : Fin 32) : Bool := decide (p.val ≤ 28)

/-- Every immediate of the command is in its legal range (30_encoding.md R74). A command that is not well-formed
is encodable, and ends with status 5 when executed (R72 step 2, R78). -/
def Instr.wellFormed : Instr → Bool
  | .mgetb _ i => mantissaIndexOk i
  | .msetb _ _ i => mantissaIndexOk i
  | .mclrb _ _ i => mantissaIndexOk i
  | .minvb _ _ i => mantissaIndexOk i
  | .roundp _ _ p => placesOk p
  | .nop | .wgetb .. | .wsetb .. | .wclrb .. | .winvb .. | .getscale .. | .setscale .. | .getsign ..
  | .setsign .. | .bshl .. | .bshr .. | .biszero .. | .bcmp .. | .badd .. | .bsub .. | .bmul .. | .narrow ..
  | .align .. | .add .. | .sub .. | .mul .. | .div .. | .neg .. | .iseq .. | .isne .. | .islt .. | .isle ..
  | .isgt .. | .isge .. | .itod .. | .dtoi .. | .ftod .. | .dtof .. | .trunc .. | .floor .. | .round ..
  | .ldzero .. | .ldmax .. => true

end Sys2Proof
end

