-- ==== Sys2Proof/Decode.lean ====
section
/-! DEFINITION. Decoding a command word (30_encoding.md R71 to R78), and after it the encoder, both written from the
opcode map of R76. The decoder is total on all 2^32 words. -/

namespace Sys2Proof

/-! ## The fields of a command word (30_encoding.md R71) -/

/-- `OP = c[31:24]` (30_encoding.md R71). -/
def fieldOP (c : Word) : BitVec 8 := c.extractLsb' 24 8
/-- `RD = c[23:20]` (30_encoding.md R71). -/
def fieldRD (c : Word) : BitVec 4 := c.extractLsb' 20 4
/-- `RA = c[19:16]` (30_encoding.md R71). -/
def fieldRA (c : Word) : BitVec 4 := c.extractLsb' 16 4
/-- `RB = c[15:12]` (30_encoding.md R71). -/
def fieldRB (c : Word) : BitVec 4 := c.extractLsb' 12 4
/-- `IMM = c[11:0]` (30_encoding.md R71). -/
def fieldIMM (c : Word) : BitVec 12 := c.extractLsb' 0 12
/-- `RC = c[3:0]` (30_encoding.md R71). -/
def fieldRC (c : Word) : BitVec 4 := c.extractLsb' 0 4

/-- The D register a selector field names; its bit 3 is zero by the row's mask (30_encoding.md R73, R75). -/
def selD (f : BitVec 4) : DSel := Fin.ofNat 8 f.toNat
/-- The B register a selector field names; its bits 3 and 2 are zero by the row's mask (30_encoding.md R73, R75). -/
def selB (f : BitVec 4) : BSel := Fin.ofNat 4 f.toNat
/-- The word index `w = IMM[6:5]` (30_encoding.md R73, R74). -/
def immW (c : Word) : Fin 4 := ((fieldIMM c).extractLsb' 5 2).toFin
/-- The word bit index `i = IMM[4:0]` (30_encoding.md R73, R74). -/
def immI (c : Word) : Fin 32 := ((fieldIMM c).extractLsb' 0 5).toFin
/-- The mantissa bit index `i = IMM[6:0]`, 0 to 127 as encoded (30_encoding.md R73, R74). -/
def immM (c : Word) : Fin 128 := ((fieldIMM c).extractLsb' 0 7).toFin
/-- `imm8 = IMM[7:0]` of SETSCALE (30_encoding.md R73). -/
def imm8 (c : Word) : BitVec 8 := (fieldIMM c).extractLsb' 0 8
/-- `imm1 = IMM[0]` of SETSIGN (30_encoding.md R73). -/
def imm1 (c : Word) : BitVec 1 := (fieldIMM c).extractLsb' 0 1
/-- The shift count `n = IMM[11:0]` (30_encoding.md R73). -/
def immN (c : Word) : Fin 4096 := (fieldIMM c).toFin
/-- The place count `p = IMM[4:0]`, 0 to 31 as encoded (30_encoding.md R73, R74). -/
def immP (c : Word) : Fin 32 := ((fieldIMM c).extractLsb' 0 5).toFin

/-! ## The opcode map (30_encoding.md R76) -/

/-- One row of the opcode map: a command word `c` selects it when `(c AND mask) = value` (30_encoding.md R72, R76);
`build` reads the operands where the row's format puts them (R73). -/
structure Row where
  mnemonic : String
  mask : Word
  value : Word
  build : Word → Instr

/-- `(c AND mask) = match` (30_encoding.md R72 step 1). -/
def Row.selects (r : Row) (c : Word) : Bool := decide (c &&& r.mask = r.value)

/-- The complete opcode map, in opcode order (30_encoding.md R76). -/
def opcodeTable : List Row := [
  ⟨"NOP", 0xFFFFFFFF#32, 0x00000000#32, fun _ => .nop⟩,
  ⟨"WGETB", 0xFFF8FF80#32, 0x01000000#32, fun c => .wgetb (selD (fieldRA c)) (immW c) (immI c)⟩,
  ⟨"WSETB", 0xFF88FF80#32, 0x02000000#32, fun c => .wsetb (selD (fieldRD c)) (selD (fieldRA c)) (immW c) (immI c)⟩,
  ⟨"WCLRB", 0xFF88FF80#32, 0x03000000#32, fun c => .wclrb (selD (fieldRD c)) (selD (fieldRA c)) (immW c) (immI c)⟩,
  ⟨"WINVB", 0xFF88FF80#32, 0x04000000#32, fun c => .winvb (selD (fieldRD c)) (selD (fieldRA c)) (immW c) (immI c)⟩,
  ⟨"MGETB", 0xFFF8FF80#32, 0x05000000#32, fun c => .mgetb (selD (fieldRA c)) (immM c)⟩,
  ⟨"MSETB", 0xFF88FF80#32, 0x06000000#32, fun c => .msetb (selD (fieldRD c)) (selD (fieldRA c)) (immM c)⟩,
  ⟨"MCLRB", 0xFF88FF80#32, 0x07000000#32, fun c => .mclrb (selD (fieldRD c)) (selD (fieldRA c)) (immM c)⟩,
  ⟨"MINVB", 0xFF88FF80#32, 0x08000000#32, fun c => .minvb (selD (fieldRD c)) (selD (fieldRA c)) (immM c)⟩,
  ⟨"GETSCALE", 0xFFF8FFFF#32, 0x09000000#32, fun c => .getscale (selD (fieldRA c))⟩,
  ⟨"SETSCALE", 0xFF88FF00#32, 0x0A000000#32, fun c => .setscale (selD (fieldRD c)) (selD (fieldRA c)) (imm8 c)⟩,
  ⟨"GETSIGN", 0xFFF8FFFF#32, 0x0B000000#32, fun c => .getsign (selD (fieldRA c))⟩,
  ⟨"SETSIGN", 0xFF88FFFE#32, 0x0C000000#32, fun c => .setsign (selD (fieldRD c)) (selD (fieldRA c)) (imm1 c)⟩,
  ⟨"BSHL", 0xFFCCF000#32, 0x10000000#32, fun c => .bshl (selB (fieldRD c)) (selB (fieldRA c)) (immN c)⟩,
  ⟨"BSHR", 0xFFCCF000#32, 0x11000000#32, fun c => .bshr (selB (fieldRD c)) (selB (fieldRA c)) (immN c)⟩,
  ⟨"BISZERO", 0xFFFCFFFF#32, 0x12000000#32, fun c => .biszero (selB (fieldRA c))⟩,
  ⟨"BCMP", 0xFFFCCFFF#32, 0x13000000#32, fun c => .bcmp (selB (fieldRA c)) (selB (fieldRB c))⟩,
  ⟨"BADD", 0xFFCCCFFF#32, 0x14000000#32, fun c => .badd (selB (fieldRD c)) (selB (fieldRA c)) (selB (fieldRB c))⟩,
  ⟨"BSUB", 0xFFCCCFFF#32, 0x15000000#32, fun c => .bsub (selB (fieldRD c)) (selB (fieldRA c)) (selB (fieldRB c))⟩,
  ⟨"BMUL", 0xFFC88FFF#32, 0x16000000#32, fun c => .bmul (selB (fieldRD c)) (selD (fieldRA c)) (selD (fieldRB c))⟩,
  ⟨"NARROW", 0xFF8CFFFF#32, 0x17000000#32, fun c => .narrow (selD (fieldRD c)) (selB (fieldRA c))⟩,
  ⟨"ALIGN", 0xFFC88FFC#32, 0x18000000#32, fun c => .align (selB (fieldRD c)) (selB (fieldRC c)) (selD (fieldRA c)) (selD (fieldRB c))⟩,
  ⟨"ADD", 0xFF888FFF#32, 0x20000000#32, fun c => .add (selD (fieldRD c)) (selD (fieldRA c)) (selD (fieldRB c))⟩,
  ⟨"SUB", 0xFF888FFF#32, 0x21000000#32, fun c => .sub (selD (fieldRD c)) (selD (fieldRA c)) (selD (fieldRB c))⟩,
  ⟨"MUL", 0xFF888FFF#32, 0x22000000#32, fun c => .mul (selD (fieldRD c)) (selD (fieldRA c)) (selD (fieldRB c))⟩,
  ⟨"DIV", 0xFF888FF8#32, 0x23000000#32, fun c => .div (selD (fieldRD c)) (selD (fieldRC c)) (selD (fieldRA c)) (selD (fieldRB c))⟩,
  ⟨"NEG", 0xFF88FFFF#32, 0x24000000#32, fun c => .neg (selD (fieldRD c)) (selD (fieldRA c))⟩,
  ⟨"ISEQ", 0xFFF88FFF#32, 0x28000000#32, fun c => .iseq (selD (fieldRA c)) (selD (fieldRB c))⟩,
  ⟨"ISNE", 0xFFF88FFF#32, 0x29000000#32, fun c => .isne (selD (fieldRA c)) (selD (fieldRB c))⟩,
  ⟨"ISLT", 0xFFF88FFF#32, 0x2A000000#32, fun c => .islt (selD (fieldRA c)) (selD (fieldRB c))⟩,
  ⟨"ISLE", 0xFFF88FFF#32, 0x2B000000#32, fun c => .isle (selD (fieldRA c)) (selD (fieldRB c))⟩,
  ⟨"ISGT", 0xFFF88FFF#32, 0x2C000000#32, fun c => .isgt (selD (fieldRA c)) (selD (fieldRB c))⟩,
  ⟨"ISGE", 0xFFF88FFF#32, 0x2D000000#32, fun c => .isge (selD (fieldRA c)) (selD (fieldRB c))⟩,
  ⟨"ITOD", 0xFF8FFFFF#32, 0x30000000#32, fun c => .itod (selD (fieldRD c))⟩,
  ⟨"DTOI", 0xFFF8FFFF#32, 0x31000000#32, fun c => .dtoi (selD (fieldRA c))⟩,
  ⟨"FTOD", 0xFF8FFFFF#32, 0x32000000#32, fun c => .ftod (selD (fieldRD c))⟩,
  ⟨"DTOF", 0xFFF8FFFF#32, 0x33000000#32, fun c => .dtof (selD (fieldRA c))⟩,
  ⟨"TRUNC", 0xFF88FFFF#32, 0x38000000#32, fun c => .trunc (selD (fieldRD c)) (selD (fieldRA c))⟩,
  ⟨"FLOOR", 0xFF88FFFF#32, 0x39000000#32, fun c => .floor (selD (fieldRD c)) (selD (fieldRA c))⟩,
  ⟨"ROUND", 0xFF88FFFF#32, 0x3A000000#32, fun c => .round (selD (fieldRD c)) (selD (fieldRA c))⟩,
  ⟨"ROUNDP", 0xFF88FFE0#32, 0x3B000000#32, fun c => .roundp (selD (fieldRD c)) (selD (fieldRA c)) (immP c)⟩,
  ⟨"LDZERO", 0xFF8FFFFF#32, 0x3C000000#32, fun c => .ldzero (selD (fieldRD c))⟩,
  ⟨"LDMAX", 0xFF8FFFFF#32, 0x3D000000#32, fun c => .ldmax (selD (fieldRD c))⟩]

/-- Why a command word is illegal (30_encoding.md R78); all illegal words behave alike. -/
inductive Illegal where
  /-- `OP` is none of the 43 opcodes of the table (30_encoding.md R78). -/
  | unlistedOpcode
  /-- `OP` is listed and a bit that must be zero is not: an unused bit, or a high bit of a selector (R75, R78). -/
  | mustBeZero
deriving DecidableEq, Repr

/-- Some row of the table has this opcode. -/
def opcodeListed (op : BitVec 8) : Bool := opcodeTable.any fun r => decide (fieldOP r.value = op)

/-- Step (1) of decoding: the row that the command word selects, or the reason there is none
(30_encoding.md R72, R78). The range of an immediate is step (2) and stands in the command's meaning (log 7). -/
def decode (c : Word) : Except Illegal Instr :=
  match opcodeTable.find? fun r => r.selects c with
  | some r => .ok (r.build c)
  | none => .error (if opcodeListed (fieldOP c) then .mustBeZero else .unlistedOpcode)

/-- The instruction the decoder reads from the low `nbits` bits of `w`, the bits above being zero; none where it
refuses. A command word is one 32-bit number and has no byte order in the engine (20_memory.md R54, 30_encoding.md R70). -/
def decodeTableWord (nbits w : Nat) : Option Instr :=
  match decode (BitVec.ofNat 32 (w % 2 ^ nbits)) with
  | .ok i => some i
  | .error _ => none

/-! ## The encoder -/

/-- A command word from its five fields (30_encoding.md R71). -/
def commandWord (op : BitVec 8) (rd ra rb : BitVec 4) (imm : BitVec 12) : Word := op ++ rd ++ ra ++ rb ++ imm

/-- A register number in a 4-bit selector field (30_encoding.md R73). -/
def sel {n : Nat} (r : Fin n) : BitVec 4 := BitVec.ofNat 4 r.val

/-- The command word of a command, by the format of its row (30_encoding.md R73, R76); every bit the format does not
use is zero (R71). -/
def encode : Instr → Word
  | .nop => commandWord 0x00 0 0 0 0
  | .wgetb ra w i => commandWord 0x01 0 (sel ra) 0 (BitVec.ofNat 12 (32 * w.val + i.val))
  | .wsetb rd ra w i => commandWord 0x02 (sel rd) (sel ra) 0 (BitVec.ofNat 12 (32 * w.val + i.val))
  | .wclrb rd ra w i => commandWord 0x03 (sel rd) (sel ra) 0 (BitVec.ofNat 12 (32 * w.val + i.val))
  | .winvb rd ra w i => commandWord 0x04 (sel rd) (sel ra) 0 (BitVec.ofNat 12 (32 * w.val + i.val))
  | .mgetb ra i => commandWord 0x05 0 (sel ra) 0 (BitVec.ofNat 12 i.val)
  | .msetb rd ra i => commandWord 0x06 (sel rd) (sel ra) 0 (BitVec.ofNat 12 i.val)
  | .mclrb rd ra i => commandWord 0x07 (sel rd) (sel ra) 0 (BitVec.ofNat 12 i.val)
  | .minvb rd ra i => commandWord 0x08 (sel rd) (sel ra) 0 (BitVec.ofNat 12 i.val)
  | .getscale ra => commandWord 0x09 0 (sel ra) 0 0
  | .setscale rd ra imm8 => commandWord 0x0A (sel rd) (sel ra) 0 (imm8.setWidth 12)
  | .getsign ra => commandWord 0x0B 0 (sel ra) 0 0
  | .setsign rd ra imm1 => commandWord 0x0C (sel rd) (sel ra) 0 (imm1.setWidth 12)
  | .bshl bd ba n => commandWord 0x10 (sel bd) (sel ba) 0 (BitVec.ofNat 12 n.val)
  | .bshr bd ba n => commandWord 0x11 (sel bd) (sel ba) 0 (BitVec.ofNat 12 n.val)
  | .biszero ba => commandWord 0x12 0 (sel ba) 0 0
  | .bcmp ba bb => commandWord 0x13 0 (sel ba) (sel bb) 0
  | .badd bd ba bb => commandWord 0x14 (sel bd) (sel ba) (sel bb) 0
  | .bsub bd ba bb => commandWord 0x15 (sel bd) (sel ba) (sel bb) 0
  | .bmul bd ra rb => commandWord 0x16 (sel bd) (sel ra) (sel rb) 0
  | .narrow rd ba => commandWord 0x17 (sel rd) (sel ba) 0 0
  | .align bd bc ra rb => commandWord 0x18 (sel bd) (sel ra) (sel rb) (BitVec.ofNat 12 bc.val)
  | .add rd ra rb => commandWord 0x20 (sel rd) (sel ra) (sel rb) 0
  | .sub rd ra rb => commandWord 0x21 (sel rd) (sel ra) (sel rb) 0
  | .mul rd ra rb => commandWord 0x22 (sel rd) (sel ra) (sel rb) 0
  | .div rd rc ra rb => commandWord 0x23 (sel rd) (sel ra) (sel rb) (BitVec.ofNat 12 rc.val)
  | .neg rd ra => commandWord 0x24 (sel rd) (sel ra) 0 0
  | .iseq ra rb => commandWord 0x28 0 (sel ra) (sel rb) 0
  | .isne ra rb => commandWord 0x29 0 (sel ra) (sel rb) 0
  | .islt ra rb => commandWord 0x2A 0 (sel ra) (sel rb) 0
  | .isle ra rb => commandWord 0x2B 0 (sel ra) (sel rb) 0
  | .isgt ra rb => commandWord 0x2C 0 (sel ra) (sel rb) 0
  | .isge ra rb => commandWord 0x2D 0 (sel ra) (sel rb) 0
  | .itod rd => commandWord 0x30 (sel rd) 0 0 0
  | .dtoi ra => commandWord 0x31 0 (sel ra) 0 0
  | .ftod rd => commandWord 0x32 (sel rd) 0 0 0
  | .dtof ra => commandWord 0x33 0 (sel ra) 0 0
  | .trunc rd ra => commandWord 0x38 (sel rd) (sel ra) 0 0
  | .floor rd ra => commandWord 0x39 (sel rd) (sel ra) 0 0
  | .round rd ra => commandWord 0x3A (sel rd) (sel ra) 0 0
  | .roundp rd ra p => commandWord 0x3B (sel rd) (sel ra) 0 (BitVec.ofNat 12 p.val)
  | .ldzero rd => commandWord 0x3C (sel rd) 0 0 0
  | .ldmax rd => commandWord 0x3D (sel rd) 0 0 0

end Sys2Proof
end

