-- ==== Sys2Proof/Machine/State.lean ====
section
/-! DEFINITION. The state of the engine (10_state.md R20), the host's side of it that the model adds (log 1, log 2), the
ways a step can stop, and reset (10_state.md R36). -/

namespace Sys2Proof.Machine

/-- A wide register (10_state.md R27): it stands for `(-1)^sign * mag / 10^scale`; there is no malformed one. -/
structure Wide where
  /-- `MAG`, a 256-bit unsigned magnitude. -/
  mag : Mag
  /-- `SCALE`, 0 to 255, not limited to 28. -/
  scale : BitVec 8
  /-- `SIGN`, true for 1 (negative). -/
  sign : Bool
deriving DecidableEq, Repr

/-- The outcomes of a command (60_exceptions.md R185); their numbers are `StatusCode.number`. -/
inductive StatusCode where
  | ok
  | tooBig
  | tooSmall
  | divisionByZero
  | invalidInput
  | illegalCommand
deriving DecidableEq, Repr

/-- What reaches the engine from outside, one at a time (20_memory.md R59): a host access to the window
(20_memory.md R50), the same access as a bus that numbers bytes expresses it (20_memory.md R55), or the platform's reset,
which is a step of its own between host accesses (70_reset_and_hazards.md R205). -/
inductive HostEvent where
  /-- `WinRead(a)`: the host reads window word `a` (20_memory.md R53). -/
  | winRead (a : BitVec 8)
  /-- `WinWrite(a, v)`: the host writes `v` to window word `a` (20_memory.md R52). -/
  | winWrite (a : BitVec 8) (v : Word)
  /-- A read of `size` bytes at byte `offset` from the window base (20_memory.md R55; log 6). -/
  | busRead (offset size : Nat)
  /-- A write of `size` bytes at byte `offset` from the window base, `v` on the data lanes (20_memory.md R55; log 6). -/
  | busWrite (offset size : Nat) (v : Word)
  /-- The platform applies reset (70_reset_and_hazards.md R205; log 4). -/
  | reset
deriving DecidableEq, Repr

/-- The whole state of one engine (10_state.md R20, 2151 bits), and the host's side of the window.
The fields `d` to `res` are the spec's; `pending` and `returned` are the model's own (log 1, log 2). -/
structure State where
  /-- `D[0]` to `D[7]` (10_state.md R22). -/
  d : Vector Dec 8
  /-- `B[0]` to `B[3]` (10_state.md R27). -/
  b : Vector Wide 4
  /-- `STATUS.CODE` (10_state.md R30). -/
  code : BitVec 3
  /-- `ARG` (10_state.md R31). -/
  arg : Word
  /-- `RES` (10_state.md R32). -/
  res : Word
  /-- MODEL'S OWN: what the engine has yet to serve, next first (DESIGN CHOICE, log 1). -/
  pending : List HostEvent
  /-- MODEL'S OWN: what the reads served so far returned, latest first (DESIGN CHOICE, log 2). -/
  returned : List Word
deriving DecidableEq, Repr

/-- Why the machine stops with a fault. No command raises one: the engine has no traps (60_exceptions.md R187). -/
inductive Fault where
  /-- Raised by a word access of a byte-numbered bus outside the 256 words of the window: no such word exists
  (20_memory.md R50; DESIGN CHOICE, log 6). Safe: the engine does not go on where nothing is said to answer. -/
  | outsideWindow
deriving DecidableEq, Repr

/-- Why the machine gives no step. No command raises one: every command is total (70_reset_and_hazards.md R207). -/
inductive Refusal where
  /-- Raised by exec for an instruction with no meaning yet, by its mnemonic; no instruction of this model is one. Safe. -/
  | notModelled (mnemonic : String)
  /-- Raised by a bus access that is not a naturally aligned 32-bit word: "it is refused, not split and not trapped"
  (20_memory.md R55; log 6). Safe: the spec gives such an access no step. -/
  | notAlignedWord
deriving DecidableEq, Repr

/-- One step's answer. -/
abbrev StepResult := Host.Outcome State Fault Refusal

/-- The machine right after reset: every bit of architectural state is zero (10_state.md R36, 70_reset_and_hazards.md R205),
and no host access has been made yet (log 1, log 2). -/
def State.reset : State where
  d := Vector.replicate 8 0
  b := Vector.replicate 4 ⟨0, 0, false⟩
  code := 0
  arg := 0
  res := 0
  pending := []
  returned := []

end Sys2Proof.Machine
end

