-- ==== Sys2Proof/Machine/Flags.lean ====
section
/-! DEFINITION. The engine has no flags, condition codes or predicates (10_state.md R34): the outcome of a command goes to
`STATUS.CODE` and a truth value to `RES`. Here are the numbers that stand for them. -/

namespace Sys2Proof.Machine

/-- The number of a status code in `STATUS.CODE`; 6 and 7 are never produced (60_exceptions.md R185). -/
def StatusCode.number : StatusCode → BitVec 3
  | .ok => 0
  | .tooBig => 1
  | .tooSmall => 2
  | .divisionByZero => 3
  | .invalidInput => 4
  | .illegalCommand => 5

/-- A truth value or a single bit as a word of `RES`: 1 or 0 (10_state.md R32, 44_compare.md R150). -/
def truthWord (t : Bool) : Word := if t then 1 else 0

/-- The three-way result of BCMP: 0 equal, 1 greater, 0xFFFFFFFF less (41_wide.md R114). -/
def orderWord : Ordering → Word
  | .eq => 0
  | .gt => 1
  | .lt => 0xFFFFFFFF

end Sys2Proof.Machine
end

