-- ==== Sys2Proof/Machine/Ops.lean ====
section
/-! DEFINITION. The named operations that the commands share: how a command ends (60_exceptions.md R186), the packed
layout of a decimal (10_state.md R21 to R26), bit edits, rounding (00_scope.md R7), `Align` (42_align.md R131) and
`Narrow` (41_wide.md R118). All arithmetic is on unbounded naturals (00_scope.md R7). -/

namespace Sys2Proof.Machine

/-! ## How a command ends -/

/-- `fail(code)`: `STATUS.CODE <- code` and nothing else. This is the engine's whole exception mechanism
(60_exceptions.md R186, R187, R192). -/
def State.fail (s : State) (c : StatusCode) : StepResult := .next { s with code := c.number }

/-- `ok`: what a successful command does last, `STATUS.CODE <- 0` (60_exceptions.md R186). -/
def State.ok (s : State) : StepResult := .next { s with code := StatusCode.ok.number }

/-! ## Registers -/

/-- The contents of `D[r]` (10_state.md R22). -/
def State.readD (s : State) (r : DSel) : Dec := s.d.get r

/-- `D[r] <- x`; no register is hardwired (10_state.md R22). -/
def State.writeD (s : State) (r : DSel) (x : Dec) : State := { s with d := s.d.set r x }

/-- The contents of `B[r]` (10_state.md R27). -/
def State.readB (s : State) (r : BSel) : Wide := s.b.get r

/-- `B[r] <- x`, all three fields (10_state.md R27). -/
def State.writeB (s : State) (r : BSel) (x : Wide) : State := { s with b := s.b.set r x }

/-- `RES <- v` (10_state.md R32). -/
def State.writeRes (s : State) (v : Word) : State := { s with res := v }

/-! ## Fields -/

/-- `x[lo+w-1 : lo] <- v`, all other bits kept (00_scope.md R6). -/
def writeField {n w : Nat} (x : BitVec n) (lo : Nat) (v : BitVec w) : BitVec n :=
  (x &&& ~~~((BitVec.allOnes w).setWidth n <<< lo)) ||| (v.setWidth n <<< lo)

/-- `d.W[w]`, word 0 in the least significant bits (00_scope.md R8, 10_state.md R21). -/
def wordOf (d : Dec) (w : Fin 4) : Word := d.extractLsb' (32 * w.val) 32

/-- `d.W[w] <- v` (00_scope.md R8). -/
def setWord (d : Dec) (w : Fin 4) (v : Word) : Dec := writeField d (32 * w.val) v

/-- Word `j` of a magnitude, least significant first (10_state.md R28). -/
def magWord (m : Mag) (j : Fin 8) : Word := m.extractLsb' (32 * j.val) 32

/-- Word `j` of a magnitude `<- v` (20_memory.md R52). -/
def setMagWord (m : Mag) (j : Fin 8) (v : Word) : Mag := writeField m (32 * j.val) v

/-! ## Decimals -/

/-- `mant(d) = W[2] ‖ W[1] ‖ W[0]`, a natural below 2^96 (10_state.md R23). -/
def mant (d : Dec) : Nat := (d.extractLsb' 0 96).toNat

/-- The scale field `W[3][23:16]` (10_state.md R21). -/
def scaleField (d : Dec) : BitVec 8 := (wordOf d 3).extractLsb' 16 8

/-- `scale(d) = W[3][23:16]`, 0 to 255 (10_state.md R23). -/
def scale (d : Dec) : Nat := (scaleField d).toNat

/-- `sign(d) = W[3][31]`, true for 1 (10_state.md R23). -/
def sign (d : Dec) : Bool := (wordOf d 3).getLsbD 31

/-- `Valid(d)`: the unused bits of word 3 are zero and the scale is at most 28 (10_state.md R24). -/
def valid (d : Dec) : Bool :=
  decide ((wordOf d 3).extractLsb' 0 16 = 0) && decide ((wordOf d 3).extractLsb' 24 7 = 0)
    && decide (scale d ≤ Config.maxScale)

/-- The 128-bit value with the four given words, word 3 first (10_state.md R21). -/
def packWords (w3 w2 w1 w0 : Word) : Dec := w3 ++ w2 ++ w1 ++ w0

/-- `mkdec(s, m, c)`, for `m <= 2^96 - 1` and `c <= 28` (10_state.md R26). -/
def mkdec (s : Bool) (m c : Nat) : Dec :=
  packWords (BitVec.ofNat 32 (s.toNat * 2 ^ 31 + c * 2 ^ 16)) (BitVec.ofNat 32 (m / 2 ^ 64))
    (BitVec.ofNat 32 (m / 2 ^ 32)) (BitVec.ofNat 32 m)

/-- `d` with its sign bit, bit 127, inverted (43_arith.md R137). -/
def flipSign (d : Dec) : Dec := d ^^^ (1#128 <<< 127)

/-! ## Searches -/

/-- The least `j` with `k <= j < k + fuel` and `p j`, or `k + fuel` when there is none. -/
def leastFrom (p : Nat → Bool) : (fuel k : Nat) → Nat
  | 0, k => k
  | n + 1, k => if p k then k else leastFrom p n (k + 1)

/-- The greatest `j <= k` with `p j`, or 0 when there is none. -/
def greatestUpTo (p : Nat → Bool) : (k : Nat) → Nat
  | 0 => 0
  | n + 1 => if p (n + 1) then n + 1 else greatestUpTo p n

/-! ## Rounding and narrowing -/

/-- `rne(n / d)` for `d > 0`: the integer nearest to the quotient, ties to the even one (00_scope.md R7). -/
def rneDiv (n d : Nat) : Nat :=
  if 2 * (n % d) < d then n / d
  else if d < 2 * (n % d) then n / d + 1
  else if n / d % 2 = 0 then n / d else n / d + 1

/-- `r(k) = rne(M / 10^k)`: the magnitude `M` with `k` digits dropped (41_wide.md R118). -/
def dropDigits (M k : Nat) : Nat := rneDiv M (10 ^ k)

/-- `r(k) <= 2^96 - 1` (41_wide.md R118). -/
def fitsDropping (M k : Nat) : Bool := decide (dropDigits M k ≤ Config.maxMant)

/-- The `k` of `Narrow`: the least with `max(0, c - 28) <= k <= c` and `r(k) <= 2^96 - 1`, when `r(c) <= 2^96 - 1`
(41_wide.md R118). -/
def digitsToDrop (M c : Nat) : Nat :=
  leastFrom (fitsDropping M) (c - (c - Config.maxScale)) (c - Config.maxScale)

/-- `Narrow(s, M, c)`: drop as few digits as bring the scale to 28 or below and the mantissa into 96 bits, rounded once,
half to even; status 1 when nothing fits, status 2 when a non-zero magnitude rounds to zero (41_wide.md R118). -/
def narrow (s : Bool) (M c : Nat) : Except StatusCode Dec :=
  if fitsDropping M c then
    if dropDigits M (digitsToDrop M c) = 0 ∧ 0 < M then .error .tooSmall
    else .ok (mkdec s (dropDigits M (digitsToDrop M c)) (c - digitsToDrop M c))
  else .error .tooBig

/-! ## Scale alignment -/

/-- `t = max(scale(a), scale(b))` of `Align(a, b)` (42_align.md R131). -/
def commonScale (a b : Dec) : Nat := max (scale a) (scale b)

/-- `mant(x) * 10^(t - scale(x))`: the mantissa that `Align` gives an operand at the shared scale `t`
(42_align.md R131). -/
def alignedMant (t : Nat) (x : Dec) : Nat := mant x * 10 ^ (t - scale x)

end Sys2Proof.Machine
end

