-- ==== Sys2Proof/Machine/Operands.lean ====
section
/-! DEFINITION. The operand forms of the commands (30_encoding.md R73): well-formed decimal sources, and the
destinations `D[RD]`, `B[RD]` and `RES`. Every form reads all its sources before it writes (00_scope.md R11). -/

namespace Sys2Proof.Machine

/-! ## Sources -/

/-- One decimal source that must be well-formed: a malformed one is `fail(4)` (43_arith.md R135, 60_exceptions.md R190). -/
def withDec (s : State) (ra : DSel) (k : Dec → StepResult) : StepResult :=
  if valid (s.readD ra) then k (s.readD ra) else s.fail .invalidInput

/-- Two decimal sources that must be well-formed: `fail(4)` when one or both are malformed (60_exceptions.md R189,
R190). -/
def withDecs (s : State) (ra rb : DSel) (k : Dec → Dec → StepResult) : StepResult :=
  if valid (s.readD ra) && valid (s.readD rb) then k (s.readD ra) (s.readD rb) else s.fail .invalidInput

/-! ## Destinations -/

/-- `D[RD] <- x; ok`. -/
def putD (s : State) (rd : DSel) (x : Dec) : StepResult := (s.writeD rd x).ok

/-- `B[RD] <- x; ok`. -/
def putB (s : State) (rd : BSel) (x : Wide) : StepResult := (s.writeB rd x).ok

/-- `RES <- v; ok`. -/
def putRes (s : State) (v : Word) : StepResult := (s.writeRes v).ok

/-- `if st = 0 then D[RD] <- d; ok else fail(st)` (41_wide.md R119, 43_arith.md R136). -/
def putResult (s : State) (rd : DSel) : Except StatusCode Dec → StepResult
  | .ok x => putD s rd x
  | .error c => s.fail c

end Sys2Proof.Machine
end

