-- ==== Sys2Proof/Machine/Align.lean ====
section
/-! DEFINITION. The scale-alignment unit (42_align.md R130 to R132): ALIGN. -/

namespace Sys2Proof.Machine

/-- One aligned operand as a wide register: its aligned mantissa, the shared scale, its own sign (42_align.md R130). -/
def alignedWide (t : Nat) (x : Dec) : Wide := ⟨BitVec.ofNat 256 (alignedMant t x), BitVec.ofNat 8 t, sign x⟩

/-- ALIGN Bd, Bc, Da, Db: `B[RD]` is written first and `B[RC]` second (42_align.md R130). -/
def execAlign (bd bc : BSel) (ra rb : DSel) (s : State) : StepResult :=
  withDecs s ra rb fun a b =>
    putB (s.writeB bd (alignedWide (commonScale a b) a)) bc (alignedWide (commonScale a b) b)

end Sys2Proof.Machine
end

