-- ==== Sys2Proof/Machine/Arith.lean ====
section
/-! DEFINITION. The arithmetic unit (43_arith.md R135 to R144): ADD SUB MUL DIV NEG. Sign and magnitude throughout
(R141); no B register changes (R135 (b)). -/

namespace Sys2Proof.Machine

/-! ## Addition and subtraction -/

/-- The sign of a sum of signed magnitudes: the common sign, else that of the larger magnitude, ties to positive
(43_arith.md R136). -/
def sumSign (sa : Bool) (A : Nat) (sb : Bool) (B : Nat) : Bool :=
  if sa = sb then sa else if B < A then sa else if A < B then sb else false

/-- The magnitude of a sum of signed magnitudes: the sum, or the smaller subtracted from the larger (43_arith.md R136). -/
def sumMag (sa : Bool) (A : Nat) (sb : Bool) (B : Nat) : Nat :=
  if sa = sb then A + B else if B < A then A - B else B - A

/-- The result of ADD for well-formed operands (43_arith.md R136). -/
def addDec (a b : Dec) : Except StatusCode Dec :=
  let t := commonScale a b
  narrow (sumSign (sign a) (alignedMant t a) (sign b) (alignedMant t b))
    (sumMag (sign a) (alignedMant t a) (sign b) (alignedMant t b)) t

/-- ADD Dd, Da, Db (43_arith.md R136). -/
def execAdd (rd ra rb : DSel) (s : State) : StepResult :=
  withDecs s ra rb fun a b => putResult s rd (addDec a b)

/-- SUB Dd, Da, Db: ADD with the sign of the second operand inverted; `D[RB]` itself is not changed (43_arith.md R137). -/
def execSub (rd ra rb : DSel) (s : State) : StepResult :=
  withDecs s ra rb fun a b => putResult s rd (addDec a (flipSign b))

/-! ## Multiplication -/

/-- The result of MUL for well-formed operands (43_arith.md R138). -/
def mulDec (a b : Dec) : Except StatusCode Dec :=
  narrow (sign a ^^ sign b) (mant a * mant b) (scale a + scale b)

/-- MUL Dd, Da, Db (43_arith.md R138). -/
def execMul (rd ra rb : DSel) (s : State) : StepResult :=
  withDecs s ra rb fun a b => putResult s rd (mulDec a b)

/-! ## Division -/

/-- `w0 = max(scale(a) - scale(b), 0)`, the working scale the long division starts at (43_arith.md R139). -/
def divStart (a b : Dec) : Nat := scale a - scale b

/-- `N(w) = mant(a) * 10^(e0 + w - w0)` with `e0 = max(scale(b) - scale(a), 0)` (43_arith.md R139). -/
def divNum (a b : Dec) (w : Nat) : Nat := mant a * 10 ^ ((scale b - scale a) + (w - divStart a b))

/-- The final working scale: the least `w` with `w0 <= w <= 28` and `R(w) = 0`, or 28 when there is none
(43_arith.md R139). -/
def divScale (a b : Dec) : Nat :=
  leastFrom (fun w => decide (divNum a b w % mant b = 0)) (Config.maxScale - divStart a b) (divStart a b)

/-- `Q(w)` at the final working scale (43_arith.md R139). -/
def divQuot (a b : Dec) : Nat := divNum a b (divScale a b) / mant b

/-- `R(w)` at the final working scale (43_arith.md R139). -/
def divRem (a b : Dec) : Nat := divNum a b (divScale a b) % mant b

/-- The remainder of DIV as a decimal, with the dividend's sign, rounded half to even beyond scale 28
(43_arith.md R143). -/
def divRemainder (a b : Dec) : Dec :=
  let c := divScale a b + scale b
  mkdec (sign a) (dropDigits (divRem a b) (c - Config.maxScale)) (c - (c - Config.maxScale))

/-- The quotient and the status of DIV for well-formed operands: a zero divisor is code 3; a non-zero dividend with a zero
quotient mantissa is code 2 (43_arith.md R139). -/
def divDec (a b : Dec) : Except StatusCode Dec :=
  if mant b = 0 then .error .divisionByZero
  else
    match narrow (sign a ^^ sign b) (divQuot a b) (divScale a b) with
    | .error c => .error c
    | .ok q => if mant q = 0 ∧ mant a ≠ 0 then .error .tooSmall else .ok q

/-- DIV Dd, Dc, Da, Db: the remainder is written to `D[RC]` first and the quotient to `D[RD]` second
(43_arith.md R139). -/
def execDiv (rd rc ra rb : DSel) (s : State) : StepResult :=
  withDecs s ra rb fun a b =>
    match divDec a b with
    | .ok q => putD (s.writeD rc (divRemainder a b)) rd q
    | .error c => s.fail c

/-! ## Negation -/

/-- NEG Dd, Da: the sign inverted, zero included (43_arith.md R140). -/
def execNeg (rd ra : DSel) (s : State) : StepResult :=
  withDec s ra fun a => putD s rd (mkdec (!sign a) (mant a) (scale a))

end Sys2Proof.Machine
end

