-- ==== Sys2Proof/Machine/BitField.lean ====
section
/-! DEFINITION. The bit-field unit (40_bitfield.md R90 to R103): WGETB WSETB WCLRB WINVB MGETB MSETB MCLRB MINVB GETSCALE
SETSCALE GETSIGN SETSIGN. None of them tests `Valid` (R90 (c)); with a decimal destination all 128 bits of the source are
copied and only the named bit or field changes (R90 (b)). -/

namespace Sys2Proof.Machine

/-! ## The three bit edits of a word -/

/-- `v OR 2^i` (40_bitfield.md R92). -/
def setBit (v : Word) (i : Fin 32) : Word := v ||| (1#32 <<< i.val)

/-- `v AND NOT 2^i` (40_bitfield.md R93). -/
def clearBit (v : Word) (i : Fin 32) : Word := v &&& ~~~(1#32 <<< i.val)

/-- `v XOR 2^i` (40_bitfield.md R94). -/
def invertBit (v : Word) (i : Fin 32) : Word := v ^^^ (1#32 <<< i.val)

/-- `t <- D[RA]; t.W[w] <- f(t.W[w], i); D[RD] <- t; ok` (40_bitfield.md R92 to R94). -/
def editWordBit (f : Word → Fin 32 → Word) (rd ra : DSel) (w : Fin 4) (i : Fin 32) (s : State) : StepResult :=
  putD s rd (setWord (s.readD ra) w (f (wordOf (s.readD ra) w) i))

/-! ## Mantissa bit indices -/

/-- The word that holds mantissa bit `i`: `i div 32`, never word 3 for a legal index (40_bitfield.md R103). -/
def mantissaWord (i : Fin 128) : Fin 4 := Fin.ofNat 4 (i.val / 32)

/-- The place of mantissa bit `i` in its word: `i mod 32` (40_bitfield.md R103). -/
def mantissaBit (i : Fin 128) : Fin 32 := Fin.ofNat 32 (i.val % 32)

/-- `if i > 95 then fail(5) else` edit mantissa bit `i` of `D[RA]` into `D[RD]` (40_bitfield.md R96 to R98). -/
def editMantissaBit (f : Word → Fin 32 → Word) (rd ra : DSel) (i : Fin 128) (s : State) : StepResult :=
  if mantissaIndexOk i then editWordBit f rd ra (mantissaWord i) (mantissaBit i) s else s.fail .illegalCommand

/-! ## Fields of word 3 -/

/-- `t.W[3][23:16] <- v` (40_bitfield.md R100). -/
def setScaleField (d : Dec) (v : BitVec 8) : Dec := setWord d 3 (writeField (wordOf d 3) 16 v)

/-- `t.W[3][31] <- v` (40_bitfield.md R102). -/
def setSignField (d : Dec) (v : BitVec 1) : Dec := setWord d 3 (writeField (wordOf d 3) 31 v)

/-! ## The commands -/

/-- WGETB Da, w, i: `RES <- zext_32(D[RA].W[w][i]); ok` (40_bitfield.md R91). -/
def execWgetb (ra : DSel) (w : Fin 4) (i : Fin 32) (s : State) : StepResult :=
  putRes s (truthWord ((wordOf (s.readD ra) w).getLsbD i.val))

/-- WSETB Dd, Da, w, i (40_bitfield.md R92). -/
def execWsetb (rd ra : DSel) (w : Fin 4) (i : Fin 32) (s : State) : StepResult := editWordBit setBit rd ra w i s

/-- WCLRB Dd, Da, w, i (40_bitfield.md R93). -/
def execWclrb (rd ra : DSel) (w : Fin 4) (i : Fin 32) (s : State) : StepResult := editWordBit clearBit rd ra w i s

/-- WINVB Dd, Da, w, i (40_bitfield.md R94). -/
def execWinvb (rd ra : DSel) (w : Fin 4) (i : Fin 32) (s : State) : StepResult := editWordBit invertBit rd ra w i s

/-- MGETB Da, i: `if i > 95 then fail(5) else RES <- zext_32(mant(D[RA])[i]); ok` (40_bitfield.md R95). -/
def execMgetb (ra : DSel) (i : Fin 128) (s : State) : StepResult :=
  if mantissaIndexOk i then putRes s (truthWord ((mant (s.readD ra)).testBit i.val)) else s.fail .illegalCommand

/-- MSETB Dd, Da, i (40_bitfield.md R96). -/
def execMsetb (rd ra : DSel) (i : Fin 128) (s : State) : StepResult := editMantissaBit setBit rd ra i s

/-- MCLRB Dd, Da, i (40_bitfield.md R97). -/
def execMclrb (rd ra : DSel) (i : Fin 128) (s : State) : StepResult := editMantissaBit clearBit rd ra i s

/-- MINVB Dd, Da, i (40_bitfield.md R98). -/
def execMinvb (rd ra : DSel) (i : Fin 128) (s : State) : StepResult := editMantissaBit invertBit rd ra i s

/-- GETSCALE Da: the raw 8-bit field, legal or not (40_bitfield.md R99). -/
def execGetscale (ra : DSel) (s : State) : StepResult := putRes s ((scaleField (s.readD ra)).setWidth 32)

/-- SETSCALE Dd, Da, imm8: the field is written as given, above 28 included (40_bitfield.md R100). -/
def execSetscale (rd ra : DSel) (imm8 : BitVec 8) (s : State) : StepResult :=
  putD s rd (setScaleField (s.readD ra) imm8)

/-- GETSIGN Da (40_bitfield.md R101). -/
def execGetsign (ra : DSel) (s : State) : StepResult := putRes s (truthWord (sign (s.readD ra)))

/-- SETSIGN Dd, Da, imm1 (40_bitfield.md R102). -/
def execSetsign (rd ra : DSel) (imm1 : BitVec 1) (s : State) : StepResult :=
  putD s rd (setSignField (s.readD ra) imm1)

end Sys2Proof.Machine
end

