-- ==== Sys2Proof/Machine/Compare.lean ====
section
/-! DEFINITION. The comparison unit (44_compare.md R150 to R157): ISEQ ISNE ISLT ISLE ISGT ISGE. -/

namespace Sys2Proof.Machine

/-- The three-way order `ord(a, b)`: the zero test first, then the signs, then the aligned magnitudes, reversed for two
negative operands (44_compare.md R150). -/
def ord (a b : Dec) : Ordering :=
  let A := alignedMant (commonScale a b) a
  let B := alignedMant (commonScale a b) b
  if A = 0 ∧ B = 0 then .eq
  else
    match sign a, sign b with
    | false, true => .gt
    | true, false => .lt
    | false, false => compare A B
    | true, true => compare B A

/-- The common form of the six comparisons: `fail(4)` on a malformed operand, else a truth value of the order to `RES`
(44_compare.md R150). -/
def compareTo (test : Ordering → Bool) (ra rb : DSel) (s : State) : StepResult :=
  withDecs s ra rb fun a b => putRes s (truthWord (test (ord a b)))

/-- ISEQ Da, Db (44_compare.md R151). -/
def execIseq (ra rb : DSel) (s : State) : StepResult := compareTo (fun o => decide (o = .eq)) ra rb s

/-- ISNE Da, Db (44_compare.md R152). -/
def execIsne (ra rb : DSel) (s : State) : StepResult := compareTo (fun o => decide (o ≠ .eq)) ra rb s

/-- ISLT Da, Db (44_compare.md R153). -/
def execIslt (ra rb : DSel) (s : State) : StepResult := compareTo (fun o => decide (o = .lt)) ra rb s

/-- ISLE Da, Db (44_compare.md R154). -/
def execIsle (ra rb : DSel) (s : State) : StepResult := compareTo (fun o => decide (o ≠ .gt)) ra rb s

/-- ISGT Da, Db (44_compare.md R155). -/
def execIsgt (ra rb : DSel) (s : State) : StepResult := compareTo (fun o => decide (o = .gt)) ra rb s

/-- ISGE Da, Db (44_compare.md R156). -/
def execIsge (ra rb : DSel) (s : State) : StepResult := compareTo (fun o => decide (o ≠ .lt)) ra rb s

end Sys2Proof.Machine
end

