-- ==== Sys2Proof/Machine/Constants.lean ====
section
/-! DEFINITION. Constants and no-operation (47_constants.md R180 to R183): NOP LDZERO LDMAX. There is no infinity (R183). -/

namespace Sys2Proof.Machine

/-- NOP changes nothing but `STATUS.CODE`, which becomes 0 (47_constants.md R180). -/
def execNop (s : State) : StepResult := s.ok

/-- LDZERO Dd: `D[RD] <- mkdec(0, 0, 0); ok` (47_constants.md R181). -/
def execLdzero (rd : DSel) (s : State) : StepResult := putD s rd (mkdec false 0 0)

/-- LDMAX Dd: `D[RD] <- mkdec(0, 2^96 - 1, 0); ok` (47_constants.md R182). -/
def execLdmax (rd : DSel) (s : State) : StepResult := putD s rd (mkdec false Config.maxMant 0)

end Sys2Proof.Machine
end

