-- ==== Sys2Proof/Machine/Convert.lean ====
section
/-! DEFINITION. The conversion unit (45_convert.md R160 to R164): ITOD DTOI FTOD DTOF. Two's complement and the binary32
layout stand in the spec from general knowledge (R160, G1 and G2 of 93_implementation_defined.md; PRESUMED, log 10). -/

namespace Sys2Proof.Machine

/-! ## Integers -/

/-- `signed32(x) = x[30:0] - 2^31 * x[31]` (00_scope.md R9, 45_convert.md R160 (a)). -/
def signed32 (x : Word) : Int := (x.extractLsb' 0 31).toNat - 2 ^ 31 * ((x.extractLsb' 31 1).toNat : Int)

/-- ITOD Dd: scale 0, the integer's sign and absolute value (45_convert.md R161). -/
def execItod (rd : DSel) (s : State) : StepResult :=
  putD s rd (mkdec (decide (signed32 s.arg < 0)) (signed32 s.arg).natAbs 0)

/-- `I = mant(a) div 10^scale(a)`, the integral part (45_convert.md R162, 46_round.md R170). -/
def intPart (a : Dec) : Nat := mant a / 10 ^ scale a

/-- DTOI Da: truncated toward zero; out of the two's-complement range is `fail(4)` (45_convert.md R162). -/
def execDtoi (ra : DSel) (s : State) : StepResult :=
  withDec s ra fun a =>
    if sign a = false ∧ intPart a ≤ 2 ^ 31 - 1 then putRes s (BitVec.ofNat 32 (intPart a))
    else if sign a = true ∧ intPart a ≤ 2 ^ 31 then putRes s (BitVec.ofNat 32 ((2 ^ 32 - intPart a) % 2 ^ 32))
    else s.fail .invalidInput

/-! ## Binary32 to decimal -/

/-- `S = f[31]` (45_convert.md R160 (b)). -/
def floatSign (f : Word) : Bool := f.getLsbD 31
/-- `E = f[30:23]`, the biased exponent (45_convert.md R160 (b)). -/
def floatExp (f : Word) : Nat := (f.extractLsb' 23 8).toNat
/-- `T = f[22:0]`, the trailing significand (45_convert.md R160 (b)). -/
def floatFrac (f : Word) : Nat := (f.extractLsb' 0 23).toNat

/-- The magnitude `v` of a finite binary32 is `floatNum f / floatDen`: `T * 2^-149` when `E = 0`, and
`(2^23 + T) * 2^(E - 150)` otherwise, both over the one denominator `2^150` (45_convert.md R160 (b)). -/
def floatNum (f : Word) : Nat := if floatExp f = 0 then 2 * floatFrac f else (2 ^ 23 + floatFrac f) * 2 ^ floatExp f

/-- The denominator of `floatNum` (45_convert.md R160 (b)). -/
def floatDen : Nat := 2 ^ 150

/-- `sint`: the least `s` such that `v * 10^s` is an integer, at most 149 (45_convert.md R163). -/
def scaleExact (f : Word) : Nat := leastFrom (fun s => decide (floatNum f * 10 ^ s % floatDen = 0)) 149 0

/-- `sfit`: the greatest `s` in 0 to 28 such that `rne(v * 10^s) <= 2^96 - 1` (45_convert.md R163). -/
def scaleFit (f : Word) : Nat :=
  greatestUpTo (fun s => decide (rneDiv (floatNum f * 10 ^ s) floatDen ≤ Config.maxMant)) Config.maxScale

/-- `c = min(sint, sfit)` (45_convert.md R163). -/
def floatScale (f : Word) : Nat := min (scaleExact f) (scaleFit f)

/-- FTOD Dd: a non-finite value or a magnitude of `2^96` or more is `fail(4)` (45_convert.md R163). -/
def execFtod (rd : DSel) (s : State) : StepResult :=
  if floatExp s.arg = 255 then s.fail .invalidInput
  else if 2 ^ 96 * floatDen ≤ floatNum s.arg then s.fail .invalidInput
  else putD s rd (mkdec (floatSign s.arg) (rneDiv (floatNum s.arg * 10 ^ floatScale s.arg) floatDen) (floatScale s.arg))

/-! ## Decimal to binary32 -/

/-- For `q = n / d > 0` with `2^e <= q < 2^(e+1)` and `-94 <= e <= 95`, the natural `e + 94` (45_convert.md R164). -/
def floatBinade (n d : Nat) : Nat := leastFrom (fun j => decide (n * 2 ^ 93 < d * 2 ^ j)) 189 0

/-- `m = rne(q / 2^(e-23))`, from 2^23 to 2^24 (45_convert.md R164). -/
def floatSignificand (n d : Nat) : Nat := rneDiv (n * 2 ^ 117) (d * 2 ^ floatBinade n d)

/-- `round32(n / d)`, the low 31 bits of the nearest binary32, ties to even; `round32(0) = 0`. With `j = e + 94` the
biased exponent `e + 127` is `j + 33`; a significand of `2^24` becomes `2^23` at the next exponent (45_convert.md R164). -/
def round32 (n d : Nat) : Nat :=
  if n = 0 then 0
  else if floatSignificand n d = 2 ^ 24 then (floatBinade n d + 34) * 2 ^ 23
  else (floatBinade n d + 33) * 2 ^ 23 + (floatSignificand n d - 2 ^ 23)

/-- DTOF Da (45_convert.md R164). -/
def execDtof (ra : DSel) (s : State) : StepResult :=
  withDec s ra fun a =>
    putRes s (BitVec.ofNat 32 ((sign a).toNat * 2 ^ 31 + round32 (mant a) (10 ^ scale a)))

end Sys2Proof.Machine
end

