-- ==== Sys2Proof/Machine/Round.lean ====
section
/-! DEFINITION. The rounding unit (46_round.md R170 to R174): TRUNC FLOOR ROUND ROUNDP. -/

namespace Sys2Proof.Machine

/-- `F = mant(a) mod 10^c`, the fractional part of the split; the integral part `I` is `intPart` (46_round.md R170). -/
def fracPart (a : Dec) : Nat := mant a % 10 ^ scale a

/-- TRUNC Dd, Da (46_round.md R171). -/
def execTrunc (rd ra : DSel) (s : State) : StepResult :=
  withDec s ra fun a => putD s rd (mkdec (sign a) (intPart a) 0)

/-- FLOOR Dd, Da (46_round.md R172). -/
def execFloor (rd ra : DSel) (s : State) : StepResult :=
  withDec s ra fun a =>
    if sign a = true ∧ fracPart a ≠ 0 then putD s rd (mkdec true (intPart a + 1) 0)
    else putD s rd (mkdec (sign a) (intPart a) 0)

/-- `J` of ROUND: the fraction against one half, ties to the even neighbour (46_round.md R173). -/
def roundedPart (a : Dec) : Nat :=
  if 10 ^ scale a < 2 * fracPart a then intPart a + 1
  else if 2 * fracPart a < 10 ^ scale a then intPart a
  else if intPart a % 2 = 0 then intPart a else intPart a + 1

/-- ROUND Dd, Da (46_round.md R173). -/
def execRound (rd ra : DSel) (s : State) : StepResult :=
  withDec s ra fun a => putD s rd (mkdec (sign a) (roundedPart a) 0)

/-- ROUNDP Dd, Da, p: `p > 28` is `fail(5)`; the scale is never raised (46_round.md R174). -/
def execRoundp (rd ra : DSel) (p : Fin 32) (s : State) : StepResult :=
  if placesOk p then
    withDec s ra fun a =>
      if scale a ≤ p.val then putD s rd a
      else putD s rd (mkdec (sign a) (dropDigits (mant a) (scale a - p.val)) p.val)
  else s.fail .illegalCommand

end Sys2Proof.Machine
end

