-- ==== Sys2Proof/Machine/WideInt.lean ====
section
/-! DEFINITION. The wide-integer unit (41_wide.md R110 to R120): BSHL BSHR BISZERO BCMP BADD BSUB BMUL NARROW. A command with
wide sources and a wide destination copies SCALE and SIGN from its first source (R110 (a)). -/

namespace Sys2Proof.Machine

/-- BSHL Bd, Ba, n: `MAG <- (MAG * 2^n) mod 2^256`, lost bits unreported (41_wide.md R111). -/
def execBshl (bd ba : BSel) (n : Fin 4096) (s : State) : StepResult :=
  putB s bd { s.readB ba with mag := (s.readB ba).mag <<< n.val }

/-- BSHR Bd, Ba, n: `MAG <- MAG div 2^n` (41_wide.md R112). -/
def execBshr (bd ba : BSel) (n : Fin 4096) (s : State) : StepResult :=
  putB s bd { s.readB ba with mag := (s.readB ba).mag >>> n.val }

/-- BISZERO Ba: SCALE and SIGN are ignored (41_wide.md R113). -/
def execBiszero (ba : BSel) (s : State) : StepResult :=
  putRes s (truthWord (decide ((s.readB ba).mag = 0)))

/-- BCMP Ba, Bb: the magnitudes as unsigned numbers (41_wide.md R114). -/
def execBcmp (ba bb : BSel) (s : State) : StepResult :=
  putRes s (orderWord (compare (s.readB ba).mag.toNat (s.readB bb).mag.toNat))

/-- BADD Bd, Ba, Bb: a carry out of bit 255 is `fail(1)` (41_wide.md R115). -/
def execBadd (bd ba bb : BSel) (s : State) : StepResult :=
  if (s.readB ba).mag.toNat + (s.readB bb).mag.toNat < 2 ^ 256 then
    putB s bd { s.readB ba with mag := BitVec.ofNat 256 ((s.readB ba).mag.toNat + (s.readB bb).mag.toNat) }
  else s.fail .tooBig

/-- BSUB Bd, Ba, Bb: a minuend below the subtrahend is `fail(5)` (41_wide.md R116). -/
def execBsub (bd ba bb : BSel) (s : State) : StepResult :=
  if (s.readB ba).mag.toNat < (s.readB bb).mag.toNat then s.fail .illegalCommand
  else putB s bd { s.readB ba with mag := BitVec.ofNat 256 ((s.readB ba).mag.toNat - (s.readB bb).mag.toNat) }

/-- BMUL Bd, Da, Db: the exact product, the plain sum of the scales, the XOR of the signs (41_wide.md R117). -/
def execBmul (bd : BSel) (ra rb : DSel) (s : State) : StepResult :=
  withDecs s ra rb fun a b =>
    putB s bd ⟨BitVec.ofNat 256 (mant a * mant b), BitVec.ofNat 8 (scale a + scale b), sign a ^^ sign b⟩

/-- NARROW Dd, Ba (41_wide.md R119). -/
def execNarrow (rd : DSel) (ba : BSel) (s : State) : StepResult :=
  putResult s rd (narrow (s.readB ba).sign (s.readB ba).mag.toNat (s.readB ba).scale.toNat)

end Sys2Proof.Machine
end

