-- ==== Sys2Proof/Machine/Dispatch.lean ====
section
/-! DEFINITION. The meaning of every command, one arm per row of the opcode table (30_encoding.md R76). -/

namespace Sys2Proof.Machine

/-- Execution of a decoded command, to completion (30_encoding.md R72). -/
def exec (i : Instr) (s : State) : Host.Outcome State Fault Refusal :=
  match i with
  | .nop => Sys2Proof.Machine.execNop s
  | .wgetb ra w n => Sys2Proof.Machine.execWgetb ra w n s
  | .wsetb rd ra w n => Sys2Proof.Machine.execWsetb rd ra w n s
  | .wclrb rd ra w n => Sys2Proof.Machine.execWclrb rd ra w n s
  | .winvb rd ra w n => Sys2Proof.Machine.execWinvb rd ra w n s
  | .mgetb ra n => Sys2Proof.Machine.execMgetb ra n s
  | .msetb rd ra n => Sys2Proof.Machine.execMsetb rd ra n s
  | .mclrb rd ra n => Sys2Proof.Machine.execMclrb rd ra n s
  | .minvb rd ra n => Sys2Proof.Machine.execMinvb rd ra n s
  | .getscale ra => Sys2Proof.Machine.execGetscale ra s
  | .setscale rd ra imm8 => Sys2Proof.Machine.execSetscale rd ra imm8 s
  | .getsign ra => Sys2Proof.Machine.execGetsign ra s
  | .setsign rd ra imm1 => Sys2Proof.Machine.execSetsign rd ra imm1 s
  | .bshl bd ba n => Sys2Proof.Machine.execBshl bd ba n s
  | .bshr bd ba n => Sys2Proof.Machine.execBshr bd ba n s
  | .biszero ba => Sys2Proof.Machine.execBiszero ba s
  | .bcmp ba bb => Sys2Proof.Machine.execBcmp ba bb s
  | .badd bd ba bb => Sys2Proof.Machine.execBadd bd ba bb s
  | .bsub bd ba bb => Sys2Proof.Machine.execBsub bd ba bb s
  | .bmul bd ra rb => Sys2Proof.Machine.execBmul bd ra rb s
  | .narrow rd ba => Sys2Proof.Machine.execNarrow rd ba s
  | .align bd bc ra rb => Sys2Proof.Machine.execAlign bd bc ra rb s
  | .add rd ra rb => Sys2Proof.Machine.execAdd rd ra rb s
  | .sub rd ra rb => Sys2Proof.Machine.execSub rd ra rb s
  | .mul rd ra rb => Sys2Proof.Machine.execMul rd ra rb s
  | .div rd rc ra rb => Sys2Proof.Machine.execDiv rd rc ra rb s
  | .neg rd ra => Sys2Proof.Machine.execNeg rd ra s
  | .iseq ra rb => Sys2Proof.Machine.execIseq ra rb s
  | .isne ra rb => Sys2Proof.Machine.execIsne ra rb s
  | .islt ra rb => Sys2Proof.Machine.execIslt ra rb s
  | .isle ra rb => Sys2Proof.Machine.execIsle ra rb s
  | .isgt ra rb => Sys2Proof.Machine.execIsgt ra rb s
  | .isge ra rb => Sys2Proof.Machine.execIsge ra rb s
  | .itod rd => Sys2Proof.Machine.execItod rd s
  | .dtoi ra => Sys2Proof.Machine.execDtoi ra s
  | .ftod rd => Sys2Proof.Machine.execFtod rd s
  | .dtof ra => Sys2Proof.Machine.execDtof ra s
  | .trunc rd ra => Sys2Proof.Machine.execTrunc rd ra s
  | .floor rd ra => Sys2Proof.Machine.execFloor rd ra s
  | .round rd ra => Sys2Proof.Machine.execRound rd ra s
  | .roundp rd ra p => Sys2Proof.Machine.execRoundp rd ra p s
  | .ldzero rd => Sys2Proof.Machine.execLdzero rd s
  | .ldmax rd => Sys2Proof.Machine.execLdmax rd s

end Sys2Proof.Machine
end

