-- ==== Sys2Proof/Machine/Window.lean ====
section
/-! DEFINITION. The host window (20_memory.md R50 to R57): its map, reads, writes other than to CMD, and the accesses of
a bus that numbers bytes. -/

namespace Sys2Proof.Machine

/-- What a window word address names (20_memory.md R51). -/
inductive WinWord where
  /-- `D[r].W[w]`. -/
  | dWord (r : DSel) (w : Fin 4)
  /-- `B[r].MAG` word `j`. -/
  | magWord (r : BSel) (j : Fin 8)
  /-- `B[r].CTL`. -/
  | ctl (r : BSel)
  | cmd
  | status
  | arg
  | res
  | reserved
deriving DecidableEq, Repr

/-- The window map (20_memory.md R51). -/
def winMap (a : BitVec 8) : WinWord :=
  let n := a.toNat
  if n < 0x20 then .dWord (Fin.ofNat 8 (n / 4)) (Fin.ofNat 4 (n % 4))
  else if n < 0x40 then .reserved
  else if n < 0x80 then
    let r := Fin.ofNat 4 ((n - 0x40) / 16)
    let j := (n - 0x40) % 16
    if j < 8 then .magWord r (Fin.ofNat 8 j) else if j = 8 then .ctl r else .reserved
  else if n = 0x80 then .cmd
  else if n = 0x81 then .status
  else if n = 0x82 then .arg
  else if n = 0x83 then .res
  else .reserved

/-- `B[r].CTL` as it reads: bits 23:16 are SCALE, bit 31 is SIGN, all others zero (10_state.md R28, 20_memory.md R53). -/
def ctlWord (x : Wide) : Word := BitVec.ofNat 32 (x.sign.toNat * 2 ^ 31 + x.scale.toNat * 2 ^ 16)

/-- `WinRead(a)`, the 32 bits returned (20_memory.md R53). -/
def winRead (s : State) (a : BitVec 8) : Word :=
  match winMap a with
  | .dWord r w => wordOf (s.readD r) w
  | .magWord r j => magWord (s.readB r).mag j
  | .ctl r => ctlWord (s.readB r)
  | .cmd => 0
  | .status => s.code.setWidth 32
  | .arg => s.arg
  | .res => s.res
  | .reserved => 0

/-- `WinWrite(a, v)` for `a` other than CMD (20_memory.md R52). -/
def winWrite (s : State) (a : BitVec 8) (v : Word) : State :=
  match winMap a with
  | .dWord r w => s.writeD r (setWord (s.readD r) w v)
  | .magWord r j => s.writeB r { s.readB r with mag := setMagWord (s.readB r).mag j v }
  | .ctl r => s.writeB r { s.readB r with scale := v.extractLsb' 16 8, sign := v.getLsbD 31 }
  | .arg => { s with arg := v }
  | .cmd => s
  | .status => s
  | .res => s
  | .reserved => s

/-- A host read: the engine's state does not change, the value goes to the host (20_memory.md R53; log 2). -/
def serveRead (s : State) (a : BitVec 8) : State := { s with returned := winRead s a :: s.returned }

/-- The platform's reset: every bit of architectural state is zero, the host's side is not the engine's to clear
(70_reset_and_hazards.md R205; log 4). -/
def serveReset (s : State) : State := { State.reset with pending := s.pending, returned := s.returned }

/-- An access of a bus that numbers bytes: window word `a` stands at byte offset `4*a`; "only a naturally aligned 32-bit
access is defined", any other is refused (20_memory.md R55). A word outside the window faults (log 6). -/
def busAccess (offset size : Nat) (k : BitVec 8 → StepResult) : StepResult :=
  if size = 4 ∧ offset % 4 = 0 then
    if offset / 4 < Config.windowWords then k (BitVec.ofNat 8 (offset / 4)) else .fault .outsideWindow
  else .refused .notAlignedWord

/-- Where window word `a` stands in the host's address space (20_memory.md R55, R57; WINDOW_BASE is open, log 9). -/
def hostByteAddress (a : BitVec 8) : Nat := Config.windowBase + 4 * a.toNat

/-- Byte `k` of the image of a decimal in the host's byte-addressed memory: word `w` stands at offset `4*w`, the order of
the bytes inside a word is the parameter HOST_BYTE_ORDER (20_memory.md R54; log 9). No step reads it. -/
def imageByte (order : Config.ByteOrder) (x : Dec) (k : Fin 16) : BitVec 8 :=
  let lane := match order with
    | .littleEndian => k.val % 4
    | .bigEndian => 3 - k.val % 4
  (wordOf x (Fin.ofNat 4 (k.val / 4))).extractLsb' (8 * lane) 8

end Sys2Proof.Machine
end

