-- ==== Sys2Proof/Machine/Serve.lean ====
section
/-! DEFINITION. What one event from outside does: a command word is decoded and executed, a window word is written or read,
a bus access is turned into one of these, reset clears the engine (20_memory.md R52, R53, R55, R59). -/

namespace Sys2Proof.Machine

/-- A write to CMD: the command word is decoded and executed to completion; a word that matches no row is `fail(5)`
(30_encoding.md R72, R78). -/
def runCommand (c : Word) (s : State) : StepResult :=
  match decode c with
  | .ok i => exec i s
  | .error _ => s.fail .illegalCommand

/-- `WinWrite(a, v)`: a write to CMD executes, any other stores (20_memory.md R52). -/
def serveWrite (s : State) (a : BitVec 8) (v : Word) : StepResult :=
  if a = Config.cmdAddr then runCommand v s else .next (winWrite s a v)

/-- What one event does to the engine (20_memory.md R52, R53, R55, 70_reset_and_hazards.md R205). -/
def serve (s : State) : HostEvent → StepResult
  | .winRead a => .next (serveRead s a)
  | .winWrite a v => serveWrite s a v
  | .busRead offset size => busAccess offset size fun a => .next (serveRead s a)
  | .busWrite offset size v => busAccess offset size fun a => serveWrite s a v
  | .reset => .next (serveReset s)

end Sys2Proof.Machine
end

