-- ==== Sys2Proof/Machine/Step.lean ====
section
/-! DEFINITION. One step of the machine: one host access, or a reset, is served (00_scope.md R10, 20_memory.md R59,
70_reset_and_hazards.md R205). -/

namespace Sys2Proof.Machine

/-- One step: the next pending event is taken and served; with none pending "the engine does nothing by itself"
(00_scope.md R10; log 1, log 3). -/
def step (s : State) : Host.Outcome State Fault Refusal :=
  match s.pending with
  | [] => .next s
  | e :: rest => serve { s with pending := rest } e

/-- The state with a host write of the command word made of the low `nbits` bits of `w` to CMD as its next event: the
engine has no fetch (20_memory.md R62), and this write is how a command comes to it (30_encoding.md R70; log 5). -/
def State.withFetchWord (s : State) (nbits w : Nat) : State :=
  { s with pending := .winWrite Config.cmdAddr (BitVec.ofNat 32 (w % 2 ^ nbits)) :: s.pending }

end Sys2Proof.Machine
end

