-- ==== Sys2Proof/Safety.lean ====
section
/-! DEFINITION. The terms that claims about the engine use: safe runs, numeric values (10_state.md R25), nearest-even
rounding of a rational (00_scope.md R7), and what each command reads, writes and can report (10_state.md R37,
60_exceptions.md R188, R190). -/

namespace Sys2Proof.Machine

/-! ## Safe runs -/

/-- The event is a word access of the window, or reset: the only ones the spec gives a step (20_memory.md R55). -/
def HostEvent.hasStep : HostEvent → Bool
  | .winRead _ => true
  | .winWrite _ _ => true
  | .busRead offset size => decide (size = 4 ∧ offset % 4 = 0 ∧ offset / 4 < 256)
  | .busWrite offset size _ => decide (size = 4 ∧ offset % 4 = 0 ∧ offset / 4 < 256)
  | .reset => true

/-- Everything the host will do has a step. -/
def State.hostWellBehaved (s : State) : Prop := ∀ e ∈ s.pending, e.hasStep = true

/-- `STATUS.CODE` holds one of its legal values 0 to 5 (10_state.md R30, 60_exceptions.md R185). -/
def State.legalCode (s : State) : Prop := s.code.toNat ≤ 5

/-- Every decimal register holds a well-formed decimal (10_state.md R24). -/
def State.allValid (s : State) : Prop := ∀ r : DSel, valid (s.d.get r) = true

/-! ## Values -/

/-- `val(d) = (-1)^sign(d) * mant(d) / 10^scale(d)`, for a well-formed `d`; of a malformed one no claim uses it
(10_state.md R25; log 16). -/
def val (d : Dec) : ℚ := (if sign d then -1 else 1) * (mant d : ℚ) / 10 ^ scale d

/-- The value a wide register stands for (10_state.md R27). -/
def Wide.val (x : Wide) : ℚ := (if x.sign then -1 else 1) * (x.mag.toNat : ℚ) / 10 ^ x.scale.toNat

/-- `n = rne(q)`: no integer is nearer to `q`, and of two equally near it is the even one (00_scope.md R7). -/
def IsNearestEven (q : ℚ) (n : ℕ) : Prop := |q - n| ≤ 1 / 2 ∧ (|q - n| = 1 / 2 → n % 2 = 0)

/-- The magnitude of a finite binary32 word: `T * 2^-149` when `E = 0`, `(2^23 + T) * 2^(E - 150)` otherwise
(45_convert.md R160 (b)). -/
def binary32Mag (f : Word) : ℚ :=
  if f.toNat / 2 ^ 23 % 256 = 0 then (f.toNat % 2 ^ 23 : ℕ) * (2 : ℚ) ^ (-149 : ℤ)
  else ((2 ^ 23 + f.toNat % 2 ^ 23 : ℕ) : ℚ) * (2 : ℚ) ^ ((f.toNat / 2 ^ 23 % 256 : ℕ) - 150 : ℤ)

/-! ## Encodings -/

/-- The command's word is the number `n`, read and written (30_encoding.md R73, R76). -/
def EncodedAs (i : Instr) (n : Nat) : Prop :=
  encode i = BitVec.ofNat 32 n ∧ decode (BitVec.ofNat 32 n) = .ok i

/-! ## What a command writes (10_state.md R37) -/

/-- The decimal registers a command names as destinations. -/
def decDests : Instr → List DSel
  | .wsetb rd _ _ _ | .wclrb rd _ _ _ | .winvb rd _ _ _ | .msetb rd _ _ | .mclrb rd _ _ | .minvb rd _ _
  | .setscale rd _ _ | .setsign rd _ _ | .narrow rd _ | .add rd _ _ | .sub rd _ _ | .mul rd _ _ | .neg rd _
  | .itod rd | .ftod rd | .trunc rd _ | .floor rd _ | .round rd _ | .roundp rd _ _ | .ldzero rd | .ldmax rd => [rd]
  | .div rd rc _ _ => [rd, rc]
  | .nop | .wgetb .. | .mgetb .. | .getscale .. | .getsign .. | .bshl .. | .bshr .. | .biszero .. | .bcmp ..
  | .badd .. | .bsub .. | .bmul .. | .align .. | .iseq .. | .isne .. | .islt .. | .isle .. | .isgt .. | .isge ..
  | .dtoi .. | .dtof .. => []

/-- The wide registers a command names as destinations (10_state.md R29). -/
def wideDests : Instr → List BSel
  | .bshl bd _ _ | .bshr bd _ _ | .badd bd _ _ | .bsub bd _ _ | .bmul bd _ _ => [bd]
  | .align bd bc _ _ => [bd, bc]
  | .nop | .wgetb .. | .wsetb .. | .wclrb .. | .winvb .. | .mgetb .. | .msetb .. | .mclrb .. | .minvb ..
  | .getscale .. | .setscale .. | .getsign .. | .setsign .. | .biszero .. | .bcmp .. | .narrow .. | .add ..
  | .sub .. | .mul .. | .div .. | .neg .. | .iseq .. | .isne .. | .islt .. | .isle .. | .isgt .. | .isge ..
  | .itod .. | .dtoi .. | .ftod .. | .dtof .. | .trunc .. | .floor .. | .round .. | .roundp .. | .ldzero ..
  | .ldmax .. => []

/-- The commands whose result goes to `RES` (10_state.md R32, R37). -/
def writesRes : Instr → Bool
  | .wgetb .. | .mgetb .. | .getscale .. | .getsign .. | .biszero .. | .bcmp .. | .iseq .. | .isne .. | .islt ..
  | .isle .. | .isgt .. | .isge .. | .dtoi .. | .dtof .. => true
  | .nop | .wsetb .. | .wclrb .. | .winvb .. | .msetb .. | .mclrb .. | .minvb .. | .setscale .. | .setsign ..
  | .bshl .. | .bshr .. | .badd .. | .bsub .. | .bmul .. | .narrow .. | .align .. | .add .. | .sub .. | .mul ..
  | .div .. | .neg .. | .itod .. | .ftod .. | .trunc .. | .floor .. | .round .. | .roundp .. | .ldzero ..
  | .ldmax .. => false

/-! ## What a command reads (10_state.md R37) -/

/-- The twelve bit-field commands, which read and write any pattern (40_bitfield.md R90). -/
def isBitField : Instr → Bool
  | .wgetb .. | .wsetb .. | .wclrb .. | .winvb .. | .mgetb .. | .msetb .. | .mclrb .. | .minvb .. | .getscale ..
  | .setscale .. | .getsign .. | .setsign .. => true
  | .nop | .bshl .. | .bshr .. | .biszero .. | .bcmp .. | .badd .. | .bsub .. | .bmul .. | .narrow .. | .align ..
  | .add .. | .sub .. | .mul .. | .div .. | .neg .. | .iseq .. | .isne .. | .islt .. | .isle .. | .isgt ..
  | .isge .. | .itod .. | .dtoi .. | .ftod .. | .dtof .. | .trunc .. | .floor .. | .round .. | .roundp ..
  | .ldzero .. | .ldmax .. => false

/-- The decimal registers a command reads as decimal values; each is tested for well-formedness (60_exceptions.md R190). -/
def valueSources : Instr → List DSel
  | .bmul _ ra rb | .align _ _ ra rb | .add _ ra rb | .sub _ ra rb | .mul _ ra rb | .div _ _ ra rb | .iseq ra rb
  | .isne ra rb | .islt ra rb | .isle ra rb | .isgt ra rb | .isge ra rb => [ra, rb]
  | .neg _ ra | .dtoi ra | .dtof ra | .trunc _ ra | .floor _ ra | .round _ ra | .roundp _ ra _ => [ra]
  | .nop | .wgetb .. | .wsetb .. | .wclrb .. | .winvb .. | .mgetb .. | .msetb .. | .mclrb .. | .minvb ..
  | .getscale .. | .setscale .. | .getsign .. | .setsign .. | .bshl .. | .bshr .. | .biszero .. | .bcmp ..
  | .badd .. | .bsub .. | .narrow .. | .itod .. | .ftod .. | .ldzero .. | .ldmax .. => []

/-- All decimal registers a command reads, as values or as patterns. -/
def decSources : Instr → List DSel
  | .wgetb ra _ _ | .wsetb _ ra _ _ | .wclrb _ ra _ _ | .winvb _ ra _ _ | .mgetb ra _ | .msetb _ ra _
  | .mclrb _ ra _ | .minvb _ ra _ | .getscale ra | .setscale _ ra _ | .getsign ra | .setsign _ ra _ => [ra]
  | .bmul _ ra rb | .align _ _ ra rb | .add _ ra rb | .sub _ ra rb | .mul _ ra rb | .div _ _ ra rb | .iseq ra rb
  | .isne ra rb | .islt ra rb | .isle ra rb | .isgt ra rb | .isge ra rb => [ra, rb]
  | .neg _ ra | .dtoi ra | .dtof ra | .trunc _ ra | .floor _ ra | .round _ ra | .roundp _ ra _ => [ra]
  | .nop | .bshl .. | .bshr .. | .biszero .. | .bcmp .. | .badd .. | .bsub .. | .narrow .. | .itod .. | .ftod ..
  | .ldzero .. | .ldmax .. => []

/-- The wide registers a command reads. -/
def wideSources : Instr → List BSel
  | .bshl _ ba _ | .bshr _ ba _ | .biszero ba | .narrow _ ba => [ba]
  | .bcmp ba bb | .badd _ ba bb | .bsub _ ba bb => [ba, bb]
  | .nop | .wgetb .. | .wsetb .. | .wclrb .. | .winvb .. | .mgetb .. | .msetb .. | .mclrb .. | .minvb ..
  | .getscale .. | .setscale .. | .getsign .. | .setsign .. | .bmul .. | .align .. | .add .. | .sub .. | .mul ..
  | .div .. | .neg .. | .iseq .. | .isne .. | .islt .. | .isle .. | .isgt .. | .isge .. | .itod .. | .dtoi ..
  | .ftod .. | .dtof .. | .trunc .. | .floor .. | .round .. | .roundp .. | .ldzero .. | .ldmax .. => []

/-- The two commands that read `ARG` (10_state.md R31). -/
def readsArg : Instr → Bool
  | .itod _ | .ftod _ => true
  | .nop | .wgetb .. | .wsetb .. | .wclrb .. | .winvb .. | .mgetb .. | .msetb .. | .mclrb .. | .minvb ..
  | .getscale .. | .setscale .. | .getsign .. | .setsign .. | .bshl .. | .bshr .. | .biszero .. | .bcmp ..
  | .badd .. | .bsub .. | .bmul .. | .narrow .. | .align .. | .add .. | .sub .. | .mul .. | .div .. | .neg ..
  | .iseq .. | .isne .. | .islt .. | .isle .. | .isgt .. | .isge .. | .dtoi .. | .dtof .. | .trunc .. | .floor ..
  | .round .. | .roundp .. | .ldzero .. | .ldmax .. => false

/-- The codes a decoded command can end with: code 5 "from decoding" apart, which only an out-of-range immediate or BSUB's
own check can still give it (60_exceptions.md R188). -/
def possibleCodes : Instr → List StatusCode
  | .nop | .wgetb .. | .wsetb .. | .wclrb .. | .winvb .. | .getscale .. | .setscale .. | .getsign .. | .setsign ..
  | .bshl .. | .bshr .. | .biszero .. | .bcmp .. | .itod .. | .ldzero .. | .ldmax .. => [.ok]
  | .mgetb .. | .msetb .. | .mclrb .. | .minvb .. | .bsub .. => [.ok, .illegalCommand]
  | .badd .. => [.ok, .tooBig]
  | .narrow .. => [.ok, .tooBig, .tooSmall]
  | .bmul .. | .align .. | .neg .. | .iseq .. | .isne .. | .islt .. | .isle .. | .isgt .. | .isge .. | .dtoi ..
  | .ftod .. | .dtof .. | .trunc .. | .floor .. | .round .. => [.ok, .invalidInput]
  | .roundp .. => [.ok, .invalidInput, .illegalCommand]
  | .add .. | .sub .. => [.ok, .tooBig, .invalidInput]
  | .mul .. => [.ok, .tooBig, .tooSmall, .invalidInput]
  | .div .. => [.ok, .tooBig, .tooSmall, .divisionByZero, .invalidInput]

end Sys2Proof.Machine
end

