-- ==== Sys2Proof/Certificates/Slice0/Obligations.lean ====
section
/-! DEFINITION. The statements about the engine, each from the rule of `spec/` that its docstring names. -/

open Sys2Proof Sys2Proof.Machine

/-! ## Command words -/

/-- Decoding and encoding agree on every command and on every word: a word decodes to a command exactly when it is the word
the encoder gives that command, so every operand is kept and every unused bit is zero (30_encoding.md R71, R72, R73, R76). -/
def Obligations.DecodeEncodeAgree : Prop :=
  ∀ (c : Word) (i : Instr), decode c = .ok i ↔ c = encode i

/-- "at most one row matches" (30_encoding.md section 1): a command word selects at most one row of the opcode map of section 3
there. -/
def Obligations.AtMostOneRowMatches : Prop :=
  ∀ (c : Word) (r r' : Row), r ∈ opcodeTable → r' ∈ opcodeTable → c &&& r.mask = r.value → c &&& r'.mask = r'.value →
    r = r'

/-- Words written out in the spec decode to the commands they stand for, one of each family, and words of its decoder table
are refused (WINVB: 40_bitfield.md section 2; BSHL: 41_wide.md section 2; MSETB and ALIGN: 95_test_vectors.md section 2; LDZERO,
NOP and the refused words: 96_test_vectors_continued.md section 2.8; NARROW, SUB, DIV, ISEQ, DTOI and ROUNDP: section 3 there). -/
def Obligations.SpecWordsDecode : Prop :=
  decode 0x00000000 = .ok .nop ∧ decode 0x04320020 = .ok (.winvb 3 2 1 0) ∧ decode 0x0620005F = .ok (.msetb 2 0 95) ∧
  decode 0x101000FF = .ok (.bshl 1 0 255) ∧ decode 0x17220000 = .ok (.narrow 2 2) ∧
  decode 0x18201003 = .ok (.align 2 3 0 1) ∧ decode 0x21321000 = .ok (.sub 3 2 1) ∧
  decode 0x23467005 = .ok (.div 4 5 6 7) ∧ decode 0x28030000 = .ok (.iseq 3 0) ∧ decode 0x31040000 = .ok (.dtoi 4) ∧
  decode 0x3B100001 = .ok (.roundp 1 0 1) ∧ decode 0x3C500000 = .ok (.ldzero 5) ∧
  decode 0x00000001 = .error .mustBeZero ∧ decode 0x0D000000 = .error .unlistedOpcode ∧
  decode 0x20801000 = .error .mustBeZero ∧ decode 0x23201008 = .error .mustBeZero ∧
  decode 0x10400001 = .error .mustBeZero ∧ decode 0x18001004 = .error .mustBeZero

/-- Every command word that matches no row, and every one whose immediate is out of range, sets `STATUS.CODE` to 5 and
changes nothing else; the 213 opcode values that the rule names are among them (30_encoding.md R78). -/
def Obligations.IllegalCommandWords : Prop :=
  ∀ (s : State) (c : Word) (op : ℕ), op = c.toNat / 2 ^ 24 →
    ((∀ r ∈ opcodeTable, c &&& r.mask ≠ r.value) ∨ (∃ i, decode c = .ok i ∧ i.wellFormed = false) ∨
      (0x0D ≤ op ∧ op ≤ 0x0F) ∨ (0x19 ≤ op ∧ op ≤ 0x1F) ∨ (0x25 ≤ op ∧ op ≤ 0x27) ∨ op = 0x2E ∨ op = 0x2F ∨
      (0x34 ≤ op ∧ op ≤ 0x37) ∨ 0x3E ≤ op) →
    serve s (.winWrite 0x80 c) = .next { s with code := 5 }

/-! ## Steps, the window, reset -/

/-- A step serves the next event on the state with that event taken off, and a write to CMD of a word that decodes to `i` runs
`exec i` there (00_scope.md section 4, 30_encoding.md section 1; the list of events is the model's choice, log 1). -/
def Obligations.StepRunsDecodedCommand : Prop :=
  ∀ (s : State) (e : HostEvent) (rest : List HostEvent), s.pending = e :: rest →
    step s = serve { s with pending := rest } e ∧
    ∀ (c : Word) (i : Instr), e = .winWrite 0x80 c ∨ e = .busWrite 0x200 4 c → decode c = .ok i →
      step s = exec i { s with pending := rest }

/-- `WinRead(a)`: what each address returns, and that a read changes no state of the engine, so that a second read returns
the same (20_memory.md R53). -/
def Obligations.WindowReads : Prop :=
  ∀ (s : State),
    (∀ (r : DSel) (w : Fin 4), winRead s (BitVec.ofNat 8 (4 * r.val + w.val)) = (s.d.get r).extractLsb' (32 * w.val) 32) ∧
    (∀ (r : BSel) (j : Fin 8),
      winRead s (BitVec.ofNat 8 (0x40 + 16 * r.val + j.val)) = (s.b.get r).mag.extractLsb' (32 * j.val) 32) ∧
    (∀ r : BSel, (winRead s (BitVec.ofNat 8 (0x48 + 16 * r.val))).toNat =
      (if (s.b.get r).sign then 2 ^ 31 else 0) + (s.b.get r).scale.toNat * 2 ^ 16) ∧
    winRead s 0x80 = 0 ∧ (winRead s 0x81).toNat = s.code.toNat ∧ winRead s 0x82 = s.arg ∧ winRead s 0x83 = s.res ∧
    (∀ a : BitVec 8, (0x20 ≤ a.toNat ∧ a.toNat < 0x40) ∨ 0x84 ≤ a.toNat ∨
        (0x40 ≤ a.toNat ∧ a.toNat < 0x80 ∧ 9 ≤ a.toNat % 16) → winRead s a = 0) ∧
    (∀ a : BitVec 8, ∃ t, serve s (.winRead a) = .next t ∧ t.d = s.d ∧ t.b = s.b ∧ t.code = s.code ∧ t.arg = s.arg ∧
      t.res = s.res ∧ t.pending = s.pending ∧ winRead t a = winRead s a)

/-- `WinWrite(a, v)`: a write to CMD executes the word; another write makes the address read as the rule says and leaves every
other address, and so every other part of the state, as it was (20_memory.md R52). -/
def Obligations.WindowWrites : Prop :=
  ∀ (s : State) (a : BitVec 8) (v : Word),
    (a = 0x80 → serve s (.winWrite a v) = match decode v with
      | .ok i => exec i s
      | .error _ => .next { s with code := 5 }) ∧
    (a ≠ 0x80 → ∃ t, serve s (.winWrite a v) = .next t ∧ t.code = s.code ∧ t.res = s.res ∧
      t.pending = s.pending ∧ t.returned = s.returned ∧
      (∀ a' : BitVec 8, a' ≠ a → winRead t a' = winRead s a') ∧
      (a.toNat < 0x20 ∨ (0x40 ≤ a.toNat ∧ a.toNat < 0x80 ∧ a.toNat % 16 < 8) ∨ a = 0x82 → winRead t a = v) ∧
      (0x40 ≤ a.toNat ∧ a.toNat < 0x80 ∧ a.toNat % 16 = 8 → winRead t a = v &&& 0x80FF0000) ∧
      ((0x20 ≤ a.toNat ∧ a.toNat < 0x40) ∨ 0x84 ≤ a.toNat ∨ a = 0x81 ∨ a = 0x83 ∨
        (0x40 ≤ a.toNat ∧ a.toNat < 0x80 ∧ 9 ≤ a.toNat % 16) → t = s))

/-- The window shows the whole state: two engines that read the same everywhere have the same architectural state
(20_memory.md section 1; 10_state.md section 1). -/
def Obligations.WindowShowsWholeState : Prop :=
  ∀ (s t : State), (∀ a : BitVec 8, winRead s a = winRead t a) →
    s.d = t.d ∧ s.b = t.b ∧ s.code = t.code ∧ s.arg = t.arg ∧ s.res = t.res

/-- On a bus that numbers bytes, word `a` stands at byte offset `4*a`; any access but a naturally aligned 32-bit one is
refused, with no step (20_memory.md R55). -/
def Obligations.BusAccessesAreAlignedWords : Prop :=
  ∀ (s : State) (a : BitVec 8) (offset size : Nat) (v : Word),
    serve s (.busRead (4 * a.toNat) 4) = serve s (.winRead a) ∧
    serve s (.busWrite (4 * a.toNat) 4 v) = serve s (.winWrite a v) ∧
    (size ≠ 4 ∨ offset % 4 ≠ 0 →
      serve s (.busRead offset size) = .refused .notAlignedWord ∧
      serve s (.busWrite offset size v) = .refused .notAlignedWord)

/-- "every read returns the value left by the latest earlier write": a write and then a read of the same storage word, as two
steps, hand back the value written (20_memory.md section 3; the two lists are the model's choice, log 1 and log 2). -/
def Obligations.ReadReturnsTheWrittenValue : Prop :=
  ∀ (s : State) (a : BitVec 8) (v : Word) (rest : List HostEvent),
    s.pending = .winWrite a v :: .winRead a :: rest →
    a.toNat < 0x20 ∨ (0x40 ≤ a.toNat ∧ a.toNat < 0x80 ∧ a.toNat % 16 < 8) ∨ a = 0x82 →
    ∃ t u, step s = .next t ∧ step t = .next u ∧ u.pending = rest ∧ u.returned = v :: s.returned

/-- THE MODEL'S CHOICES (log 2, log 3, log 4, log 6): with nothing pending a step changes nothing; a read hands its value to
the host's list; a reset clears neither list; a word access outside the 256 words of the window faults. -/
def Obligations.IdleAndOutsideAccesses : Prop :=
  ∀ (s : State) (a : BitVec 8) (offset : Nat) (v : Word),
    (s.pending = [] → step s = .next s) ∧
    serve s (.winRead a) = .next { s with returned := winRead s a :: s.returned } ∧
    (∃ t, serve s .reset = .next t ∧ t.pending = s.pending ∧ t.returned = s.returned) ∧
    (offset % 4 = 0 → 1024 ≤ offset →
      serve s (.busRead offset 4) = .fault .outsideWindow ∧ serve s (.busWrite offset 4 v) = .fault .outsideWindow)

/-- After reset every bit of architectural state is zero (10_state.md R36). -/
def Obligations.ResetIsAllZero : Prop :=
  (∀ r : DSel, State.reset.d.get r = 0) ∧
  (∀ r : BSel, (State.reset.b.get r).mag = 0 ∧ (State.reset.b.get r).scale = 0 ∧ (State.reset.b.get r).sign = false) ∧
  State.reset.code = 0 ∧ State.reset.arg = 0 ∧ State.reset.res = 0

/-- Reset is a step of its own, and from any state it makes every bit of architectural state zero
(70_reset_and_hazards.md R205). -/
def Obligations.ResetStepClearsEngine : Prop :=
  ∀ (s : State), ∃ t, serve s .reset = .next t ∧
    (∀ r : DSel, t.d.get r = 0) ∧
    (∀ r : BSel, (t.b.get r).mag = 0 ∧ (t.b.get r).scale = 0 ∧ (t.b.get r).sign = false) ∧
    t.code = 0 ∧ t.arg = 0 ∧ t.res = 0

/-! ## Rules of the whole machine -/

/-- Every command completes; a command that ends with a code other than 0 ends with one of 1 to 5 and has changed nothing
but the code; `ARG` is never written (60_exceptions.md R186, R187). -/
def Obligations.FailureChangesOnlyTheCode : Prop :=
  ∀ (i : Instr) (s : State), ∃ t, exec i s = .next t ∧ t.arg = s.arg ∧ t.pending = s.pending ∧
    t.returned = s.returned ∧
    (t.code = 0 ∨ (1 ≤ t.code.toNat ∧ t.code.toNat ≤ 5 ∧ t = { s with code := t.code }))

/-- `STATUS.CODE` stays one of 0 to 5 over every step (10_state.md section 4, 60_exceptions.md section 1). -/
def Obligations.StepKeepsLegalCode : Prop :=
  ∀ (s t : State), s.legalCode → step s = .next t → t.legalCode

/-- The three invariants hold at reset: a legal code and well-formed decimal registers, every bit of them being zero
(10_state.md section 5), and a well-behaved host, its list of accesses being empty there by THE MODEL'S CHOICE (log 1). -/
def Obligations.ResetCodeIsLegal : Prop :=
  State.reset.legalCode ∧ State.reset.allValid ∧ State.reset.hostWellBehaved

/-- The engine never stops while the host makes word accesses of the window only: from every such state the step answers a
next state of the same kind (20_memory.md section 2, 60_exceptions.md section 2, 70_reset_and_hazards.md section 2). -/
def Obligations.WellBehavedHostNeverStops : Prop :=
  ∀ (s : State), s.hostWellBehaved → s.legalCode → ∃ t, step s = .next t ∧ t.hostWellBehaved ∧ t.legalCode

/-- Every command but the bit-field commands keeps all decimal registers well-formed (10_state.md section 2,
43_arith.md section 1). -/
def Obligations.CommandsKeepDecimalsWellFormed : Prop :=
  ∀ (i : Instr) (s t : State), isBitField i = false → s.allValid → exec i s = .next t → t.allValid

/-- What a command leaves unchanged: every decimal register it does not name as a destination, every wide register it does
not name as a destination, and `RES` unless its result goes there (10_state.md sections 3, 4 and 6). -/
def Obligations.CommandsWriteOnlyTheirDestinations : Prop :=
  ∀ (i : Instr) (s t : State), exec i s = .next t →
    (∀ r : DSel, r ∉ decDests i → t.d.get r = s.d.get r) ∧
    (∀ r : BSel, r ∉ wideDests i → t.b.get r = s.b.get r) ∧
    (writesRes i = false → t.res = s.res)

/-- A command depends on its sources alone: two states that agree on the registers it reads, and on `ARG` where it reads it,
get the same code and the same results (10_state.md section 6, 00_scope.md section 4). -/
def Obligations.CommandsReadOnlyTheirSources : Prop :=
  ∀ (i : Instr) (s s' t t' : State),
    (∀ r ∈ decSources i, s.d.get r = s'.d.get r) → (∀ r ∈ wideSources i, s.b.get r = s'.b.get r) →
    (readsArg i = true → s.arg = s'.arg) → exec i s = .next t → exec i s' = .next t' →
    t.code = t'.code ∧
    (t.code = 0 → (∀ r ∈ decDests i, t.d.get r = t'.d.get r) ∧ (∀ r ∈ wideDests i, t.b.get r = t'.b.get r) ∧
      (writesRes i = true → t.res = t'.res))

/-- Only the host, the six commands that name a wide destination, and the platform's reset write a wide register (10_state.md
section 3; 70_reset_and_hazards.md section 1 for reset, which is an event of its own in the model: log 4, DEDUCED). -/
def Obligations.WhoWritesWideRegisters : Prop :=
  ∀ (s t : State) (e : HostEvent) (rest : List HostEvent), s.pending = e :: rest → step s = .next t → t.b ≠ s.b →
    e = .reset ∨
    (∃ (a : BitVec 8) (v : Word), (e = .winWrite a v ∨ e = .busWrite (4 * a.toNat) 4 v) ∧
      ((0x40 ≤ a.toNat ∧ a.toNat < 0x80) ∨ (a = 0x80 ∧ ∃ i, decode v = .ok i ∧
        ((∃ bd ba n, i = .bshl bd ba n) ∨ (∃ bd ba n, i = .bshr bd ba n) ∨ (∃ bd ba bb, i = .badd bd ba bb) ∨
         (∃ bd ba bb, i = .bsub bd ba bb) ∨ (∃ bd ra rb, i = .bmul bd ra rb) ∨
         (∃ bd bc ra rb, i = .align bd bc ra rb)))))

/-- A command issued while `STATUS.CODE` is non-zero executes normally: the code is overwritten by every command and read by
none (60_exceptions.md section 2, 10_state.md sections 4 and 6). -/
def Obligations.CodeNeverBlocksCommand : Prop :=
  ∀ (i : Instr) (s : State) (c : BitVec 3), exec i { s with code := c } = exec i s

/-- Each command ends with one of the codes listed for it, and with code 5 when its immediate is out of range
(60_exceptions.md section 1). -/
def Obligations.CodesOfEachCommand : Prop :=
  ∀ (i : Instr) (s t : State), exec i s = .next t →
    (∃ c ∈ possibleCodes i, t.code = c.number) ∧ (i.wellFormed = false → t.code = 5)

/-- Which commands test `Valid`: a command that reads a D register as a decimal value ends with code 4 when one of those
registers is malformed; the bit-field commands never do; and a command with nothing to test gives the same code and the same
results whatever the D registers hold (60_exceptions.md R190). -/
def Obligations.MalformedOperandsAreRefused : Prop :=
  (∀ (i : Instr) (s : State), i.wellFormed = true → (∃ r ∈ valueSources i, valid (s.d.get r) = false) →
    exec i s = .next { s with code := 4 }) ∧
  (∀ (i : Instr) (s t : State), isBitField i = true → exec i s = .next t → t.code ≠ 4) ∧
  (∀ (i : Instr) (s : State) (d' : Vector Dec 8), isBitField i = false → valueSources i = [] →
    ∃ t u, exec i s = .next t ∧ exec i { s with d := d' } = .next u ∧ t.code = u.code ∧ t.b = u.b ∧ t.res = u.res ∧
      (t.code = 0 → ∀ r ∈ decDests i, t.d.get r = u.d.get r))

/-- The order of the causes: an immediate out of range is code 5 before any operand is looked at; a malformed operand is code
4 before a zero divisor, which is code 3 whatever the dividend (60_exceptions.md section 1, Priority). -/
def Obligations.PriorityOfCauses : Prop :=
  (∀ (i : Instr) (s : State), i.wellFormed = false → exec i s = .next { s with code := 5 }) ∧
  (∀ (s : State) (rd rc ra rb : DSel),
    (valid (s.d.get ra) = false ∨ valid (s.d.get rb) = false →
      exec (.div rd rc ra rb) s = .next { s with code := 4 }) ∧
    (valid (s.d.get ra) = true → valid (s.d.get rb) = true → (s.d.get rb).toNat % 2 ^ 96 = 0 →
      exec (.div rd rc ra rb) s = .next { s with code := 3 }))

/-! ## Constants (47_constants.md) -/

/-- NOP, LDZERO and LDMAX; every other word of opcode 0 is illegal (47_constants.md R180, R181, R182). -/
def Obligations.ConstantsAndNop : Prop :=
  ∀ (s : State) (rd : DSel) (c : Word),
    EncodedAs .nop 0 ∧ exec .nop s = .next { s with code := 0 } ∧
    (c.toNat / 2 ^ 24 = 0 → c ≠ 0 → serve s (.winWrite 0x80 c) = .next { s with code := 5 }) ∧
    EncodedAs (.ldzero rd) (0x3C000000 + rd.val * 2 ^ 20) ∧
    exec (.ldzero rd) s = .next { s with d := s.d.set rd 0, code := 0 } ∧
    EncodedAs (.ldmax rd) (0x3D000000 + rd.val * 2 ^ 20) ∧
    exec (.ldmax rd) s = .next { s with d := s.d.set rd 0x00000000FFFFFFFFFFFFFFFFFFFFFFFF, code := 0 }

/-! ## Bit fields (40_bitfield.md): the 128 bits of a decimal register, bit `32*w + i` being bit `i` of word `w` -/

/-- WGETB, MGETB, GETSCALE and GETSIGN (40_bitfield.md R91, R95, R99, R101). -/
def Obligations.BitFieldReads : Prop :=
  ∀ (s : State) (ra : DSel) (w : Fin 4) (i : Fin 32) (m : Fin 128),
    EncodedAs (.wgetb ra w i) (0x01000000 + ra.val * 2 ^ 16 + w.val * 2 ^ 5 + i.val) ∧
    exec (.wgetb ra w i) s =
      .next { s with res := if (s.d.get ra).getLsbD (32 * w.val + i.val) then 1 else 0, code := 0 } ∧
    EncodedAs (.mgetb ra m) (0x05000000 + ra.val * 2 ^ 16 + m.val) ∧
    exec (.mgetb ra m) s =
      (if m.val ≤ 95 then .next { s with res := if (s.d.get ra).getLsbD m.val then 1 else 0, code := 0 }
       else .next { s with code := 5 }) ∧
    EncodedAs (.getscale ra) (0x09000000 + ra.val * 2 ^ 16) ∧
    exec (.getscale ra) s =
      .next { s with res := BitVec.ofNat 32 ((s.d.get ra).toNat / 2 ^ 112 % 256), code := 0 } ∧
    EncodedAs (.getsign ra) (0x0B000000 + ra.val * 2 ^ 16) ∧
    exec (.getsign ra) s = .next { s with res := if (s.d.get ra).getLsbD 127 then 1 else 0, code := 0 }

/-- WSETB, WCLRB and WINVB: the destination is the source with one bit set, cleared or inverted
(40_bitfield.md R92, R93, R94). -/
def Obligations.WordBitEdits : Prop :=
  ∀ (s : State) (rd ra : DSel) (w : Fin 4) (i : Fin 32),
    EncodedAs (.wsetb rd ra w i) (0x02000000 + rd.val * 2 ^ 20 + ra.val * 2 ^ 16 + w.val * 2 ^ 5 + i.val) ∧
    EncodedAs (.wclrb rd ra w i) (0x03000000 + rd.val * 2 ^ 20 + ra.val * 2 ^ 16 + w.val * 2 ^ 5 + i.val) ∧
    EncodedAs (.winvb rd ra w i) (0x04000000 + rd.val * 2 ^ 20 + ra.val * 2 ^ 16 + w.val * 2 ^ 5 + i.val) ∧
    ∃ x y z : Dec,
      exec (.wsetb rd ra w i) s = .next { s with d := s.d.set rd x, code := 0 } ∧
      exec (.wclrb rd ra w i) s = .next { s with d := s.d.set rd y, code := 0 } ∧
      exec (.winvb rd ra w i) s = .next { s with d := s.d.set rd z, code := 0 } ∧
      ∀ k < 128,
        x.getLsbD k = (if k = 32 * w.val + i.val then true else (s.d.get ra).getLsbD k) ∧
        y.getLsbD k = (if k = 32 * w.val + i.val then false else (s.d.get ra).getLsbD k) ∧
        z.getLsbD k = (if k = 32 * w.val + i.val then !(s.d.get ra).getLsbD k else (s.d.get ra).getLsbD k)

/-- MSETB, MCLRB and MINVB: mantissa bit `i` is bit `i` of the 128, word 3 is never reached, and an index of 96 to 127 is
code 5 (40_bitfield.md R96, R97, R98, R103). -/
def Obligations.MantissaBitEdits : Prop :=
  ∀ (s : State) (rd ra : DSel) (i : Fin 128),
    EncodedAs (.msetb rd ra i) (0x06000000 + rd.val * 2 ^ 20 + ra.val * 2 ^ 16 + i.val) ∧
    EncodedAs (.mclrb rd ra i) (0x07000000 + rd.val * 2 ^ 20 + ra.val * 2 ^ 16 + i.val) ∧
    EncodedAs (.minvb rd ra i) (0x08000000 + rd.val * 2 ^ 20 + ra.val * 2 ^ 16 + i.val) ∧
    (i.val ≤ 95 → ∃ x y z : Dec,
      exec (.msetb rd ra i) s = .next { s with d := s.d.set rd x, code := 0 } ∧
      exec (.mclrb rd ra i) s = .next { s with d := s.d.set rd y, code := 0 } ∧
      exec (.minvb rd ra i) s = .next { s with d := s.d.set rd z, code := 0 } ∧
      ∀ k < 128,
        x.getLsbD k = (if k = i.val then true else (s.d.get ra).getLsbD k) ∧
        y.getLsbD k = (if k = i.val then false else (s.d.get ra).getLsbD k) ∧
        z.getLsbD k = (if k = i.val then !(s.d.get ra).getLsbD k else (s.d.get ra).getLsbD k)) ∧
    (95 < i.val →
      exec (.msetb rd ra i) s = .next { s with code := 5 } ∧ exec (.mclrb rd ra i) s = .next { s with code := 5 } ∧
      exec (.minvb rd ra i) s = .next { s with code := 5 })

/-- SETSCALE and SETSIGN write bits 119:112 and bit 127 and copy all others (40_bitfield.md R100, R102). -/
def Obligations.ScaleAndSignWrites : Prop :=
  ∀ (s : State) (rd ra : DSel) (v : BitVec 8) (g : BitVec 1),
    EncodedAs (.setscale rd ra v) (0x0A000000 + rd.val * 2 ^ 20 + ra.val * 2 ^ 16 + v.toNat) ∧
    EncodedAs (.setsign rd ra g) (0x0C000000 + rd.val * 2 ^ 20 + ra.val * 2 ^ 16 + g.toNat) ∧
    ∃ x y : Dec,
      exec (.setscale rd ra v) s = .next { s with d := s.d.set rd x, code := 0 } ∧
      exec (.setsign rd ra g) s = .next { s with d := s.d.set rd y, code := 0 } ∧
      ∀ k < 128,
        x.getLsbD k = (if 112 ≤ k ∧ k < 120 then v.getLsbD (k - 112) else (s.d.get ra).getLsbD k) ∧
        y.getLsbD k = (if k = 127 then g.getLsbD 0 else (s.d.get ra).getLsbD k)

/-! ## Wide integers (41_wide.md) -/

/-- BSHL and BSHR on the magnitude as a number; SCALE and SIGN are copied (41_wide.md R111, R112). -/
def Obligations.WideShifts : Prop :=
  ∀ (s : State) (bd ba : BSel) (n : Fin 4096),
    EncodedAs (.bshl bd ba n) (0x10000000 + bd.val * 2 ^ 20 + ba.val * 2 ^ 16 + n.val) ∧
    EncodedAs (.bshr bd ba n) (0x11000000 + bd.val * 2 ^ 20 + ba.val * 2 ^ 16 + n.val) ∧
    ∃ x y : Wide,
      exec (.bshl bd ba n) s = .next { s with b := s.b.set bd x, code := 0 } ∧
      x.mag.toNat = (s.b.get ba).mag.toNat * 2 ^ n.val % 2 ^ 256 ∧
      x.scale = (s.b.get ba).scale ∧ x.sign = (s.b.get ba).sign ∧
      exec (.bshr bd ba n) s = .next { s with b := s.b.set bd y, code := 0 } ∧
      y.mag.toNat = (s.b.get ba).mag.toNat / 2 ^ n.val ∧
      y.scale = (s.b.get ba).scale ∧ y.sign = (s.b.get ba).sign

/-- BISZERO and BCMP look at the magnitudes as unsigned numbers and at nothing else (41_wide.md R113, R114). -/
def Obligations.WideTests : Prop :=
  ∀ (s : State) (ba bb : BSel),
    EncodedAs (.biszero ba) (0x12000000 + ba.val * 2 ^ 16) ∧
    EncodedAs (.bcmp ba bb) (0x13000000 + ba.val * 2 ^ 16 + bb.val * 2 ^ 12) ∧
    exec (.biszero ba) s = .next { s with res := if (s.b.get ba).mag.toNat = 0 then 1 else 0, code := 0 } ∧
    exec (.bcmp ba bb) s = .next { s with res := (if (s.b.get ba).mag.toNat = (s.b.get bb).mag.toNat then 0
      else if (s.b.get bb).mag.toNat < (s.b.get ba).mag.toNat then 1 else 0xFFFFFFFF), code := 0 }

/-- BADD and BSUB: exact, with a carry out of bit 255 reported as code 1 and a smaller minuend as code 5, nothing written in
either case (41_wide.md R115, R116). -/
def Obligations.WideSumAndDifference : Prop :=
  ∀ (s : State) (bd ba bb : BSel),
    EncodedAs (.badd bd ba bb) (0x14000000 + bd.val * 2 ^ 20 + ba.val * 2 ^ 16 + bb.val * 2 ^ 12) ∧
    EncodedAs (.bsub bd ba bb) (0x15000000 + bd.val * 2 ^ 20 + ba.val * 2 ^ 16 + bb.val * 2 ^ 12) ∧
    ((s.b.get ba).mag.toNat + (s.b.get bb).mag.toNat < 2 ^ 256 → ∃ x : Wide,
      exec (.badd bd ba bb) s = .next { s with b := s.b.set bd x, code := 0 } ∧
      x.mag.toNat = (s.b.get ba).mag.toNat + (s.b.get bb).mag.toNat ∧
      x.scale = (s.b.get ba).scale ∧ x.sign = (s.b.get ba).sign) ∧
    (2 ^ 256 ≤ (s.b.get ba).mag.toNat + (s.b.get bb).mag.toNat →
      exec (.badd bd ba bb) s = .next { s with code := 1 }) ∧
    ((s.b.get bb).mag.toNat ≤ (s.b.get ba).mag.toNat → ∃ x : Wide,
      exec (.bsub bd ba bb) s = .next { s with b := s.b.set bd x, code := 0 } ∧
      x.mag.toNat + (s.b.get bb).mag.toNat = (s.b.get ba).mag.toNat ∧
      x.scale = (s.b.get ba).scale ∧ x.sign = (s.b.get ba).sign) ∧
    ((s.b.get ba).mag.toNat < (s.b.get bb).mag.toNat → exec (.bsub bd ba bb) s = .next { s with code := 5 })

/-- BMUL: the product is exact in 256 bits, the scale carried is the plain sum, the sign the exclusive or; a malformed
operand is code 4 (41_wide.md R117). -/
def Obligations.WideProduct : Prop :=
  ∀ (s : State) (bd : BSel) (ra rb : DSel),
    EncodedAs (.bmul bd ra rb) (0x16000000 + bd.val * 2 ^ 20 + ra.val * 2 ^ 16 + rb.val * 2 ^ 12) ∧
    (valid (s.d.get ra) = false ∨ valid (s.d.get rb) = false →
      exec (.bmul bd ra rb) s = .next { s with code := 4 }) ∧
    (valid (s.d.get ra) = true → valid (s.d.get rb) = true → ∃ x : Wide,
      exec (.bmul bd ra rb) s = .next { s with b := s.b.set bd x, code := 0 } ∧
      x.mag.toNat = mant (s.d.get ra) * mant (s.d.get rb) ∧ x.mag.toNat < 2 ^ 192 ∧
      x.scale.toNat = scale (s.d.get ra) + scale (s.d.get rb) ∧
      x.sign = (sign (s.d.get ra) ^^ sign (s.d.get rb)) ∧ x.val = val (s.d.get ra) * val (s.d.get rb))

/-- The function `Narrow`: with `r k` the nearest-even integer to `M / 10^k`, the number of digits dropped is the least that
brings the scale to 28 or below and the mantissa into 96 bits (41_wide.md R118). -/
def Obligations.NarrowDropsLeastDigits : Prop :=
  ∀ (s : Bool) (M c : ℕ) (r : ℕ → ℕ), (∀ k, IsNearestEven ((M : ℚ) / 10 ^ k) (r k)) →
    (2 ^ 96 - 1 < r c → narrow s M c = .error .tooBig) ∧
    (r c ≤ 2 ^ 96 - 1 → ∃ k, c - 28 ≤ k ∧ k ≤ c ∧ r k ≤ 2 ^ 96 - 1 ∧
      (∀ j, c - 28 ≤ j → j < k → 2 ^ 96 - 1 < r j) ∧
      narrow s M c = (if r k = 0 ∧ 0 < M then .error .tooSmall else .ok (mkdec s (r k) (c - k))))

/-- NARROW writes what `Narrow` gives for the register's sign, magnitude and scale, or reports its code; a zero magnitude
gives a zero at scale `min(SCALE, 28)` with the register's sign, and a non-zero one at SCALE 106 or more gives code 2
(41_wide.md R119). -/
def Obligations.NarrowCommand : Prop :=
  ∀ (s : State) (rd : DSel) (ba : BSel),
    EncodedAs (.narrow rd ba) (0x17000000 + rd.val * 2 ^ 20 + ba.val * 2 ^ 16) ∧
    (∀ x, narrow (s.b.get ba).sign (s.b.get ba).mag.toNat (s.b.get ba).scale.toNat = .ok x →
      exec (.narrow rd ba) s = .next { s with d := s.d.set rd x, code := 0 }) ∧
    (∀ e, narrow (s.b.get ba).sign (s.b.get ba).mag.toNat (s.b.get ba).scale.toNat = .error e →
      (e = .tooBig ∨ e = .tooSmall) ∧ exec (.narrow rd ba) s = .next { s with code := e.number }) ∧
    ((s.b.get ba).mag = 0 → exec (.narrow rd ba) s = .next { s with
      d := s.d.set rd (mkdec (s.b.get ba).sign 0 (min (s.b.get ba).scale.toNat 28)), code := 0 }) ∧
    ((s.b.get ba).mag ≠ 0 → 106 ≤ (s.b.get ba).scale.toNat → exec (.narrow rd ba) s = .next { s with code := 2 })

/-- Facts about narrowing: more digits dropped never give more; a value that fits is exact; a result that rounds to zero needs
a scale above 28 (41_wide.md section 6, facts (a), (b), (c)). -/
def Obligations.NarrowFacts : Prop :=
  ∀ (s : Bool) (M c : ℕ),
    (∀ k, dropDigits M (k + 1) ≤ dropDigits M k) ∧
    (c ≤ 28 → M < 2 ^ 96 → narrow s M c = .ok (mkdec s M c)) ∧
    (narrow s M c = .error .tooSmall → 28 < c)

/-! ## Scale alignment (42_align.md) -/

/-- ALIGN: both operands at the larger scale, each with its own sign, exactly, the first written first; a malformed operand is
code 4 and writes nothing (42_align.md R130). -/
def Obligations.AlignCommand : Prop :=
  ∀ (s : State) (bd bc : BSel) (ra rb : DSel),
    EncodedAs (.align bd bc ra rb) (0x18000000 + bd.val * 2 ^ 20 + ra.val * 2 ^ 16 + rb.val * 2 ^ 12 + bc.val) ∧
    (valid (s.d.get ra) = false ∨ valid (s.d.get rb) = false →
      exec (.align bd bc ra rb) s = .next { s with code := 4 }) ∧
    (valid (s.d.get ra) = true → valid (s.d.get rb) = true → ∃ x y : Wide,
      exec (.align bd bc ra rb) s = .next { s with b := (s.b.set bd x).set bc y, code := 0 } ∧
      x.mag.toNat = mant (s.d.get ra) * 10 ^ (max (scale (s.d.get ra)) (scale (s.d.get rb)) - scale (s.d.get ra)) ∧
      y.mag.toNat = mant (s.d.get rb) * 10 ^ (max (scale (s.d.get ra)) (scale (s.d.get rb)) - scale (s.d.get rb)) ∧
      x.scale.toNat = max (scale (s.d.get ra)) (scale (s.d.get rb)) ∧ y.scale = x.scale ∧
      x.sign = sign (s.d.get ra) ∧ y.sign = sign (s.d.get rb))

/-- `Align(a, b)`: the shared scale, the two aligned mantissas, and that "alignment changes no value" (42_align.md R131). -/
def Obligations.AlignmentKeepsValue : Prop :=
  ∀ (a b : Dec), valid a = true → valid b = true →
    commonScale a b = max (scale a) (scale b) ∧
    alignedMant (commonScale a b) a = mant a * 10 ^ (commonScale a b - scale a) ∧
    alignedMant (commonScale a b) b = mant b * 10 ^ (commonScale a b - scale b) ∧
    val a = (if sign a then -1 else 1) * (alignedMant (commonScale a b) a : ℚ) / 10 ^ commonScale a b ∧
    val b = (if sign b then -1 else 1) * (alignedMant (commonScale a b) b : ℚ) / 10 ^ commonScale a b

/-- No aligned value, sum or difference comes near the 256 bits of the workspace: the bounds that the spec derives
(42_align.md, "Bounds"; the spec marks them as its inference). -/
def Obligations.AlignmentBounds : Prop :=
  ∀ (a b : Dec) (A B : ℕ), valid a = true → valid b = true → A = alignedMant (commonScale a b) a →
    B = alignedMant (commonScale a b) b →
    commonScale a b - scale a ≤ 28 ∧ commonScale a b - scale b ≤ 28 ∧ A < 2 ^ 190 ∧ B < 2 ^ 190 ∧ A + B < 2 ^ 191 ∧
    ((A : ℤ) - B).natAbs < 2 ^ 190

/-! ## Arithmetic (43_arith.md) -/

/-- ADD and SUB, step by step: operand check, alignment, sign and magnitude of the sum, narrowing; SUB is ADD with the second
operand's sign inverted; code 2 cannot occur (43_arith.md R136, R137). -/
def Obligations.AddAndSubCommands : Prop :=
  ∀ (s : State) (rd ra rb : DSel),
    EncodedAs (.add rd ra rb) (0x20000000 + rd.val * 2 ^ 20 + ra.val * 2 ^ 16 + rb.val * 2 ^ 12) ∧
    EncodedAs (.sub rd ra rb) (0x21000000 + rd.val * 2 ^ 20 + ra.val * 2 ^ 16 + rb.val * 2 ^ 12) ∧
    (valid (s.d.get ra) = false ∨ valid (s.d.get rb) = false →
      exec (.add rd ra rb) s = .next { s with code := 4 } ∧ exec (.sub rd ra rb) s = .next { s with code := 4 }) ∧
    (valid (s.d.get ra) = true → valid (s.d.get rb) = true →
      ∀ (i : Instr) (sb : Bool), (i = .add rd ra rb ∧ sb = sign (s.d.get rb)) ∨ (i = .sub rd ra rb ∧ sb = !sign (s.d.get rb)) →
      ∀ (t A B M : ℕ) (g : Bool), t = max (scale (s.d.get ra)) (scale (s.d.get rb)) →
        A = mant (s.d.get ra) * 10 ^ (t - scale (s.d.get ra)) → B = mant (s.d.get rb) * 10 ^ (t - scale (s.d.get rb)) →
        (if sign (s.d.get ra) = sb then M = A + B ∧ g = sb
         else if B < A then M = A - B ∧ g = sign (s.d.get ra)
         else if A < B then M = B - A ∧ g = sb
         else M = 0 ∧ g = false) →
        (∀ x, narrow g M t = .ok x → exec i s = .next { s with d := s.d.set rd x, code := 0 }) ∧
        (∀ e, narrow g M t = .error e → e = .tooBig ∧ exec i s = .next { s with code := 1 }))

/-- ADD and SUB against the exact sum and difference of the values: code 1 exactly when the magnitude reaches 2^96 - 1/2; else
the result is the exact value rounded once, to within half a unit of its last place, with the larger operand scale unless one
more place would not fit (43_arith.md sections 1 and 2, 41_wide.md section 6). -/
def Obligations.AddAndSubRoundTheExactValue : Prop :=
  ∀ (s : State) (rd ra rb : DSel), valid (s.d.get ra) = true → valid (s.d.get rb) = true →
    ∀ (i : Instr) (q : ℚ), (i = .add rd ra rb ∧ q = val (s.d.get ra) + val (s.d.get rb)) ∨
        (i = .sub rd ra rb ∧ q = val (s.d.get ra) - val (s.d.get rb)) →
      (exec i s = .next { s with code := 1 } ↔ (2 : ℚ) ^ 96 - 1 / 2 ≤ |q|) ∧
      (|q| < (2 : ℚ) ^ 96 - 1 / 2 → ∃ x : Dec,
        exec i s = .next { s with d := s.d.set rd x, code := 0 } ∧ valid x = true ∧
        |val x - q| ≤ 1 / 2 / 10 ^ scale x ∧ scale x ≤ max (scale (s.d.get ra)) (scale (s.d.get rb)) ∧
        (scale x < max (scale (s.d.get ra)) (scale (s.d.get rb)) →
          (2 : ℚ) ^ 96 - 1 / 2 ≤ |q| * 10 ^ (scale x + 1)))

/-- "`Add(a,b)` then `Subtract(result,b)` yields a" in value, whenever the addition rounded nothing away
(95_test_vectors.md E1; 93_implementation_defined.md U8 gives the hypothesis). Where the sum overwrites the second operand, the
subtraction takes the sum from itself, and the value is 0. -/
def Obligations.SubtractUndoesExactAdd : Prop :=
  ∀ (s t : State) (rd rb ra re : DSel), valid (s.d.get ra) = true → valid (s.d.get rb) = true →
    exec (.add rd ra rb) s = .next t → t.code = 0 → val (t.d.get rd) = val (s.d.get ra) + val (s.d.get rb) →
    ∃ u, exec (.sub re rd rb) t = .next u ∧ u.code = 0 ∧
      val (u.d.get re) = if rd = rb then 0 else val (s.d.get ra)

/-- MUL: product of the mantissas, sum of the scales, XOR of the signs, narrowed; commutative bit for bit, the code included;
the same as BMUL followed by NARROW, without touching a wide register (43_arith.md R138). -/
def Obligations.MulCommand : Prop :=
  ∀ (s : State) (rd ra rb : DSel),
    EncodedAs (.mul rd ra rb) (0x22000000 + rd.val * 2 ^ 20 + ra.val * 2 ^ 16 + rb.val * 2 ^ 12) ∧
    (valid (s.d.get ra) = false ∨ valid (s.d.get rb) = false →
      exec (.mul rd ra rb) s = .next { s with code := 4 }) ∧
    (valid (s.d.get ra) = true → valid (s.d.get rb) = true → ∀ n : Except StatusCode Dec,
      n = narrow (sign (s.d.get ra) ^^ sign (s.d.get rb)) (mant (s.d.get ra) * mant (s.d.get rb))
        (scale (s.d.get ra) + scale (s.d.get rb)) →
      (∀ x, n = .ok x → exec (.mul rd ra rb) s = .next { s with d := s.d.set rd x, code := 0 }) ∧
      (∀ e, n = .error e → (e = .tooBig ∨ e = .tooSmall) ∧
        exec (.mul rd ra rb) s = .next { s with code := e.number })) ∧
    exec (.mul rd ra rb) s = exec (.mul rd rb ra) s ∧
    (∀ (bd : BSel) (t : State), exec (.bmul bd ra rb) s = .next t → t.code = 0 →
      ∃ u v, exec (.narrow rd bd) t = .next u ∧ exec (.mul rd ra rb) s = .next v ∧ v.code = u.code ∧ v.d = u.d ∧
        v.b = s.b)

/-- MUL against the exact product of the values: code 1 exactly when the magnitude reaches 2^96 - 1/2, code 2 exactly when a
non-zero product is at most half of 10^-28, else the exact product rounded once, at the sum of the scales, or at 28 where that
is smaller, unless one more place would not fit (43_arith.md section 3, 41_wide.md section 6). -/
def Obligations.MulRoundsTheExactProduct : Prop :=
  ∀ (s : State) (rd ra rb : DSel) (q : ℚ), valid (s.d.get ra) = true → valid (s.d.get rb) = true →
    q = val (s.d.get ra) * val (s.d.get rb) →
    (exec (.mul rd ra rb) s = .next { s with code := 1 } ↔ (2 : ℚ) ^ 96 - 1 / 2 ≤ |q|) ∧
    (exec (.mul rd ra rb) s = .next { s with code := 2 } ↔ q ≠ 0 ∧ |q| ≤ 1 / 2 / 10 ^ 28) ∧
    (|q| < (2 : ℚ) ^ 96 - 1 / 2 → (q = 0 ∨ 1 / 2 / 10 ^ 28 < |q|) → ∃ x : Dec,
      exec (.mul rd ra rb) s = .next { s with d := s.d.set rd x, code := 0 } ∧ valid x = true ∧
      sign x = (sign (s.d.get ra) ^^ sign (s.d.get rb)) ∧ |val x - q| ≤ 1 / 2 / 10 ^ scale x ∧
      scale x ≤ min 28 (scale (s.d.get ra) + scale (s.d.get rb)) ∧
      (scale x < min 28 (scale (s.d.get ra) + scale (s.d.get rb)) →
        (2 : ℚ) ^ 96 - 1 / 2 ≤ |q| * 10 ^ (scale x + 1)))

/-- DIV, step by step: the working scale `w` at which the long division stops, the truncated quotient narrowed, the remainder
at scale `w + scale(b)` rounded half to even beyond 28, the remainder written first (43_arith.md R139). -/
def Obligations.DivCommand : Prop :=
  ∀ (s : State) (rd rc ra rb : DSel),
    EncodedAs (.div rd rc ra rb) (0x23000000 + rd.val * 2 ^ 20 + ra.val * 2 ^ 16 + rb.val * 2 ^ 12 + rc.val) ∧
    (valid (s.d.get ra) = false ∨ valid (s.d.get rb) = false →
      exec (.div rd rc ra rb) s = .next { s with code := 4 }) ∧
    (valid (s.d.get ra) = true → valid (s.d.get rb) = true → mant (s.d.get rb) = 0 →
      exec (.div rd rc ra rb) s = .next { s with code := 3 }) ∧
    (valid (s.d.get ra) = true → valid (s.d.get rb) = true → mant (s.d.get rb) ≠ 0 →
      ∀ (a b : Dec) (w0 e0 : ℕ) (N : ℕ → ℕ), a = s.d.get ra → b = s.d.get rb → w0 = scale a - scale b →
        e0 = scale b - scale a → (∀ v, w0 ≤ v → N v = mant a * 10 ^ (e0 + v - w0)) →
      ∃ w, w0 ≤ w ∧ w ≤ 28 ∧ (N w % mant b = 0 ∨ w = 28) ∧ (∀ v, w0 ≤ v → v < w → N v % mant b ≠ 0) ∧
        (∀ e, narrow (sign a ^^ sign b) (N w / mant b) w = .error e →
          exec (.div rd rc ra rb) s = .next { s with code := e.number }) ∧
        (∀ q, narrow (sign a ^^ sign b) (N w / mant b) w = .ok q →
          (mant q = 0 ∧ mant a ≠ 0 → exec (.div rd rc ra rb) s = .next { s with code := 2 }) ∧
          (mant q ≠ 0 ∨ mant a = 0 → ∃ m : ℕ,
            IsNearestEven ((N w % mant b : ℕ) / 10 ^ (w + scale b - 28)) m ∧
            exec (.div rd rc ra rb) s = .next { s with
              d := (s.d.set rc (mkdec (sign a) m (min (w + scale b) 28))).set rd q, code := 0 })))

/-- The identity of DIV: when neither the quotient nor the remainder was rounded, dividend = quotient * divisor + remainder in
value, exactly, the remainder being smaller than the divisor in magnitude with the dividend's sign; the remainder's register
holds it unless the quotient, which is written second, takes that register (43_arith.md section 4). -/
def Obligations.DivIdentity : Prop :=
  ∀ (s t : State) (rd rc ra rb : DSel), valid (s.d.get ra) = true → valid (s.d.get rb) = true →
    mant (s.d.get rb) ≠ 0 → exec (.div rd rc ra rb) s = .next t → t.code = 0 →
    divQuot (s.d.get ra) (s.d.get rb) < 2 ^ 96 → divScale (s.d.get ra) (s.d.get rb) + scale (s.d.get rb) ≤ 28 →
    ∃ r : ℚ, val (s.d.get ra) = val (t.d.get rd) * val (s.d.get rb) + r ∧ |r| < |val (s.d.get rb)| ∧
      0 ≤ r * val (s.d.get ra) ∧ (rd ≠ rc → val (t.d.get rc) = r ∧ sign (t.d.get rc) = sign (s.d.get ra))

/-- NEG inverts the sign and keeps mantissa and scale, zero included; twice is the identity on the bits (43_arith.md R140). -/
def Obligations.NegCommand : Prop :=
  ∀ (s : State) (rd ra re : DSel),
    EncodedAs (.neg rd ra) (0x24000000 + rd.val * 2 ^ 20 + ra.val * 2 ^ 16) ∧
    (valid (s.d.get ra) = false → exec (.neg rd ra) s = .next { s with code := 4 }) ∧
    (valid (s.d.get ra) = true → ∃ x : Dec, exec (.neg rd ra) s = .next { s with d := s.d.set rd x, code := 0 } ∧
      valid x = true ∧ sign x = (!sign (s.d.get ra)) ∧ mant x = mant (s.d.get ra) ∧ scale x = scale (s.d.get ra) ∧
      val x = -val (s.d.get ra) ∧
      ∃ u, exec (.neg re rd) { s with d := s.d.set rd x, code := 0 } = .next u ∧ u.d.get re = s.d.get ra)

/-! ## Comparison (44_compare.md) -/

/-- The six comparisons are the order of the rational values, zeros of both signs equal; a malformed operand is code 4
(44_compare.md R150, the order, and R151 to R156). -/
def Obligations.ComparisonsAreNumericOrder : Prop :=
  ∀ (s : State) (ra rb : DSel),
    (EncodedAs (.iseq ra rb) (0x28000000 + ra.val * 2 ^ 16 + rb.val * 2 ^ 12) ∧
     EncodedAs (.isne ra rb) (0x29000000 + ra.val * 2 ^ 16 + rb.val * 2 ^ 12) ∧
     EncodedAs (.islt ra rb) (0x2A000000 + ra.val * 2 ^ 16 + rb.val * 2 ^ 12) ∧
     EncodedAs (.isle ra rb) (0x2B000000 + ra.val * 2 ^ 16 + rb.val * 2 ^ 12) ∧
     EncodedAs (.isgt ra rb) (0x2C000000 + ra.val * 2 ^ 16 + rb.val * 2 ^ 12) ∧
     EncodedAs (.isge ra rb) (0x2D000000 + ra.val * 2 ^ 16 + rb.val * 2 ^ 12)) ∧
    (valid (s.d.get ra) = false ∨ valid (s.d.get rb) = false →
      ∀ i ∈ [Instr.iseq ra rb, .isne ra rb, .islt ra rb, .isle ra rb, .isgt ra rb, .isge ra rb],
        exec i s = .next { s with code := 4 }) ∧
    (valid (s.d.get ra) = true → valid (s.d.get rb) = true →
      exec (.iseq ra rb) s = .next { s with res := if val (s.d.get ra) = val (s.d.get rb) then 1 else 0, code := 0 } ∧
      exec (.isne ra rb) s = .next { s with res := if val (s.d.get ra) ≠ val (s.d.get rb) then 1 else 0, code := 0 } ∧
      exec (.islt ra rb) s = .next { s with res := if val (s.d.get ra) < val (s.d.get rb) then 1 else 0, code := 0 } ∧
      exec (.isle ra rb) s = .next { s with res := if val (s.d.get ra) ≤ val (s.d.get rb) then 1 else 0, code := 0 } ∧
      exec (.isgt ra rb) s = .next { s with res := if val (s.d.get rb) < val (s.d.get ra) then 1 else 0, code := 0 } ∧
      exec (.isge ra rb) s = .next { s with res := if val (s.d.get rb) ≤ val (s.d.get ra) then 1 else 0, code := 0 })

/-! ## Conversion (45_convert.md) -/

/-- ITOD and DTOI: exact at scale 0 from a two's-complement integer; truncated toward zero into one, out of range being code
4, judged on the truncated value; ITOD and then DTOI returns every integer (45_convert.md sections 1 and 2; the spec marks the
two's-complement reading as general knowledge and the round trip as its inference, log 10). -/
def Obligations.IntegerConversions : Prop :=
  ∀ (s : State) (rd ra : DSel),
    EncodedAs (.itod rd) (0x30000000 + rd.val * 2 ^ 20) ∧ EncodedAs (.dtoi ra) (0x31000000 + ra.val * 2 ^ 16) ∧
    (∃ x : Dec, exec (.itod rd) s = .next { s with d := s.d.set rd x, code := 0 } ∧ valid x = true ∧ scale x = 0 ∧
      (sign x = true ↔ s.arg.toInt < 0) ∧ mant x = s.arg.toInt.natAbs ∧ val x = s.arg.toInt) ∧
    (valid (s.d.get ra) = false → exec (.dtoi ra) s = .next { s with code := 4 }) ∧
    (valid (s.d.get ra) = true → ∀ I : ℤ,
      I = (if sign (s.d.get ra) then -1 else 1) * ((mant (s.d.get ra) / 10 ^ scale (s.d.get ra) : ℕ) : ℤ) →
      (-2 ^ 31 ≤ I → I < 2 ^ 31 → ∃ r : Word, exec (.dtoi ra) s = .next { s with res := r, code := 0 } ∧ r.toInt = I) ∧
      (I < -2 ^ 31 ∨ 2 ^ 31 ≤ I → exec (.dtoi ra) s = .next { s with code := 4 })) ∧
    (∀ t, exec (.itod rd) s = .next t → exec (.dtoi rd) t = .next { t with res := s.arg, code := 0 })

/-- FTOD from the exact rational value `v` of the binary32: NaN, infinity and `v >= 2^96` are code 4; else the least scale that
makes it an integer, limited by fit and by 28, and one half-even rounding; the sign bit is copied (45_convert.md sections 1 and
3; the spec marks the binary32 layout as general knowledge, log 10). -/
def Obligations.FloatToDecimal : Prop :=
  ∀ (s : State) (rd : DSel) (v : ℚ), v = binary32Mag s.arg →
    EncodedAs (.ftod rd) (0x32000000 + rd.val * 2 ^ 20) ∧
    (s.arg.toNat / 2 ^ 23 % 256 = 255 ∨ (2 : ℚ) ^ 96 ≤ v → exec (.ftod rd) s = .next { s with code := 4 }) ∧
    (s.arg.toNat / 2 ^ 23 % 256 ≠ 255 → v < (2 : ℚ) ^ 96 → ∃ sint sfit m : ℕ,
      ((∃ n : ℕ, v * 10 ^ sint = n) ∧ ∀ j < sint, ¬ ∃ n : ℕ, v * 10 ^ j = n) ∧
      (sfit ≤ 28 ∧ (∃ n : ℕ, IsNearestEven (v * 10 ^ sfit) n ∧ n ≤ 2 ^ 96 - 1) ∧
        ∀ j, sfit < j → j ≤ 28 → ∀ n : ℕ, IsNearestEven (v * 10 ^ j) n → 2 ^ 96 - 1 < n) ∧
      IsNearestEven (v * 10 ^ min sint sfit) m ∧ m ≤ 2 ^ 96 - 1 ∧
      exec (.ftod rd) s = .next { s with
        d := s.d.set rd (mkdec (decide (s.arg.toNat / 2 ^ 31 = 1)) m (min sint sfit)), code := 0 })

/-- DTOF: the nearest binary32 to the exact rational, ties to the even significand, always a normal number or a zero, with the
operand's sign; a malformed operand is code 4 (45_convert.md sections 1 and 3; the spec marks the binary32 layout and its
rounding as general knowledge, log 10). -/
def Obligations.DecimalToFloat : Prop :=
  ∀ (s : State) (ra : DSel) (q : ℚ), q = (mant (s.d.get ra) : ℚ) / 10 ^ scale (s.d.get ra) →
    EncodedAs (.dtof ra) (0x33000000 + ra.val * 2 ^ 16) ∧
    (valid (s.d.get ra) = false → exec (.dtof ra) s = .next { s with code := 4 }) ∧
    (valid (s.d.get ra) = true → ∃ r : Word, exec (.dtof ra) s = .next { s with res := r, code := 0 } ∧
      (r.toNat / 2 ^ 31 = 1 ↔ sign (s.d.get ra) = true) ∧
      (q = 0 → r.toNat % 2 ^ 31 = 0) ∧
      (q ≠ 0 → ∃ (e : ℤ) (m : ℕ), (2 : ℚ) ^ e ≤ q ∧ q < (2 : ℚ) ^ (e + 1) ∧ -94 ≤ e ∧ e ≤ 95 ∧
        IsNearestEven (q / (2 : ℚ) ^ (e - 23)) m ∧ 2 ^ 23 ≤ m ∧ m ≤ 2 ^ 24 ∧
        ((r.toNat % 2 ^ 31 : ℕ) : ℤ) =
          (if m = 2 ^ 24 then (e + 1 + 127) * 2 ^ 23 else (e + 127) * 2 ^ 23 + ((m : ℤ) - 2 ^ 23))))

/-- A binary32 that FTOD converts exactly comes back from DTOF bit for bit (45_convert.md section 3: where `sint <= sfit` the
conversion is exact, and DTOF rounds the exact value once; the binary32 layout is log 10). -/
def Obligations.ExactFloatRoundTrip : Prop :=
  ∀ (s t : State) (rd : DSel), exec (.ftod rd) s = .next t → t.code = 0 →
    |val (t.d.get rd)| = binary32Mag s.arg → exec (.dtof rd) t = .next { t with res := s.arg, code := 0 }

/-! ## Rounding (46_round.md) -/

/-- TRUNC and FLOOR: at scale 0 with the operand's sign bit; the value is the integral part toward zero, or the greatest integer
not above the operand (46_round.md R171, R172). -/
def Obligations.TruncAndFloor : Prop :=
  ∀ (s : State) (rd ra : DSel),
    EncodedAs (.trunc rd ra) (0x38000000 + rd.val * 2 ^ 20 + ra.val * 2 ^ 16) ∧
    EncodedAs (.floor rd ra) (0x39000000 + rd.val * 2 ^ 20 + ra.val * 2 ^ 16) ∧
    (valid (s.d.get ra) = false →
      exec (.trunc rd ra) s = .next { s with code := 4 } ∧ exec (.floor rd ra) s = .next { s with code := 4 }) ∧
    (valid (s.d.get ra) = true → ∃ x y : Dec,
      exec (.trunc rd ra) s = .next { s with d := s.d.set rd x, code := 0 } ∧ valid x = true ∧ scale x = 0 ∧
      sign x = sign (s.d.get ra) ∧ mant x = ⌊|val (s.d.get ra)|⌋.natAbs ∧
      exec (.floor rd ra) s = .next { s with d := s.d.set rd y, code := 0 } ∧ valid y = true ∧ scale y = 0 ∧
      sign y = sign (s.d.get ra) ∧ val y = ⌊val (s.d.get ra)⌋)

/-- ROUND and ROUNDP: the nearest multiple of 1, or of 10^-p, ties to even, with the operand's sign; the scale is never raised;
a place count above 28 is code 5; at zero places ROUNDP is ROUND (46_round.md R173, R174). -/
def Obligations.RoundAndRoundp : Prop :=
  ∀ (s : State) (rd ra : DSel) (p : Fin 32),
    EncodedAs (.round rd ra) (0x3A000000 + rd.val * 2 ^ 20 + ra.val * 2 ^ 16) ∧
    EncodedAs (.roundp rd ra p) (0x3B000000 + rd.val * 2 ^ 20 + ra.val * 2 ^ 16 + p.val) ∧
    (28 < p.val → exec (.roundp rd ra p) s = .next { s with code := 5 }) ∧
    (valid (s.d.get ra) = false → exec (.round rd ra) s = .next { s with code := 4 }) ∧
    (p.val ≤ 28 → valid (s.d.get ra) = false → exec (.roundp rd ra p) s = .next { s with code := 4 }) ∧
    (valid (s.d.get ra) = true → ∃ m : ℕ,
      IsNearestEven ((mant (s.d.get ra) : ℚ) / 10 ^ scale (s.d.get ra)) m ∧ m < 2 ^ 96 ∧
      exec (.round rd ra) s = .next { s with d := s.d.set rd (mkdec (sign (s.d.get ra)) m 0), code := 0 }) ∧
    (p.val ≤ 28 → valid (s.d.get ra) = true → scale (s.d.get ra) ≤ p.val →
      exec (.roundp rd ra p) s = .next { s with d := s.d.set rd (s.d.get ra), code := 0 }) ∧
    (p.val ≤ 28 → valid (s.d.get ra) = true → p.val < scale (s.d.get ra) → ∃ m : ℕ,
      IsNearestEven ((mant (s.d.get ra) : ℚ) / 10 ^ (scale (s.d.get ra) - p.val)) m ∧ m < 2 ^ 96 ∧
      exec (.roundp rd ra p) s = .next { s with d := s.d.set rd (mkdec (sign (s.d.get ra)) m p.val), code := 0 }) ∧
    exec (.roundp rd ra 0) s = exec (.round rd ra) s
end

