-- ==== Sys2Proof/Laws/State.lean ====
section
/-! SUPPORT. What each update of the state does to each field, once, so that no later proof unfolds a record update. -/

namespace Sys2Proof.Machine

/-! ## `D[r] <- x` -/

@[simp] theorem writeD_d (s : State) (r : DSel) (x : Dec) : (s.writeD r x).d = s.d.set r x := rfl
@[simp] theorem writeD_b (s : State) (r : DSel) (x : Dec) : (s.writeD r x).b = s.b := rfl
@[simp] theorem writeD_code (s : State) (r : DSel) (x : Dec) : (s.writeD r x).code = s.code := rfl
@[simp] theorem writeD_arg (s : State) (r : DSel) (x : Dec) : (s.writeD r x).arg = s.arg := rfl
@[simp] theorem writeD_res (s : State) (r : DSel) (x : Dec) : (s.writeD r x).res = s.res := rfl
@[simp] theorem writeD_pending (s : State) (r : DSel) (x : Dec) : (s.writeD r x).pending = s.pending := rfl
@[simp] theorem writeD_returned (s : State) (r : DSel) (x : Dec) : (s.writeD r x).returned = s.returned := rfl

/-! ## `B[r] <- x` -/

@[simp] theorem writeB_d (s : State) (r : BSel) (x : Wide) : (s.writeB r x).d = s.d := rfl
@[simp] theorem writeB_b (s : State) (r : BSel) (x : Wide) : (s.writeB r x).b = s.b.set r x := rfl
@[simp] theorem writeB_code (s : State) (r : BSel) (x : Wide) : (s.writeB r x).code = s.code := rfl
@[simp] theorem writeB_arg (s : State) (r : BSel) (x : Wide) : (s.writeB r x).arg = s.arg := rfl
@[simp] theorem writeB_res (s : State) (r : BSel) (x : Wide) : (s.writeB r x).res = s.res := rfl
@[simp] theorem writeB_pending (s : State) (r : BSel) (x : Wide) : (s.writeB r x).pending = s.pending := rfl
@[simp] theorem writeB_returned (s : State) (r : BSel) (x : Wide) : (s.writeB r x).returned = s.returned := rfl

/-! ## `RES <- v` -/

@[simp] theorem writeRes_d (s : State) (v : Word) : (s.writeRes v).d = s.d := rfl
@[simp] theorem writeRes_b (s : State) (v : Word) : (s.writeRes v).b = s.b := rfl
@[simp] theorem writeRes_code (s : State) (v : Word) : (s.writeRes v).code = s.code := rfl
@[simp] theorem writeRes_arg (s : State) (v : Word) : (s.writeRes v).arg = s.arg := rfl
@[simp] theorem writeRes_res (s : State) (v : Word) : (s.writeRes v).res = v := rfl
@[simp] theorem writeRes_pending (s : State) (v : Word) : (s.writeRes v).pending = s.pending := rfl
@[simp] theorem writeRes_returned (s : State) (v : Word) : (s.writeRes v).returned = s.returned := rfl

/-! ## A host read -/

@[simp] theorem serveRead_d (s : State) (a : BitVec 8) : (serveRead s a).d = s.d := rfl
@[simp] theorem serveRead_b (s : State) (a : BitVec 8) : (serveRead s a).b = s.b := rfl
@[simp] theorem serveRead_code (s : State) (a : BitVec 8) : (serveRead s a).code = s.code := rfl
@[simp] theorem serveRead_arg (s : State) (a : BitVec 8) : (serveRead s a).arg = s.arg := rfl
@[simp] theorem serveRead_res (s : State) (a : BitVec 8) : (serveRead s a).res = s.res := rfl
@[simp] theorem serveRead_pending (s : State) (a : BitVec 8) : (serveRead s a).pending = s.pending := rfl
@[simp] theorem serveRead_returned (s : State) (a : BitVec 8) :
    (serveRead s a).returned = winRead s a :: s.returned := rfl

/-! ## Reset as an event -/

@[simp] theorem serveReset_d (s : State) : (serveReset s).d = State.reset.d := rfl
@[simp] theorem serveReset_b (s : State) : (serveReset s).b = State.reset.b := rfl
@[simp] theorem serveReset_code (s : State) : (serveReset s).code = 0 := rfl
@[simp] theorem serveReset_arg (s : State) : (serveReset s).arg = 0 := rfl
@[simp] theorem serveReset_res (s : State) : (serveReset s).res = 0 := rfl
@[simp] theorem serveReset_pending (s : State) : (serveReset s).pending = s.pending := rfl
@[simp] theorem serveReset_returned (s : State) : (serveReset s).returned = s.returned := rfl

/-! ## Reads after writes -/

/-- A vector read after a write at a selector. -/
theorem get_set {α : Type} {n : Nat} (v : Vector α n) (i j : Fin n) (x : α) :
    (v.set i x).get j = if i = j then x else v.get j := by
  simp [Vector.get_eq_getElem, Vector.getElem_set, Fin.ext_iff]

@[simp] theorem readD_writeD_same (s : State) (r : DSel) (x : Dec) : (s.writeD r x).readD r = x := by
  simp [State.readD, get_set]

theorem readD_writeD_other (s : State) {r r' : DSel} (x : Dec) (h : r ≠ r') :
    (s.writeD r x).readD r' = s.readD r' := by
  simp [State.readD, get_set, h]

@[simp] theorem readB_writeB_same (s : State) (r : BSel) (x : Wide) : (s.writeB r x).readB r = x := by
  simp [State.readB, get_set]

theorem readB_writeB_other (s : State) {r r' : BSel} (x : Wide) (h : r ≠ r') :
    (s.writeB r x).readB r' = s.readB r' := by
  simp [State.readB, get_set, h]

@[simp] theorem readD_reset (r : DSel) : State.reset.readD r = 0 := by
  simp [State.readD, State.reset, Vector.get_eq_getElem]

@[simp] theorem readB_reset (r : BSel) : State.reset.readB r = ⟨0, 0, false⟩ := by
  simp [State.readB, State.reset, Vector.get_eq_getElem]

/-! ## What the endings answer -/

@[simp] theorem fail_eq (s : State) (c : StatusCode) : s.fail c = .next { s with code := c.number } := rfl

@[simp] theorem ok_eq (s : State) : s.ok = .next { s with code := 0 } := rfl

end Sys2Proof.Machine
end

