-- ==== Sys2Proof/Laws/Operands.lean ====
section
/-! SUPPORT. What each operand form can answer, once: a proof about a command cites these instead of unfolding the form. -/

namespace Sys2Proof.Machine

theorem readD_eq (s : State) (r : DSel) : s.readD r = s.d.get r := rfl

theorem readB_eq (s : State) (r : BSel) : s.readB r = s.b.get r := rfl

theorem withDec_valid {s : State} {ra : DSel} {k : Dec → StepResult} (h : valid (s.d.get ra) = true) :
    withDec s ra k = k (s.d.get ra) := by
  simp [withDec, State.readD, h]

theorem withDec_malformed {s : State} {ra : DSel} {k : Dec → StepResult} (h : valid (s.d.get ra) = false) :
    withDec s ra k = .next { s with code := 4 } := by
  simp [withDec, State.readD, h, StatusCode.number]

theorem withDecs_valid {s : State} {ra rb : DSel} {k : Dec → Dec → StepResult}
    (ha : valid (s.d.get ra) = true) (hb : valid (s.d.get rb) = true) :
    withDecs s ra rb k = k (s.d.get ra) (s.d.get rb) := by
  simp [withDecs, State.readD, ha, hb]

theorem withDecs_malformed {s : State} {ra rb : DSel} {k : Dec → Dec → StepResult}
    (h : (valid (s.d.get ra) && valid (s.d.get rb)) = false) :
    withDecs s ra rb k = .next { s with code := 4 } := by
  simp [withDecs, State.readD, h, StatusCode.number]

/-- Everything a one-source form can answer. -/
theorem withDec_cases (s : State) (ra : DSel) (k : Dec → StepResult) :
    (valid (s.d.get ra) = true ∧ withDec s ra k = k (s.d.get ra)) ∨
      (valid (s.d.get ra) = false ∧ withDec s ra k = .next { s with code := 4 }) := by
  cases h : valid (s.d.get ra)
  · exact .inr ⟨rfl, withDec_malformed h⟩
  · exact .inl ⟨rfl, withDec_valid h⟩

/-- Everything a two-source form can answer. -/
theorem withDecs_cases (s : State) (ra rb : DSel) (k : Dec → Dec → StepResult) :
    (valid (s.d.get ra) = true ∧ valid (s.d.get rb) = true ∧
        withDecs s ra rb k = k (s.d.get ra) (s.d.get rb)) ∨
      ((valid (s.d.get ra) && valid (s.d.get rb)) = false ∧ withDecs s ra rb k = .next { s with code := 4 }) := by
  cases h : valid (s.d.get ra) && valid (s.d.get rb)
  · exact .inr ⟨rfl, withDecs_malformed h⟩
  · rw [Bool.and_eq_true] at h
    exact .inl ⟨h.1, h.2, withDecs_valid h.1 h.2⟩

@[simp] theorem putD_eq (s : State) (rd : DSel) (x : Dec) :
    putD s rd x = .next { s with d := s.d.set rd x, code := 0 } := rfl

@[simp] theorem putB_eq (s : State) (rd : BSel) (x : Wide) :
    putB s rd x = .next { s with b := s.b.set rd x, code := 0 } := rfl

@[simp] theorem putRes_eq (s : State) (v : Word) : putRes s v = .next { s with res := v, code := 0 } := rfl

@[simp] theorem putResult_ok (s : State) (rd : DSel) (x : Dec) :
    putResult s rd (.ok x) = .next { s with d := s.d.set rd x, code := 0 } := rfl

@[simp] theorem putResult_error (s : State) (rd : DSel) (c : StatusCode) :
    putResult s rd (.error c) = .next { s with code := c.number } := rfl

end Sys2Proof.Machine
end

