-- ==== Sys2Proof/Laws/Ops.lean ====
section
/-! SUPPORT. What each shared operation of `Machine/Ops.lean` does, once: fields, decimals, searches, rounding, `Narrow`. -/

namespace Sys2Proof.Machine

/-! ## Fields -/

/-- A field write, bit by bit. -/
theorem getLsbD_writeField {n w : Nat} (x : BitVec n) (lo : Nat) (v : BitVec w) (k : Nat) (hk : k < n) :
    (writeField x lo v).getLsbD k = if lo ≤ k ∧ k < lo + w then v.getLsbD (k - lo) else x.getLsbD k := by
  simp only [writeField, BitVec.getLsbD_or, BitVec.getLsbD_and, BitVec.getLsbD_not, BitVec.getLsbD_shiftLeft,
    BitVec.getLsbD_setWidth, BitVec.getLsbD_allOnes]
  by_cases h1 : lo ≤ k
  · by_cases h2 : k < lo + w
    · have : k - lo < n := by omega
      have : k - lo < w := by omega
      have : ¬ k < lo := by omega
      simp [*]
    · have : ¬ k - lo < w := by omega
      have h4 : v.getLsbD (k - lo) = false := BitVec.getLsbD_of_ge _ _ (by omega)
      simp [*]
  · have : k < lo := by omega
    simp [*]

/-- A word of a decimal, bit by bit. -/
theorem getLsbD_wordOf (d : Dec) (w : Fin 4) (i : Nat) (hi : i < 32) :
    (wordOf d w).getLsbD i = d.getLsbD (32 * w.val + i) := by
  simp [wordOf, hi]

/-- A word write, bit by bit. -/
theorem getLsbD_setWord (d : Dec) (w : Fin 4) (v : Word) (k : Nat) (hk : k < 128) :
    (setWord d w v).getLsbD k = if k / 32 = w.val then v.getLsbD (k % 32) else d.getLsbD k := by
  rw [setWord, getLsbD_writeField _ _ _ _ hk]
  by_cases h : k / 32 = w.val
  · have h' : 32 * w.val ≤ k ∧ k < 32 * w.val + 32 := by omega
    rw [if_pos h', if_pos h]
    congr 1
    omega
  · have h' : ¬ (32 * w.val ≤ k ∧ k < 32 * w.val + 32) := by omega
    rw [if_neg h', if_neg h]

@[simp] theorem wordOf_setWord_same (d : Dec) (w : Fin 4) (v : Word) : wordOf (setWord d w v) w = v := by
  apply BitVec.eq_of_getLsbD_eq
  intro i hi
  have h : (32 * w.val + i) / 32 = w.val := by omega
  have h' : (32 * w.val + i) % 32 = i := by omega
  rw [getLsbD_wordOf _ _ _ hi, getLsbD_setWord _ _ _ _ (by omega), if_pos h, h']

theorem wordOf_setWord_other (d : Dec) {w w' : Fin 4} (v : Word) (h : w ≠ w') :
    wordOf (setWord d w v) w' = wordOf d w' := by
  apply BitVec.eq_of_getLsbD_eq
  intro i hi
  have hne : w.val ≠ w'.val := fun e => h (Fin.ext e)
  have h' : ¬ (32 * w'.val + i) / 32 = w.val := by omega
  rw [getLsbD_wordOf _ _ _ hi, getLsbD_setWord _ _ _ _ (by omega), if_neg h', getLsbD_wordOf _ _ _ hi]

/-- A magnitude word, bit by bit. -/
theorem getLsbD_magWord (m : Mag) (j : Fin 8) (i : Nat) (hi : i < 32) :
    (magWord m j).getLsbD i = m.getLsbD (32 * j.val + i) := by
  simp [magWord, hi]

/-- A magnitude word write, bit by bit. -/
theorem getLsbD_setMagWord (m : Mag) (j : Fin 8) (v : Word) (k : Nat) (hk : k < 256) :
    (setMagWord m j v).getLsbD k = if k / 32 = j.val then v.getLsbD (k % 32) else m.getLsbD k := by
  rw [setMagWord, getLsbD_writeField _ _ _ _ hk]
  by_cases h : k / 32 = j.val
  · have h' : 32 * j.val ≤ k ∧ k < 32 * j.val + 32 := by omega
    rw [if_pos h', if_pos h]
    congr 1
    omega
  · have h' : ¬ (32 * j.val ≤ k ∧ k < 32 * j.val + 32) := by omega
    rw [if_neg h', if_neg h]

@[simp] theorem magWord_setMagWord_same (m : Mag) (j : Fin 8) (v : Word) : magWord (setMagWord m j v) j = v := by
  apply BitVec.eq_of_getLsbD_eq
  intro i hi
  have h : (32 * j.val + i) / 32 = j.val := by omega
  have h' : (32 * j.val + i) % 32 = i := by omega
  rw [getLsbD_magWord _ _ _ hi, getLsbD_setMagWord _ _ _ _ (by omega), if_pos h, h']

theorem magWord_setMagWord_other (m : Mag) {j j' : Fin 8} (v : Word) (h : j ≠ j') :
    magWord (setMagWord m j v) j' = magWord m j' := by
  apply BitVec.eq_of_getLsbD_eq
  intro i hi
  have hne : j.val ≠ j'.val := fun e => h (Fin.ext e)
  have h' : ¬ (32 * j'.val + i) / 32 = j.val := by omega
  rw [getLsbD_magWord _ _ _ hi, getLsbD_setMagWord _ _ _ _ (by omega), if_neg h', getLsbD_magWord _ _ _ hi]

/-! ## Decimals: the accessors as numbers, and `mkdec` (10_state.md R23, R24, R26) -/

theorem mant_eq (d : Dec) : mant d = d.toNat % 2 ^ 96 := by
  simp [mant]

theorem scale_eq (d : Dec) : scale d = d.toNat / 2 ^ 112 % 256 := by
  simp [scale, scaleField, wordOf, Nat.shiftRight_eq_div_pow]
  omega

theorem sign_eq (d : Dec) : sign d = d.getLsbD 127 := by
  rw [sign, getLsbD_wordOf _ _ _ (by omega)]
  rfl

theorem mant_lt (d : Dec) : mant d < 2 ^ 96 := by
  rw [mant_eq]; omega

theorem mant_le (d : Dec) : mant d ≤ Config.maxMant := by
  have := mant_lt d
  simp only [Config.maxMant]; omega

theorem scale_lt (d : Dec) : scale d < 256 := by
  rw [scale_eq]; omega

/-- The sign as the top bit of the number. -/
theorem sign_toNat (d : Dec) : (sign d).toNat = d.toNat / 2 ^ 127 := by
  have h := d.isLt
  rw [sign_eq, BitVec.getLsbD, Nat.testBit, Nat.shiftRight_eq_div_pow]
  have h2 : d.toNat / 2 ^ 127 < 2 := by omega
  generalize d.toNat / 2 ^ 127 = q at h2
  have h3 : q = 0 ∨ q = 1 := by omega
  rcases h3 with rfl | rfl <;> rfl

/-- `Valid` as arithmetic on the 128-bit number (10_state.md R24). -/
theorem valid_iff (d : Dec) :
    valid d = true ↔ d.toNat / 2 ^ 96 % 2 ^ 16 = 0 ∧ d.toNat / 2 ^ 120 % 2 ^ 7 = 0 ∧ scale d ≤ 28 := by
  simp only [valid, Bool.and_eq_true, decide_eq_true_eq, wordOf, BitVec.toNat_eq, BitVec.extractLsb'_toNat,
    Nat.shiftRight_eq_div_pow, Config.maxScale, and_assoc]
  refine and_congr ?_ (and_congr ?_ Iff.rfl)
  · simp
  · simp
    omega

theorem scale_le {d : Dec} (h : valid d = true) : scale d ≤ 28 := ((valid_iff d).mp h).2.2

/-- A well-formed decimal is its sign, scale and mantissa (10_state.md R21). -/
theorem toNat_of_valid {d : Dec} (h : valid d = true) :
    d.toNat = (sign d).toNat * 2 ^ 127 + scale d * 2 ^ 112 + mant d := by
  obtain ⟨h1, h2, -⟩ := (valid_iff d).mp h
  have hd := d.isLt
  rw [sign_toNat, scale_eq, mant_eq]
  omega

/-- Two well-formed decimals with the same sign, scale and mantissa are one. -/
theorem dec_ext {x y : Dec} (hx : valid x = true) (hy : valid y = true) (hs : sign x = sign y)
    (hc : scale x = scale y) (hm : mant x = mant y) : x = y := by
  apply BitVec.eq_of_toNat_eq
  rw [toNat_of_valid hx, toNat_of_valid hy, hs, hc, hm]

theorem toNat_append' {n m : Nat} (x : BitVec n) (y : BitVec m) : (x ++ y).toNat = x.toNat * 2 ^ m + y.toNat := by
  rw [BitVec.toNat_append, ← Nat.shiftLeft_add_eq_or_of_lt y.isLt, Nat.shiftLeft_eq]

theorem toNat_packWords (w3 w2 w1 w0 : Word) :
    (packWords w3 w2 w1 w0).toNat = w3.toNat * 2 ^ 96 + w2.toNat * 2 ^ 64 + w1.toNat * 2 ^ 32 + w0.toNat := by
  simp only [packWords, toNat_append']
  omega

/-- `mkdec` as a number (10_state.md R26). -/
theorem toNat_mkdec (s : Bool) {m c : Nat} (hm : m < 2 ^ 96) (hc : c ≤ 28) :
    (mkdec s m c).toNat = s.toNat * 2 ^ 127 + c * 2 ^ 112 + m := by
  have hs : s.toNat ≤ 1 := by cases s <;> simp
  simp only [mkdec, toNat_packWords, BitVec.toNat_ofNat]
  omega

@[simp] theorem mant_mkdec (s : Bool) {m c : Nat} (hm : m < 2 ^ 96) (hc : c ≤ 28) : mant (mkdec s m c) = m := by
  rw [mant_eq, toNat_mkdec s hm hc]
  cases s <;> simp <;> omega

@[simp] theorem scale_mkdec (s : Bool) {m c : Nat} (hm : m < 2 ^ 96) (hc : c ≤ 28) : scale (mkdec s m c) = c := by
  rw [scale_eq, toNat_mkdec s hm hc]
  cases s <;> simp <;> omega

@[simp] theorem sign_mkdec (s : Bool) {m c : Nat} (hm : m < 2 ^ 96) (hc : c ≤ 28) : sign (mkdec s m c) = s := by
  have h := sign_toNat (mkdec s m c)
  rw [toNat_mkdec s hm hc] at h
  have h' : (s.toNat * 2 ^ 127 + c * 2 ^ 112 + m) / 2 ^ 127 = s.toNat := by
    cases s <;> simp <;> omega
  rw [h'] at h
  cases s <;> cases hs : sign (mkdec _ m c) <;> simp_all

@[simp] theorem valid_mkdec (s : Bool) {m c : Nat} (hm : m < 2 ^ 96) (hc : c ≤ 28) : valid (mkdec s m c) = true := by
  rw [valid_iff, scale_mkdec s hm hc, toNat_mkdec s hm hc]
  cases s <;> simp <;> omega

/-- Unpacking and packing a well-formed decimal gives it back (10_state.md R26). -/
theorem mkdec_of_valid {d : Dec} (h : valid d = true) : mkdec (sign d) (mant d) (scale d) = d := by
  have hc := scale_le h
  have hm := mant_lt d
  exact dec_ext (valid_mkdec _ hm hc) h (sign_mkdec _ hm hc) (scale_mkdec _ hm hc) (mant_mkdec _ hm hc)

/-! ## Inverting the sign (43_arith.md R137) -/

theorem getLsbD_flipSign (d : Dec) (k : Nat) (hk : k < 128) :
    (flipSign d).getLsbD k = if k = 127 then !d.getLsbD k else d.getLsbD k := by
  simp only [flipSign, BitVec.getLsbD_xor, BitVec.getLsbD_shiftLeft, BitVec.getLsbD_one]
  by_cases h : k = 127
  · subst h; simp
  · have h' : k < 127 := by omega
    simp [h, h']

@[simp] theorem sign_flipSign (d : Dec) : sign (flipSign d) = !sign d := by
  rw [sign_eq, sign_eq, getLsbD_flipSign _ _ (by omega), if_pos rfl]

/-- The number below bit 127 does not see the sign inverted. -/
theorem toNat_flipSign_low (d : Dec) : (flipSign d).toNat % 2 ^ 127 = d.toNat % 2 ^ 127 := by
  apply Nat.eq_of_testBit_eq
  intro k
  rw [Nat.testBit_mod_two_pow, Nat.testBit_mod_two_pow]
  by_cases h : k < 127
  · have h1 := getLsbD_flipSign d k (by omega)
    rw [if_neg (by omega)] at h1
    simpa [h, BitVec.getLsbD] using h1
  · simp [h]

@[simp] theorem mant_flipSign (d : Dec) : mant (flipSign d) = mant d := by
  have h := toNat_flipSign_low d
  rw [mant_eq, mant_eq]; omega

@[simp] theorem scale_flipSign (d : Dec) : scale (flipSign d) = scale d := by
  have h := toNat_flipSign_low d
  rw [scale_eq, scale_eq]; omega

@[simp] theorem valid_flipSign (d : Dec) : valid (flipSign d) = valid d := by
  have h := toNat_flipSign_low d
  rw [Bool.eq_iff_iff, valid_iff, valid_iff, scale_flipSign]
  have h1 : (flipSign d).toNat / 2 ^ 96 % 2 ^ 16 = d.toNat / 2 ^ 96 % 2 ^ 16 := by omega
  have h2 : (flipSign d).toNat / 2 ^ 120 % 2 ^ 7 = d.toNat / 2 ^ 120 % 2 ^ 7 := by omega
  rw [h1, h2]

/-! ## Searches -/

/-- Everything `leastFrom` can answer: it stays in its range, nothing before it satisfies the test, and it satisfies the test
unless it is the end of the range. -/
theorem leastFrom_spec (p : Nat → Bool) (fuel k : Nat) :
    k ≤ leastFrom p fuel k ∧ leastFrom p fuel k ≤ k + fuel ∧
      (∀ j, k ≤ j → j < leastFrom p fuel k → p j = false) ∧
      (p (leastFrom p fuel k) = true ∨ leastFrom p fuel k = k + fuel) := by
  induction fuel generalizing k with
  | zero => exact ⟨Nat.le_refl _, Nat.le_refl _, fun j h1 h2 => absurd h2 (by simp only [leastFrom]; omega), .inr rfl⟩
  | succ n ih =>
    rw [leastFrom]
    by_cases hp : p k = true
    · rw [if_pos hp]
      exact ⟨Nat.le_refl _, by omega, fun j h1 h2 => absurd h2 (by omega), .inl hp⟩
    · rw [if_neg hp]
      obtain ⟨h1, h2, h3, h4⟩ := ih (k + 1)
      refine ⟨by omega, by omega, fun j hj hj' => ?_, h4.imp id (by omega)⟩
      rcases Nat.eq_or_lt_of_le hj with rfl | hj
      · simpa using hp
      · exact h3 j hj hj'

/-- The least element of a range that satisfies the test is what `leastFrom` finds. -/
theorem leastFrom_eq {p : Nat → Bool} {fuel k j : Nat} (h1 : k ≤ j) (h2 : j ≤ k + fuel)
    (h3 : p j = true ∨ j = k + fuel) (h4 : ∀ i, k ≤ i → i < j → p i = false) : leastFrom p fuel k = j := by
  obtain ⟨g1, g2, g3, g4⟩ := leastFrom_spec p fuel k
  rcases Nat.lt_trichotomy (leastFrom p fuel k) j with h | h | h
  · rcases g4 with g4 | g4
    · rw [h4 _ g1 h] at g4; cases g4
    · omega
  · exact h
  · rcases h3 with h3 | h3
    · rw [g3 _ h1 h] at h3; cases h3
    · omega

/-- Everything `greatestUpTo` can answer. -/
theorem greatestUpTo_spec (p : Nat → Bool) (k : Nat) :
    greatestUpTo p k ≤ k ∧ (∀ j, greatestUpTo p k < j → j ≤ k → p j = false) ∧
      (p (greatestUpTo p k) = true ∨ greatestUpTo p k = 0) := by
  induction k with
  | zero => exact ⟨Nat.le_refl _, fun j h1 h2 => absurd h1 (by omega), .inr rfl⟩
  | succ n ih =>
    rw [greatestUpTo]
    by_cases hp : p (n + 1) = true
    · rw [if_pos hp]
      exact ⟨Nat.le_refl _, fun j h1 h2 => absurd h1 (by omega), .inl hp⟩
    · rw [if_neg hp]
      obtain ⟨h1, h2, h3⟩ := ih
      refine ⟨by omega, fun j hj hj' => ?_, h3⟩
      rcases Nat.eq_or_lt_of_le hj' with rfl | hj'
      · simpa using hp
      · exact h2 j hj (by omega)

/-! ## Rounding (00_scope.md R7) -/

/-- `rneDiv` is the floor, or the floor and one, on either side of one half. -/
theorem rneDiv_cases (n d : Nat) :
    (2 * (n % d) < d ∧ rneDiv n d = n / d) ∨ (d < 2 * (n % d) ∧ rneDiv n d = n / d + 1) ∨
      (2 * (n % d) = d ∧ n / d % 2 = 0 ∧ rneDiv n d = n / d) ∨
      (2 * (n % d) = d ∧ n / d % 2 = 1 ∧ rneDiv n d = n / d + 1) := by
  rw [rneDiv]
  split
  · exact .inl ⟨‹_›, rfl⟩
  · split
    · exact .inr (.inl ⟨‹_›, rfl⟩)
    · split
      · exact .inr (.inr (.inl ⟨by omega, ‹_›, rfl⟩))
      · exact .inr (.inr (.inr ⟨by omega, by omega, rfl⟩))

/-- Twice the distance of `rneDiv` from the exact quotient is at most the divisor. -/
theorem rneDiv_bounds (n : Nat) {d : Nat} (hd : 0 < d) :
    2 * (d * rneDiv n d) ≤ 2 * n + d ∧ 2 * n ≤ 2 * (d * rneDiv n d) + d := by
  have h := Nat.div_add_mod n d
  have hlt := Nat.mod_lt n hd
  have hs : d * (n / d + 1) = d * (n / d) + d := Nat.mul_succ _ _
  rcases rneDiv_cases n d with ⟨h1, h2⟩ | ⟨h1, h2⟩ | ⟨h1, -, h2⟩ | ⟨h1, -, h2⟩ <;> rw [h2] <;> omega

/-- An exact quotient is not changed by rounding. -/
@[simp] theorem rneDiv_mul (q : Nat) {d : Nat} (hd : 0 < d) : rneDiv (q * d) d = q := by
  rw [rneDiv, Nat.mul_mod_left, Nat.mul_div_cancel _ hd, if_pos (by omega)]

@[simp] theorem rneDiv_one (n : Nat) : rneDiv n 1 = n := by
  simpa using rneDiv_mul n (d := 1) (by omega)

@[simp] theorem dropDigits_zero (M : Nat) : dropDigits M 0 = M := by
  simp [dropDigits]

theorem rneDiv_le (n d : Nat) : rneDiv n d ≤ n / d + 1 := by
  rcases rneDiv_cases n d with h | h | h | h <;> omega

/-- Rounding a quotient by more than one never exceeds the dividend (46_round.md R174). -/
theorem rneDiv_le_self (n : Nat) {d : Nat} (hd : 0 < d) : rneDiv n d ≤ n := by
  rcases Nat.eq_or_lt_of_le (show 1 ≤ d from hd) with rfl | h1
  · simp
  · rcases Nat.eq_zero_or_pos n with rfl | hn
    · rw [rneDiv, Nat.zero_mod, Nat.zero_div, if_pos (by omega)]
    · have h := rneDiv_le n d
      have h2 : n / d < n := Nat.div_lt_self hn h1
      omega

theorem dropDigits_le (M k : Nat) : dropDigits M k ≤ M := rneDiv_le_self M (Nat.pow_pos (by omega))

/-! ## Narrowing (41_wide.md R118) -/

theorem fitsDropping_iff (M k : Nat) : fitsDropping M k = true ↔ dropDigits M k < 2 ^ 96 := by
  simp only [fitsDropping, decide_eq_true_eq, Config.maxMant]
  omega

/-- What `k` of `Narrow` is, when a `k` exists: the least in its range that fits. -/
theorem digitsToDrop_spec {M c : Nat} (h : fitsDropping M c = true) :
    c - 28 ≤ digitsToDrop M c ∧ digitsToDrop M c ≤ c ∧ fitsDropping M (digitsToDrop M c) = true ∧
      ∀ j, c - 28 ≤ j → j < digitsToDrop M c → fitsDropping M j = false := by
  have hs := leastFrom_spec (fitsDropping M) (c - (c - Config.maxScale)) (c - Config.maxScale)
  rw [← digitsToDrop] at hs
  simp only [Config.maxScale] at hs
  obtain ⟨h1, h2, h3, h4⟩ := hs
  refine ⟨h1, by omega, ?_, h3⟩
  rcases h4 with h4 | h4
  · exact h4
  · rw [h4, show c - 28 + (c - (c - 28)) = c by omega]
    exact h

/-- Everything `Narrow` can answer. -/
theorem narrow_cases (s : Bool) (M c : Nat) :
    (fitsDropping M c = false ∧ narrow s M c = .error .tooBig) ∨
      (fitsDropping M c = true ∧ dropDigits M (digitsToDrop M c) = 0 ∧ 0 < M ∧ narrow s M c = .error .tooSmall) ∨
      (fitsDropping M c = true ∧ (dropDigits M (digitsToDrop M c) ≠ 0 ∨ M = 0) ∧
        dropDigits M (digitsToDrop M c) < 2 ^ 96 ∧ c - digitsToDrop M c ≤ 28 ∧
        narrow s M c = .ok (mkdec s (dropDigits M (digitsToDrop M c)) (c - digitsToDrop M c))) := by
  rw [narrow]
  cases h : fitsDropping M c
  · exact .inl ⟨rfl, by simp⟩
  · obtain ⟨h1, h2, h3, -⟩ := digitsToDrop_spec h
    by_cases h0 : dropDigits M (digitsToDrop M c) = 0 ∧ 0 < M
    · exact .inr (.inl ⟨rfl, h0.1, h0.2, by simp [h0]⟩)
    · refine .inr (.inr ⟨rfl, by omega, (fitsDropping_iff _ _).mp h3, by omega, ?_⟩)
      rw [if_pos rfl, if_neg h0]

/-- A result of `Narrow` is well-formed and keeps the sign it is given. -/
theorem narrow_ok {s : Bool} {M c : Nat} {x : Dec} (h : narrow s M c = .ok x) :
    valid x = true ∧ sign x = s ∧ mant x = dropDigits M (digitsToDrop M c) ∧ scale x = c - digitsToDrop M c ∧
      fitsDropping M c = true := by
  rcases narrow_cases s M c with ⟨-, h1⟩ | ⟨-, -, -, h1⟩ | ⟨hf, -, hm, hc, h1⟩
  · rw [h1] at h; cases h
  · rw [h1] at h; cases h
  · rw [h1] at h
    cases h
    exact ⟨valid_mkdec s hm hc, sign_mkdec s hm hc, mant_mkdec s hm hc, scale_mkdec s hm hc, hf⟩

/-- `Narrow` fails with code 1 or 2 only. -/
theorem narrow_error {s : Bool} {M c : Nat} {e : StatusCode} (h : narrow s M c = .error e) :
    e = .tooBig ∨ e = .tooSmall := by
  rcases narrow_cases s M c with ⟨-, h1⟩ | ⟨-, -, -, h1⟩ | ⟨-, -, -, -, h1⟩ <;> rw [h1] at h <;> cases h
  · exact .inl rfl
  · exact .inr rfl

end Sys2Proof.Machine
end

