-- ==== Sys2Proof/Laws/Rational.lean ====
section
/-! SUPPORT. Rounding as a fact about rationals: the integer division that the meanings use is the one nearest-even integer
of the exact quotient (00_scope.md R7), so a claim about values cites these instead of unfolding the division. -/

namespace Sys2Proof.Machine

/-- `rneDiv n d` is the nearest-even integer of the rational `n / d`. -/
theorem isNearestEven_rneDiv (n : Nat) {d : Nat} (hd : 0 < d) : IsNearestEven ((n : ℚ) / d) (rneDiv n d) := by
  have hq : (0 : ℚ) < d := by exact_mod_cast hd
  have hdm : d * (n / d) + n % d = n := Nat.div_add_mod n d
  have hm : n % d < d := Nat.mod_lt n hd
  have key : (n : ℚ) / d - (rneDiv n d : ℕ) = ((n : ℤ) - d * rneDiv n d : ℤ) / (d : ℚ) := by
    push_cast; field_simp
  generalize hz : (n : ℤ) - d * rneDiv n d = z at key
  have habs : |(n : ℚ) / d - (rneDiv n d : ℕ)| = (|z| : ℤ) / (d : ℚ) := by
    rw [key, abs_div, abs_of_pos hq, Int.cast_abs]
  have hcases := rneDiv_cases n d
  generalize n / d = k at *
  generalize n % d = r at *
  generalize rneDiv n d = m at *
  have hz' : (m = k ∧ z = r) ∨ (m = k + 1 ∧ z = r - d) := by
    have hs : (d : ℤ) * (k + 1) = d * k + d := by ring
    have hdm' : (d : ℤ) * k + r = n := by exact_mod_cast hdm
    rcases hcases with ⟨-, h⟩ | ⟨-, h⟩ | ⟨-, -, h⟩ | ⟨-, -, h⟩ <;> rw [h] at hz ⊢ <;> push_cast at hz <;> omega
  have habs' : |z| = z ∨ |z| = -z := abs_choice z
  have hnn : 0 ≤ |z| := abs_nonneg z
  constructor
  · rw [habs, div_le_div_iff₀ hq (by norm_num)]
    have : |z| * 2 ≤ 1 * (d : ℤ) := by omega
    exact_mod_cast this
  · intro h
    rw [habs, div_eq_div_iff hq.ne' (by norm_num)] at h
    have h2 : |z| * 2 = 1 * (d : ℤ) := by exact_mod_cast h
    omega

/-- There is one nearest-even integer. -/
theorem IsNearestEven.unique {q : ℚ} {m n : Nat} (hm : IsNearestEven q m) (hn : IsNearestEven q n) : m = n := by
  obtain ⟨h1, h2⟩ := hm
  obtain ⟨h3, h4⟩ := hn
  rw [abs_le] at h1 h3
  have hle : m ≤ n + 1 := by
    have : (m : ℚ) ≤ ((n + 1 : ℕ) : ℚ) := by push_cast; linarith
    exact_mod_cast this
  have hge : n ≤ m + 1 := by
    have : (n : ℚ) ≤ ((m + 1 : ℕ) : ℚ) := by push_cast; linarith
    exact_mod_cast this
  rcases Nat.lt_trichotomy m n with h | h | h
  · obtain rfl : n = m + 1 := by omega
    push_cast at h1 h3 h4
    have e1 : q - m = 1 / 2 := by linarith
    have e2 : q - (m + 1) = -(1 / 2) := by linarith
    have := h2 (by rw [e1, abs_of_pos (by norm_num)])
    have := h4 (by rw [e2, abs_neg, abs_of_pos (by norm_num)])
    omega
  · exact h
  · obtain rfl : m = n + 1 := by omega
    push_cast at h1 h3 h2
    have e1 : q - n = 1 / 2 := by linarith
    have e2 : q - (n + 1) = -(1 / 2) := by linarith
    have := h4 (by rw [e1, abs_of_pos (by norm_num)])
    have := h2 (by rw [e2, abs_neg, abs_of_pos (by norm_num)])
    omega

/-- The two ways to say that an integer is the rounded quotient. -/
theorem isNearestEven_iff {n d m : Nat} (hd : 0 < d) : IsNearestEven ((n : ℚ) / d) m ↔ m = rneDiv n d :=
  ⟨fun h => h.unique (isNearestEven_rneDiv n hd), fun h => h ▸ isNearestEven_rneDiv n hd⟩

/-- `r(k)` of `Narrow` (41_wide.md R118). -/
theorem isNearestEven_dropDigits (M k : Nat) : IsNearestEven ((M : ℚ) / 10 ^ k) (dropDigits M k) := by
  have := isNearestEven_rneDiv M (d := 10 ^ k) (Nat.pow_pos (by omega))
  rwa [Nat.cast_pow, Nat.cast_ofNat] at this

/-- A larger quotient does not round to less. -/
theorem rneDiv_mono {m n d : Nat} (hd : 0 < d) (h : m ≤ n) : rneDiv m d ≤ rneDiv n d := by
  have h1 := Nat.div_add_mod m d
  have h2 := Nat.div_add_mod n d
  have h3 := Nat.mod_lt m hd
  have h4 := Nat.mod_lt n hd
  have h5 : m / d ≤ n / d := Nat.div_le_div_right h
  rcases Nat.lt_or_ge (m / d) (n / d) with h6 | h6
  · rcases rneDiv_cases m d with g | g | g | g <;> rcases rneDiv_cases n d with g' | g' | g' | g' <;> omega
  · have h7 : m / d = n / d := by omega
    rw [h7] at h1
    rcases rneDiv_cases m d with g | g | g | g <;> rcases rneDiv_cases n d with g' | g' | g' | g' <;> omega

/-! ## Values (10_state.md R25) -/

/-- The value of a packed decimal. -/
theorem val_mkdec (s : Bool) {m c : Nat} (hm : m < 2 ^ 96) (hc : c ≤ 28) :
    val (mkdec s m c) = (if s then -1 else 1) * (m : ℚ) / 10 ^ c := by
  rw [val, sign_mkdec s hm hc, mant_mkdec s hm hc, scale_mkdec s hm hc]

/-- The magnitude of a value. -/
theorem abs_val (d : Dec) : |val d| = (mant d : ℚ) / 10 ^ scale d := by
  have h : (0 : ℚ) ≤ (mant d : ℚ) / 10 ^ scale d := by positivity
  rw [val]
  split
  · rw [neg_one_mul, neg_div, abs_neg, abs_of_nonneg h]
  · rw [one_mul, abs_of_nonneg h]

/-- A value is zero when the mantissa is. -/
theorem val_eq_zero_iff (d : Dec) : val d = 0 ↔ mant d = 0 := by
  rw [← abs_eq_zero, abs_val, div_eq_zero_iff]
  constructor
  · rintro (h | h)
    · exact_mod_cast h
    · exact absurd h (by positivity)
  · intro h; left; exact_mod_cast h

end Sys2Proof.Machine
end

