-- ==== Sys2Proof/Laws/Arith.lean ====
section
/-! SUPPORT. What the shared operations of the arithmetic unit do, once: narrowing against the exact
value, long division. -/

namespace Sys2Proof.Machine

/-- The shared scale of two well-formed decimals is legal (42_align.md R131). -/
theorem commonScale_le {a b : Dec} (ha : valid a = true) (hb : valid b = true) : commonScale a b ≤ 28 := by
  have := scale_le ha; have := scale_le hb; simp only [commonScale]; omega

/-- Inverting the sign bit negates the value (43_arith.md R137). -/
theorem val_flipSign (b : Dec) : val (flipSign b) = - val b := by
  rw [val, val, sign_flipSign, mant_flipSign, scale_flipSign]; cases sign b <;> simp <;> ring

/-- A magnitude with all its `c` digits dropped fits exactly when its value is below `2^96 - 1/2` (41_wide.md R118). -/
theorem fitsDropping_iff_val (M c : Nat) : fitsDropping M c = true ↔ (M : ℚ) / 10 ^ c < 2 ^ 96 - 1 / 2 := by
  rw [fitsDropping_iff]
  have h := isNearestEven_dropDigits M c
  generalize (M : ℚ) / 10 ^ c = q at *
  generalize dropDigits M c = r at *
  obtain ⟨h1, h2⟩ := h
  rw [abs_le] at h1
  constructor
  · intro h
    have h3 : (r : ℚ) ≤ 2 ^ 96 - 1 := by
      have : r ≤ 2 ^ 96 - 1 := by omega
      have : (r : ℚ) ≤ ((2 ^ 96 - 1 : ℕ) : ℚ) := by exact_mod_cast this
      norm_num at this ⊢; exact this
    rcases lt_or_eq_of_le (show q ≤ 2 ^ 96 - 1 / 2 by linarith) with h4 | h4
    · exact h4
    · exfalso
      have h5 : (r : ℚ) = 2 ^ 96 - 1 := by linarith
      have h6 : r = 2 ^ 96 - 1 := by
        have : (r : ℚ) = ((2 ^ 96 - 1 : ℕ) : ℚ) := by rw [h5]; norm_num
        exact_mod_cast this
      have := h2 (by rw [h4, h5]; norm_num [abs_of_pos])
      omega
  · intro h
    by_contra hc
    have : (2 ^ 96 : ℕ) ≤ r := by omega
    have : (2 : ℚ) ^ 96 ≤ r := by exact_mod_cast this
    linarith

/-- A narrowed result is within half a unit of its last place of the exact value (41_wide.md R118). -/
theorem narrow_ok_val {g : Bool} {M c : Nat} {x : Dec} (h : narrow g M c = .ok x) :
    |val x - (if g then -1 else 1) * (M : ℚ) / 10 ^ c| ≤ 1 / 2 / 10 ^ scale x := by
  obtain ⟨hv, hs, hm, hsc, hf⟩ := narrow_ok h
  obtain ⟨g1, g2, g3, g4⟩ := digitsToDrop_spec hf
  have hr := (isNearestEven_dropDigits M (digitsToDrop M c)).1
  rw [val, hs, hm, hsc]
  generalize dropDigits M (digitsToDrop M c) = r at *
  generalize digitsToDrop M c = k at *
  obtain ⟨j, rfl⟩ := Nat.exists_eq_add_of_le g2
  rw [Nat.add_sub_cancel_left]
  have hk : (0 : ℚ) < 10 ^ k := by positivity
  have hj : (0 : ℚ) < 10 ^ j := by positivity
  have e : (if g = true then (-1 : ℚ) else 1) * (r : ℚ) / 10 ^ j -
      (if g = true then (-1 : ℚ) else 1) * (M : ℚ) / 10 ^ (k + j) =
      -(if g = true then (-1 : ℚ) else 1) * ((M : ℚ) / 10 ^ k - r) / 10 ^ j := by
    rw [pow_add]; field_simp; ring
  rw [e, abs_div, abs_mul, abs_neg, abs_of_pos hj]
  have : |(if g = true then (-1 : ℚ) else 1)| = 1 := by cases g <;> simp
  rw [this, one_mul]
  gcongr

/-- The result keeps the largest legal scale, up to the given one, at which it fits (41_wide.md R118). -/
theorem narrow_ok_scale {g : Bool} {M c : Nat} {x : Dec} (h : narrow g M c = .ok x) : scale x ≤ min 28 c ∧
    (scale x < min 28 c → (2 : ℚ) ^ 96 - 1 / 2 ≤ (M : ℚ) / 10 ^ c * 10 ^ (scale x + 1)) := by
  obtain ⟨hv, hs, hm, hsc, hf⟩ := narrow_ok h
  obtain ⟨g1, g2, g3, g4⟩ := digitsToDrop_spec hf
  refine ⟨by omega, fun hlt => ?_⟩
  have := g4 (digitsToDrop M c - 1) (by omega) (by omega)
  have h2 : ¬ (M : ℚ) / 10 ^ (digitsToDrop M c - 1) < 2 ^ 96 - 1 / 2 := by
    rw [← fitsDropping_iff_val, this]; simp
  rw [not_lt] at h2
  refine le_trans h2 (le_of_eq ?_)
  rw [hsc]
  generalize digitsToDrop M c = k at *
  have : c = (k - 1) + (c - k + 1) := by omega
  conv_rhs => rw [this, pow_add]
  rw [show k - 1 + (c - k + 1) - k = c - k by omega]
  have h1 : (0 : ℚ) < 10 ^ (c - k + 1) := by positivity
  field_simp

/-- A result is written or its status is: the second exactly when there is no result (41_wide.md R119). -/
theorem putResult_eq_fail_iff {s : State} {rd r} {e : StatusCode} (he : e ≠ .ok) :
    putResult s rd r = .next { s with code := e.number } ↔ r = .error e := by
  constructor
  · intro h
    cases r with
    | ok x =>
      simp only [putResult_ok] at h
      injection h with h; injection h with _ _ h
      exact absurd h.symm (by cases e <;> simp [StatusCode.number] at he ⊢)
    | error e' =>
      simp only [putResult_error] at h
      injection h with h; injection h with _ _ h
      congr 1; cases e <;> cases e' <;> simp [StatusCode.number] at h ⊢
  · rintro rfl; rfl

/-- Everything the long division can stop at (43_arith.md R139). -/
theorem divScale_spec {a b : Dec} (ha : valid a = true) :
    divStart a b ≤ divScale a b ∧ divScale a b ≤ 28 ∧
      (divNum a b (divScale a b) % mant b = 0 ∨ divScale a b = 28) ∧
      ∀ v, divStart a b ≤ v → v < divScale a b → divNum a b v % mant b ≠ 0 := by
  have hs := leastFrom_spec (fun w => decide (divNum a b w % mant b = 0)) (Config.maxScale - divStart a b) (divStart a b)
  rw [show leastFrom (fun w => decide (divNum a b w % mant b = 0)) (Config.maxScale - divStart a b) (divStart a b) =
    divScale a b from rfl] at hs
  have h1 := scale_le ha
  have h0 : divStart a b ≤ 28 := by rw [divStart]; omega
  simp only [Config.maxScale, decide_eq_true_eq, decide_eq_false_iff_not] at hs
  obtain ⟨g1, g2, g3, g4⟩ := hs
  exact ⟨g1, by omega, by omega, g3⟩

/-- The remainder is below the divisor (43_arith.md R139). -/
theorem divRem_lt {a b : Dec} (h : mant b ≠ 0) : divRem a b < mant b := Nat.mod_lt _ (by omega)

/-- The codes of a division of well-formed operands (43_arith.md R139). -/
theorem divDec_error {a b e} (h : divDec a b = .error e) : e = .divisionByZero ∨ e = .tooBig ∨ e = .tooSmall := by
  rw [divDec] at h
  split at h
  · cases h; simp
  · split at h
    · rename_i hh; cases h; exact .inr (narrow_error hh)
    · split at h <;> cases h; simp

/-- What a division with a result says (43_arith.md R139). -/
theorem divDec_ok {a b q} (h : divDec a b = .ok q) : mant b ≠ 0 ∧
    narrow (sign a ^^ sign b) (divQuot a b) (divScale a b) = .ok q ∧ (mant q ≠ 0 ∨ mant a = 0) := by
  rw [divDec] at h
  split at h
  · cases h
  · split at h
    · cases h
    · split at h <;> cases h
      refine ⟨‹_›, ‹_›, by omega⟩

/-- The remainder is a well-formed decimal (43_arith.md R143). -/
theorem valid_divRemainder {a b : Dec} (h : mant b ≠ 0) : valid (divRemainder a b) = true := by
  have := divRem_lt (a := a) h
  have := mant_lt b
  have := dropDigits_le (divRem a b) (divScale a b + scale b - 28)
  exact valid_mkdec _ (by simp only [Config.maxScale]; omega) (by simp only [Config.maxScale]; omega)

end Sys2Proof.Machine
end

