-- ==== Sys2Proof/Laws/Convert.lean ====
section
/-! SUPPORT. What the shared operations of the conversion and rounding units do, once: the split of a decimal, 32-bit
integers, binary32 values and their scales. -/

namespace Sys2Proof.Machine

/-! ## Integral and fractional part (46_round.md R170) -/

/-- The integral part fits a mantissa. -/
theorem intPart_lt (a : Dec) : intPart a < 2 ^ 96 := lt_of_le_of_lt (Nat.div_le_self _ _) (mant_lt a)

/-- So does its successor, when there is a fraction. -/
theorem intPart_succ_lt (a : Dec) (h : fracPart a ≠ 0) : intPart a + 1 < 2 ^ 96 := by
  have := mant_lt a
  have h1 : scale a ≠ 0 := fun h0 => h (by rw [fracPart, h0, pow_zero, Nat.mod_one])
  have h2 : 10 ≤ 10 ^ scale a := by calc 10 = 10 ^ 1 := by norm_num
                                     _ ≤ 10 ^ scale a := Nat.pow_le_pow_right (by omega) (by omega)
  have : intPart a ≤ mant a / 10 := Nat.div_le_div_left h2 (by omega)
  omega

/-- So does the rounded part (46_round.md R173). -/
theorem roundedPart_lt (a : Dec) : roundedPart a < 2 ^ 96 := by
  have h0 := intPart_lt a
  rw [roundedPart]
  have hp : 0 < 10 ^ scale a := Nat.pow_pos (by omega)
  split
  · exact intPart_succ_lt a (by omega)
  · split
    · exact h0
    · split
      · exact h0
      · exact intPart_succ_lt a (by omega)

/-- The rounded part is the nearest-even quotient (46_round.md R173). -/
theorem roundedPart_eq (a : Dec) : roundedPart a = rneDiv (mant a) (10 ^ scale a) := by
  rw [roundedPart, rneDiv, ← intPart, ← fracPart]
  split <;> split <;> (try split) <;> omega

/-- The integral part is the floor of the magnitude. -/
theorem floor_mant_div (a : Dec) : ⌊(mant a : ℚ) / 10 ^ scale a⌋ = intPart a := by
  rw [intPart]
  have : (mant a : ℚ) / 10 ^ scale a = (mant a : ℚ) / ((10 ^ scale a : ℕ) : ℚ) := by push_cast; rfl
  rw [this]
  exact_mod_cast Rat.floor_natCast_div_natCast (mant a) (10 ^ scale a)

/-- The split of the magnitude. -/
theorem mant_div_eq (a : Dec) : (mant a : ℚ) / 10 ^ scale a = intPart a + (fracPart a : ℚ) / 10 ^ scale a := by
  have h : 10 ^ scale a * intPart a + fracPart a = mant a := Nat.div_add_mod _ _
  have h' : (10 : ℚ) ^ scale a * intPart a + fracPart a = mant a := by exact_mod_cast h
  have hp : (10 : ℚ) ^ scale a ≠ 0 := by positivity
  rw [← h']; field_simp

/-! ## Integers (45_convert.md R160 (a)) -/

/-- The absolute value of a 32-bit integer fits a mantissa. -/
theorem signed32_natAbs_lt (x : Word) : (signed32 x).natAbs < 2 ^ 96 := by
  have h1 := (x.extractLsb' 0 31).isLt
  have h2 := (x.extractLsb' 31 1).isLt
  rw [signed32]
  omega

/-- The spec's formula is the two's-complement reading. -/
theorem signed32_eq_toInt (x : Word) : signed32 x = x.toInt := by
  have h := x.isLt
  have h1 : (x.extractLsb' 0 31).toNat = x.toNat % 2 ^ 31 := by simp
  have h2 : (x.extractLsb' 31 1).toNat = x.toNat / 2 ^ 31 := by
    simp [Nat.shiftRight_eq_div_pow]; omega
  rw [signed32, h1, h2, BitVec.toInt_eq_toNat_cond]
  split <;> omega

/-! ## Binary32 fields and magnitude (45_convert.md R160 (b)) -/

/-- The biased exponent as arithmetic. -/
theorem floatExp_eq (f : Word) : floatExp f = f.toNat / 2 ^ 23 % 256 := by
  rw [floatExp, BitVec.extractLsb'_toNat, Nat.shiftRight_eq_div_pow]

/-- The trailing significand as arithmetic. -/
theorem floatFrac_eq (f : Word) : floatFrac f = f.toNat % 2 ^ 23 := by
  rw [floatFrac, BitVec.extractLsb'_toNat, Nat.shiftRight_eq_div_pow]; simp

/-- The sign bit as arithmetic. -/
theorem floatSign_eq (f : Word) : floatSign f = decide (f.toNat / 2 ^ 31 = 1) := by
  rw [floatSign, BitVec.getLsbD, Nat.testBit, Nat.shiftRight_eq_div_pow]
  have h := f.isLt
  have : f.toNat / 2 ^ 31 = 0 ∨ f.toNat / 2 ^ 31 = 1 := by omega
  rcases this with h | h <;> rw [h] <;> rfl

/-- The magnitude over the one denominator. -/
theorem binary32Mag_eq (f : Word) : binary32Mag f = (floatNum f : ℚ) / (floatDen : ℕ) := by
  rw [binary32Mag, floatNum, floatExp_eq, floatFrac_eq, floatDen]
  have h2 : (2 : ℚ) ^ (-149 : ℤ) = 2 / 2 ^ 150 := by norm_num
  split
  · rw [h2]; push_cast; ring
  · rw [zpow_sub₀ (by norm_num : (2 : ℚ) ≠ 0), zpow_natCast, show (150 : ℤ) = ((150 : ℕ) : ℤ) from rfl,
      zpow_natCast]
    push_cast; ring

/-- The denominator is positive. -/
theorem floatDen_pos : 0 < floatDen := by norm_num [floatDen]

/-- The overflow test of FTOD is about the value (45_convert.md R163). -/
theorem binary32Mag_ge_iff (f : Word) : (2 : ℚ) ^ 96 ≤ binary32Mag f ↔ 2 ^ 96 * floatDen ≤ floatNum f := by
  have hd : (0 : ℚ) < floatDen := by exact_mod_cast floatDen_pos
  rw [binary32Mag_eq, le_div_iff₀ hd]
  constructor
  · intro h; exact_mod_cast h
  · intro h; exact_mod_cast h

/-- A scale makes the value an integer exactly when the division leaves nothing (45_convert.md R163). -/
theorem binary32Mag_mul_int_iff (f : Word) (s : ℕ) :
    (∃ n : ℕ, binary32Mag f * 10 ^ s = n) ↔ floatNum f * 10 ^ s % floatDen = 0 := by
  have hd : (floatDen : ℚ) ≠ 0 := by exact_mod_cast floatDen_pos.ne'
  rw [binary32Mag_eq]
  constructor
  · rintro ⟨n, h⟩
    have : (floatNum f * 10 ^ s : ℚ) = n * floatDen := by rw [← h]; field_simp
    have : floatNum f * 10 ^ s = n * floatDen := by exact_mod_cast this
    rw [this]; exact Nat.mul_mod_left _ _
  · intro h
    obtain ⟨n, hn⟩ := Nat.dvd_of_mod_eq_zero h
    refine ⟨n, ?_⟩
    have : (floatNum f * 10 ^ s : ℚ) = floatDen * n := by exact_mod_cast hn
    rw [div_mul_eq_mul_div, this]; field_simp

/-- The rounded value at a scale (45_convert.md R163). -/
theorem isNearestEven_binary32Mag (f : Word) (s : ℕ) :
    IsNearestEven (binary32Mag f * 10 ^ s) (rneDiv (floatNum f * 10 ^ s) floatDen) := by
  have := isNearestEven_rneDiv (floatNum f * 10 ^ s) floatDen_pos
  rw [binary32Mag_eq, div_mul_eq_mul_div]
  push_cast at this
  exact this

/-- Scale 149 makes every binary32 value an integer (45_convert.md R163). -/
theorem floatNum_mul_149 (f : Word) : floatNum f * 10 ^ 149 % floatDen = 0 := by
  apply Nat.mod_eq_zero_of_dvd
  rw [floatDen, floatNum, show (10 : ℕ) ^ 149 = 2 ^ 149 * 5 ^ 149 by norm_num]
  split
  · exact ⟨floatFrac f * 5 ^ 149, by ring⟩
  · obtain ⟨k, hk⟩ := Nat.exists_eq_add_of_le (show 1 ≤ floatExp f by omega)
    rw [hk]
    exact ⟨(2 ^ 23 + floatFrac f) * 2 ^ k * 5 ^ 149, by ring⟩

/-- Everything `sint` can be (45_convert.md R163). -/
theorem scaleExact_spec (f : Word) : floatNum f * 10 ^ scaleExact f % floatDen = 0 ∧
    ∀ j < scaleExact f, floatNum f * 10 ^ j % floatDen ≠ 0 := by
  obtain ⟨h1, h2, h3, h4⟩ := leastFrom_spec (fun s => decide (floatNum f * 10 ^ s % floatDen = 0)) 149 0
  rw [show leastFrom (fun s => decide (floatNum f * 10 ^ s % floatDen = 0)) 149 0 = scaleExact f from rfl] at *
  refine ⟨?_, fun j hj => by simpa using h3 j (by omega) hj⟩
  rcases h4 with h4 | h4
  · simpa using h4
  · rw [h4]; exact floatNum_mul_149 f

/-- `sfit` is a legal scale (45_convert.md R163). -/
theorem scaleFit_le (f : Word) : scaleFit f ≤ 28 := (greatestUpTo_spec _ _).1

/-- The mantissa FTOD writes fits (45_convert.md R163). -/
theorem rneDiv_floatScale_lt (f : Word) (h : floatNum f < 2 ^ 96 * floatDen) :
    rneDiv (floatNum f * 10 ^ floatScale f) floatDen < 2 ^ 96 := by
  have h2 := (greatestUpTo_spec (fun s => decide (rneDiv (floatNum f * 10 ^ s) floatDen ≤ Config.maxMant))
    Config.maxScale).2.2
  have hfit : rneDiv (floatNum f * 10 ^ scaleFit f) floatDen < 2 ^ 96 := by
    rcases h2 with h2 | h2
    · simp only [decide_eq_true_eq, Config.maxMant] at h2
      have : scaleFit f = greatestUpTo (fun s => decide (rneDiv (floatNum f * 10 ^ s) floatDen ≤ Config.maxMant))
        Config.maxScale := rfl
      rw [this]; simp only [Config.maxMant, Config.maxScale] at h2 ⊢; omega
    · have : scaleFit f = 0 := h2
      rw [this, pow_zero, mul_one]
      have : 2 ^ 96 - 1 < rneDiv (floatNum f) floatDen → False := by
        intro hb
        have hd : 0 < floatDen := by simp [floatDen]
        have h3 := Nat.div_add_mod (floatNum f) floatDen
        have h5 := Nat.mod_lt (floatNum f) hd
        have h6 : floatNum f / floatDen < 2 ^ 96 := by
          rw [Nat.div_lt_iff_lt_mul hd]; exact h
        have hint : floatNum f % floatDen = 0 ∨ floatNum f / floatDen < 2 ^ 30 := by
          have hT : floatFrac f < 2 ^ 23 := (f.extractLsb' 0 23).isLt
          rw [floatNum, floatDen]
          split
          · right; rw [Nat.div_lt_iff_lt_mul (by positivity)]; omega
          · by_cases hE : 150 ≤ floatExp f
            · left
              obtain ⟨k, hk⟩ := Nat.exists_eq_add_of_le hE
              rw [hk, pow_add]
              apply Nat.mod_eq_zero_of_dvd
              exact ⟨(2 ^ 23 + floatFrac f) * 2 ^ k, by ring⟩
            · right
              rw [Nat.div_lt_iff_lt_mul (by positivity)]
              have : 2 ^ floatExp f ≤ 2 ^ 149 := Nat.pow_le_pow_right (by omega) (by omega)
              calc (2 ^ 23 + floatFrac f) * 2 ^ floatExp f ≤ 2 ^ 24 * 2 ^ 149 := Nat.mul_le_mul (by omega) this
                _ < 2 ^ 30 * 2 ^ 150 := by norm_num
        have h7 := rneDiv_cases (floatNum f) floatDen
        omega
      by_contra hh; exact this (by omega)
  have : floatScale f ≤ scaleFit f := Nat.min_le_right _ _
  refine lt_of_le_of_lt (rneDiv_mono floatDen_pos ?_) hfit
  exact Nat.mul_le_mul_left _ (Nat.pow_le_pow_right (by omega) this)

/-! ## Decimal to binary32 (45_convert.md R164) -/

/-- The binade holds the quotient. -/
theorem floatBinade_spec {n c : ℕ} (hn : 0 < n) (hn' : n < 2 ^ 96) (hc : c ≤ 28) : floatBinade n (10 ^ c) ≤ 189 ∧
    n * 2 ^ 93 < 10 ^ c * 2 ^ floatBinade n (10 ^ c) ∧ 10 ^ c * 2 ^ floatBinade n (10 ^ c) ≤ n * 2 ^ 94 := by
  obtain ⟨h1, h2, h3, h4⟩ := leastFrom_spec (fun j => decide (n * 2 ^ 93 < 10 ^ c * 2 ^ j)) 189 0
  rw [show leastFrom (fun j => decide (n * 2 ^ 93 < 10 ^ c * 2 ^ j)) 189 0 = floatBinade n (10 ^ c) from rfl] at *
  simp only [decide_eq_true_eq, decide_eq_false_iff_not] at h3 h4
  generalize floatBinade n (10 ^ c) = j at *
  have hp : 1 ≤ 10 ^ c := Nat.one_le_pow _ _ (by omega)
  refine ⟨by omega, ?_, ?_⟩
  · rcases h4 with h4 | h4
    · exact h4
    · rw [h4]
      calc n * 2 ^ 93 < 2 ^ 96 * 2 ^ 93 := by omega
        _ = 1 * 2 ^ (0 + 189) := by norm_num
        _ ≤ 10 ^ c * 2 ^ (0 + 189) := Nat.mul_le_mul_right _ hp
  · rcases Nat.eq_zero_or_pos j with h0 | h0
    · rw [h0]
      calc 10 ^ c * 2 ^ 0 ≤ 10 ^ 28 * 1 := Nat.mul_le_mul (Nat.pow_le_pow_right (by omega) hc) (by norm_num)
        _ ≤ 1 * 2 ^ 94 := by norm_num
        _ ≤ n * 2 ^ 94 := Nat.mul_le_mul_right _ hn
    · have := h3 (j - 1) (by omega) (by omega)
      obtain ⟨k, rfl⟩ := Nat.exists_eq_add_of_le h0
      rw [Nat.add_sub_cancel_left] at this
      rw [show 10 ^ c * 2 ^ (Nat.succ 0 + k) = 10 ^ c * 2 ^ k * 2 by rw [pow_add]; ring,
        show n * 2 ^ 94 = n * 2 ^ 93 * 2 by ring]
      omega

/-- The significand has 24 bits, or is 2^24. -/
theorem floatSignificand_bounds {n c : ℕ} (hn : 0 < n) (hn' : n < 2 ^ 96) (hc : c ≤ 28) :
    2 ^ 23 ≤ floatSignificand n (10 ^ c) ∧ floatSignificand n (10 ^ c) ≤ 2 ^ 24 := by
  obtain ⟨h1, h2, h3⟩ := floatBinade_spec hn hn' hc
  rw [floatSignificand]
  generalize floatBinade n (10 ^ c) = j at *
  have hD : 0 < 10 ^ c * 2 ^ j := by positivity
  generalize 10 ^ c * 2 ^ j = D at *
  have e1 : rneDiv (2 ^ 23 * D) D = 2 ^ 23 := rneDiv_mul _ hD
  have e2 : rneDiv (2 ^ 24 * D) D = 2 ^ 24 := rneDiv_mul _ hD
  constructor
  · rw [← e1]; apply rneDiv_mono hD; omega
  · rw [← e2]; apply rneDiv_mono hD; omega

/-- The result leaves the sign bit free. -/
theorem round32_lt {n c : ℕ} (hn' : n < 2 ^ 96) (hc : c ≤ 28) : round32 n (10 ^ c) < 2 ^ 31 := by
  rw [round32]
  split
  · omega
  · rename_i h
    obtain ⟨h1, h2, h3⟩ := floatBinade_spec (Nat.pos_of_ne_zero h) hn' hc
    obtain ⟨h4, h5⟩ := floatSignificand_bounds (Nat.pos_of_ne_zero h) hn' hc
    clear h2 h3
    generalize floatSignificand n (10 ^ c) = x at *
    generalize floatBinade n (10 ^ c) = y at *
    split <;> omega

end Sys2Proof.Machine
end

