-- ==== Sys2Proof/Laws/Decode.lean ====
section
/-! SUPPORT. The decoder: rows of the opcode map never overlap (30_encoding.md R72), what a selected row says of a word, and
the fields of a command word. -/

namespace Sys2Proof

/-! ## The opcode map -/

/-- No word selects two rows: two rows differ in a bit that both masks fix (30_encoding.md R72). -/
theorem opcodeTable_disjoint :
    opcodeTable.Pairwise fun r r' => r.mask &&& r'.mask &&& (r.value ^^^ r'.value) ≠ 0 := by decide

/-- A selected row is the only selected row. -/
theorem selects_unique {c : Word} {r r' : Row} (h : r.selects c = true) (h' : r'.selects c = true) :
    r.mask &&& r'.mask &&& (r.value ^^^ r'.value) = 0 := by
  simp only [Row.selects, decide_eq_true_eq] at h h'
  rw [← h, ← h']
  apply BitVec.eq_of_getLsbD_eq
  intro i _
  simp only [BitVec.getLsbD_and, BitVec.getLsbD_xor]
  cases r.mask.getLsbD i <;> cases r'.mask.getLsbD i <;> cases c.getLsbD i <;> simp

/-- In a list whose rows exclude each other pairwise, the selected row is the one found. -/
theorem find_of_pairwise {c : Word} {l : List Row} (hp : l.Pairwise fun r r' => ¬ (r.selects c ∧ r'.selects c))
    {r : Row} (hr : r ∈ l) (h : r.selects c = true) : l.find? (fun r => r.selects c) = some r := by
  induction l with
  | nil => cases hr
  | cons x xs ih =>
    rw [List.pairwise_cons] at hp
    rcases List.mem_cons.mp hr with rfl | hr
    · exact List.find?_cons_of_pos (p := fun r : Row => r.selects c) h
    · rw [List.find?_cons_of_neg (p := fun r : Row => r.selects c) (fun hx => hp.1 r hr ⟨hx, h⟩)]
      exact ih hp.2 hr

/-- A word that selects a row of the table decodes to what the row builds (30_encoding.md R72). -/
theorem decode_of_row {c : Word} {r : Row} (hr : r ∈ opcodeTable) (h : r.selects c = true) :
    decode c = .ok (r.build c) := by
  have hp : opcodeTable.Pairwise fun r r' => ¬ (r.selects c ∧ r'.selects c) :=
    opcodeTable_disjoint.imp fun hne hs => hne (selects_unique hs.1 hs.2)
  rw [decode, find_of_pairwise hp hr h]

/-- Everything a decoded word says: some row selected it and built the instruction (30_encoding.md R72). -/
theorem row_of_decode {c : Word} {i : Instr} (h : decode c = .ok i) :
    ∃ r ∈ opcodeTable, r.selects c = true ∧ r.build c = i := by
  rw [decode] at h
  split at h
  · rename_i r hf
    cases h
    exact ⟨r, List.mem_of_find?_eq_some hf, List.find?_some (p := fun r : Row => r.selects c) hf, rfl⟩
  · cases h

/-- A word that no row selects is refused (30_encoding.md R72, R78). -/
theorem decode_of_no_row {c : Word} (h : ∀ r ∈ opcodeTable, r.selects c = false) : ∃ e, decode c = .error e := by
  rw [decode, List.find?_eq_none.mpr fun r hr => by simp [h r hr]]
  exact ⟨_, rfl⟩

/-! ## The fields of a command word -/

/-- A mask acts on each field of a command word alone. -/
theorem commandWord_and (op op' : BitVec 8) (rd rd' ra ra' rb rb' : BitVec 4) (imm imm' : BitVec 12) :
    commandWord op rd ra rb imm &&& commandWord op' rd' ra' rb' imm' =
      commandWord (op &&& op') (rd &&& rd') (ra &&& ra') (rb &&& rb') (imm &&& imm') := by
  apply BitVec.eq_of_getLsbD_eq
  intro i _
  simp only [commandWord, BitVec.getLsbD_and, BitVec.getLsbD_append]
  split <;> [rfl; split] <;> [rfl; split] <;> [rfl; split] <;> rfl

theorem toNat_commandWord (op : BitVec 8) (rd ra rb : BitVec 4) (imm : BitVec 12) :
    (commandWord op rd ra rb imm).toNat =
      op.toNat * 2 ^ 24 + rd.toNat * 2 ^ 20 + ra.toNat * 2 ^ 16 + rb.toNat * 2 ^ 12 + imm.toNat := by
  have happ : ∀ {n m : Nat} (x : BitVec n) (y : BitVec m), (x ++ y).toNat = x.toNat * 2 ^ m + y.toNat := by
    intro n m x y
    rw [BitVec.toNat_append, ← Nat.shiftLeft_add_eq_or_of_lt y.isLt, Nat.shiftLeft_eq]
  simp only [commandWord, happ]
  omega

/-- A field of a command word, from its number. -/
theorem field_of_toNat {c : Word} {lo w : Nat} {f : BitVec w} (h : c.toNat / 2 ^ lo % 2 ^ w = f.toNat) :
    c.extractLsb' lo w = f := by
  apply BitVec.eq_of_toNat_eq
  rw [BitVec.extractLsb'_toNat, Nat.shiftRight_eq_div_pow, h]

@[simp] theorem fieldRD_commandWord (op : BitVec 8) (rd ra rb : BitVec 4) (imm : BitVec 12) :
    fieldRD (commandWord op rd ra rb imm) = rd :=
  field_of_toNat (by rw [toNat_commandWord]; omega)

@[simp] theorem fieldRA_commandWord (op : BitVec 8) (rd ra rb : BitVec 4) (imm : BitVec 12) :
    fieldRA (commandWord op rd ra rb imm) = ra :=
  field_of_toNat (by rw [toNat_commandWord]; omega)

@[simp] theorem fieldRB_commandWord (op : BitVec 8) (rd ra rb : BitVec 4) (imm : BitVec 12) :
    fieldRB (commandWord op rd ra rb imm) = rb :=
  field_of_toNat (by rw [toNat_commandWord]; omega)

@[simp] theorem fieldIMM_commandWord (op : BitVec 8) (rd ra rb : BitVec 4) (imm : BitVec 12) :
    fieldIMM (commandWord op rd ra rb imm) = imm :=
  field_of_toNat (by rw [toNat_commandWord]; omega)

@[simp] theorem fieldRC_commandWord (op : BitVec 8) (rd ra rb : BitVec 4) (imm : BitVec 12) :
    fieldRC (commandWord op rd ra rb imm) = imm.extractLsb' 0 4 := by
  apply BitVec.eq_of_toNat_eq
  rw [fieldRC, BitVec.extractLsb'_toNat, BitVec.extractLsb'_toNat, Nat.shiftRight_eq_div_pow,
    Nat.shiftRight_eq_div_pow, toNat_commandWord]
  omega

/-! ## Operands -/

@[simp] theorem selD_sel (r : DSel) : selD (sel r) = r := by revert r; decide
@[simp] theorem selB_sel (r : BSel) : selB (sel r) = r := by revert r; decide

@[simp] theorem selD_rc (r : DSel) : selD ((BitVec.ofNat 12 r.val).extractLsb' 0 4) = r := by revert r; decide
@[simp] theorem selB_rc (r : BSel) : selB ((BitVec.ofNat 12 r.val).extractLsb' 0 4) = r := by revert r; decide

/-- The high bit of a D selector field is zero, the two high bits of a B selector field are (30_encoding.md R73). -/
@[simp] theorem sel_and_D (r : DSel) : sel r &&& 8#4 = 0#4 := by revert r; decide
@[simp] theorem sel_and_B (r : BSel) : sel r &&& 12#4 = 0#4 := by revert r; decide

@[simp] theorem rc_and_D (r : DSel) : BitVec.ofNat 12 r.val &&& 0xFF8#12 = 0#12 := by revert r; decide
@[simp] theorem rc_and_B (r : BSel) : BitVec.ofNat 12 r.val &&& 0xFFC#12 = 0#12 := by revert r; decide

@[simp] theorem immW_and (w : Fin 4) (i : Fin 32) : BitVec.ofNat 12 (32 * w.val + i.val) &&& 0xF80#12 = 0#12 := by
  revert w i; decide

@[simp] theorem immM_and (i : Fin 128) : BitVec.ofNat 12 i.val &&& 0xF80#12 = 0#12 := by revert i; decide

@[simp] theorem immP_and (p : Fin 32) : BitVec.ofNat 12 p.val &&& 0xFE0#12 = 0#12 := by revert p; decide

@[simp] theorem imm8_and (v : BitVec 8) : v.setWidth 12 &&& 0xF00#12 = 0#12 := by revert v; decide

@[simp] theorem imm1_and (v : BitVec 1) : v.setWidth 12 &&& 0xFFE#12 = 0#12 := by revert v; decide

@[simp] theorem immW_commandWord (op : BitVec 8) (rd ra rb : BitVec 4) (w : Fin 4) (i : Fin 32) :
    immW (commandWord op rd ra rb (BitVec.ofNat 12 (32 * w.val + i.val))) = w := by
  rw [immW, fieldIMM_commandWord]
  revert w i; decide

@[simp] theorem immI_commandWord (op : BitVec 8) (rd ra rb : BitVec 4) (w : Fin 4) (i : Fin 32) :
    immI (commandWord op rd ra rb (BitVec.ofNat 12 (32 * w.val + i.val))) = i := by
  rw [immI, fieldIMM_commandWord]
  revert w i; decide

@[simp] theorem immM_commandWord (op : BitVec 8) (rd ra rb : BitVec 4) (i : Fin 128) :
    immM (commandWord op rd ra rb (BitVec.ofNat 12 i.val)) = i := by
  rw [immM, fieldIMM_commandWord]
  revert i; decide

@[simp] theorem immP_commandWord (op : BitVec 8) (rd ra rb : BitVec 4) (p : Fin 32) :
    immP (commandWord op rd ra rb (BitVec.ofNat 12 p.val)) = p := by
  rw [immP, fieldIMM_commandWord]
  revert p; decide

@[simp] theorem immN_commandWord (op : BitVec 8) (rd ra rb : BitVec 4) (n : Fin 4096) :
    immN (commandWord op rd ra rb (BitVec.ofFin n)) = n := by
  rw [immN, fieldIMM_commandWord]

@[simp] theorem imm8_commandWord (op : BitVec 8) (rd ra rb : BitVec 4) (v : BitVec 8) :
    imm8 (commandWord op rd ra rb (v.setWidth 12)) = v := by
  rw [imm8, fieldIMM_commandWord]
  revert v; decide

@[simp] theorem imm1_commandWord (op : BitVec 8) (rd ra rb : BitVec 4) (v : BitVec 1) :
    imm1 (commandWord op rd ra rb (v.setWidth 12)) = v := by
  rw [imm1, fieldIMM_commandWord]
  revert v; decide

/-! ## Selecting a row by its fields -/

/-- Row `k` of the table, when a word selects it, is what the word decodes to. -/
theorem decode_at (k : Nat) (hk : k < opcodeTable.length) {c : Word} (h : opcodeTable[k].selects c = true) :
    decode c = .ok (opcodeTable[k].build c) := decode_of_row (List.getElem_mem hk) h

/-- A command word selects a row when each of its fields does. -/
theorem selects_fields {r : Row} {op mop vop : BitVec 8} {rd ra rb mrd mra mrb vrd vra vrb : BitVec 4}
    {imm mimm vimm : BitVec 12} (hm : r.mask = commandWord mop mrd mra mrb mimm)
    (hv : r.value = commandWord vop vrd vra vrb vimm) (h1 : op &&& mop = vop) (h2 : rd &&& mrd = vrd)
    (h3 : ra &&& mra = vra) (h4 : rb &&& mrb = vrb) (h5 : imm &&& mimm = vimm) :
    r.selects (commandWord op rd ra rb imm) = true := by
  rw [Row.selects, hm, hv, commandWord_and, h1, h2, h3, h4, h5, decide_eq_true_eq]

/-- A word is its five fields (30_encoding.md R71). -/
theorem commandWord_fields (c : Word) :
    c = commandWord (fieldOP c) (fieldRD c) (fieldRA c) (fieldRB c) (fieldIMM c) := by
  apply BitVec.eq_of_toNat_eq
  rw [toNat_commandWord]
  simp only [fieldOP, fieldRD, fieldRA, fieldRB, fieldIMM, BitVec.extractLsb'_toNat, Nat.shiftRight_eq_div_pow]
  have := c.isLt
  omega

/-- Equal words have equal fields (30_encoding.md R71). -/
theorem commandWord_inj {op op' : BitVec 8} {rd rd' ra ra' rb rb' : BitVec 4} {imm imm' : BitVec 12}
    (h : commandWord op rd ra rb imm = commandWord op' rd' ra' rb' imm') :
    op = op' ∧ rd = rd' ∧ ra = ra' ∧ rb = rb' ∧ imm = imm' := by
  have h := congrArg BitVec.toNat h
  rw [toNat_commandWord, toNat_commandWord] at h
  have := op.isLt; have := op'.isLt; have := rd.isLt; have := rd'.isLt; have := ra.isLt; have := ra'.isLt
  have := rb.isLt; have := rb'.isLt; have := imm.isLt; have := imm'.isLt
  refine ⟨?_, ?_, ?_, ?_, ?_⟩ <;> apply BitVec.eq_of_toNat_eq <;> omega

/-- What a word that selects a row says of each of its fields (30_encoding.md R72). -/
theorem fields_of_selects {r : Row} {c : Word} (h : r.selects c = true) :
    fieldOP c &&& fieldOP r.mask = fieldOP r.value ∧ fieldRD c &&& fieldRD r.mask = fieldRD r.value ∧
      fieldRA c &&& fieldRA r.mask = fieldRA r.value ∧ fieldRB c &&& fieldRB r.mask = fieldRB r.value ∧
      fieldIMM c &&& fieldIMM r.mask = fieldIMM r.value := by
  rw [Row.selects, decide_eq_true_eq, commandWord_fields r.mask, commandWord_fields r.value] at h
  rw [commandWord_fields c, commandWord_and] at h
  simpa using commandWord_inj h

end Sys2Proof
end

