-- ==== Sys2Proof/Laws/PerInstr.lean ====
section
/-! SUPPORT. The statements made per instruction (LAWS.json): for every constructor of `Instr`, the word of the encoder
decodes to the instruction. Each proof names the row of the opcode map and the row's mask and value field by field. -/

namespace Sys2Proof

/-- The word that the encoder gives a command decodes to that command (30_encoding.md R72, R73, R76). -/
def Laws.RoundTrip.Statement (i : Instr) : Prop := decode (encode i) = .ok i

theorem Laws.RoundTrip.nop : Statement (.nop) :=
  (decode_at 0 (by decide) (selects_fields (mop := 0xff) (mrd := 15) (mra := 15) (mrb := 15) (mimm := 0xfff)
    (vop := 0x0) (vrd := 0) (vra := 0) (vrb := 0) (vimm := 0) rfl rfl rfl
    (by simp) (by simp) (by simp) (by simp))).trans (by simp [opcodeTable])

theorem Laws.RoundTrip.wgetb (ra : DSel) (w : Fin 4) (i : Fin 32) : Statement (.wgetb ra w i) :=
  (decode_at 1 (by decide) (selects_fields (mop := 0xff) (mrd := 15) (mra := 8) (mrb := 15) (mimm := 0xf80)
    (vop := 0x1) (vrd := 0) (vra := 0) (vrb := 0) (vimm := 0) rfl rfl rfl
    (by simp) (by simp) (by simp) (by simp))).trans (by simp [opcodeTable])

theorem Laws.RoundTrip.wsetb (rd : DSel) (ra : DSel) (w : Fin 4) (i : Fin 32) : Statement (.wsetb rd ra w i) :=
  (decode_at 2 (by decide) (selects_fields (mop := 0xff) (mrd := 8) (mra := 8) (mrb := 15) (mimm := 0xf80)
    (vop := 0x2) (vrd := 0) (vra := 0) (vrb := 0) (vimm := 0) rfl rfl rfl
    (by simp) (by simp) (by simp) (by simp))).trans (by simp [opcodeTable])

theorem Laws.RoundTrip.wclrb (rd : DSel) (ra : DSel) (w : Fin 4) (i : Fin 32) : Statement (.wclrb rd ra w i) :=
  (decode_at 3 (by decide) (selects_fields (mop := 0xff) (mrd := 8) (mra := 8) (mrb := 15) (mimm := 0xf80)
    (vop := 0x3) (vrd := 0) (vra := 0) (vrb := 0) (vimm := 0) rfl rfl rfl
    (by simp) (by simp) (by simp) (by simp))).trans (by simp [opcodeTable])

theorem Laws.RoundTrip.winvb (rd : DSel) (ra : DSel) (w : Fin 4) (i : Fin 32) : Statement (.winvb rd ra w i) :=
  (decode_at 4 (by decide) (selects_fields (mop := 0xff) (mrd := 8) (mra := 8) (mrb := 15) (mimm := 0xf80)
    (vop := 0x4) (vrd := 0) (vra := 0) (vrb := 0) (vimm := 0) rfl rfl rfl
    (by simp) (by simp) (by simp) (by simp))).trans (by simp [opcodeTable])

theorem Laws.RoundTrip.mgetb (ra : DSel) (i : Fin 128) : Statement (.mgetb ra i) :=
  (decode_at 5 (by decide) (selects_fields (mop := 0xff) (mrd := 15) (mra := 8) (mrb := 15) (mimm := 0xf80)
    (vop := 0x5) (vrd := 0) (vra := 0) (vrb := 0) (vimm := 0) rfl rfl rfl
    (by simp) (by simp) (by simp) (by simp))).trans (by simp [opcodeTable])

theorem Laws.RoundTrip.msetb (rd : DSel) (ra : DSel) (i : Fin 128) : Statement (.msetb rd ra i) :=
  (decode_at 6 (by decide) (selects_fields (mop := 0xff) (mrd := 8) (mra := 8) (mrb := 15) (mimm := 0xf80)
    (vop := 0x6) (vrd := 0) (vra := 0) (vrb := 0) (vimm := 0) rfl rfl rfl
    (by simp) (by simp) (by simp) (by simp))).trans (by simp [opcodeTable])

theorem Laws.RoundTrip.mclrb (rd : DSel) (ra : DSel) (i : Fin 128) : Statement (.mclrb rd ra i) :=
  (decode_at 7 (by decide) (selects_fields (mop := 0xff) (mrd := 8) (mra := 8) (mrb := 15) (mimm := 0xf80)
    (vop := 0x7) (vrd := 0) (vra := 0) (vrb := 0) (vimm := 0) rfl rfl rfl
    (by simp) (by simp) (by simp) (by simp))).trans (by simp [opcodeTable])

theorem Laws.RoundTrip.minvb (rd : DSel) (ra : DSel) (i : Fin 128) : Statement (.minvb rd ra i) :=
  (decode_at 8 (by decide) (selects_fields (mop := 0xff) (mrd := 8) (mra := 8) (mrb := 15) (mimm := 0xf80)
    (vop := 0x8) (vrd := 0) (vra := 0) (vrb := 0) (vimm := 0) rfl rfl rfl
    (by simp) (by simp) (by simp) (by simp))).trans (by simp [opcodeTable])

theorem Laws.RoundTrip.getscale (ra : DSel) : Statement (.getscale ra) :=
  (decode_at 9 (by decide) (selects_fields (mop := 0xff) (mrd := 15) (mra := 8) (mrb := 15) (mimm := 0xfff)
    (vop := 0x9) (vrd := 0) (vra := 0) (vrb := 0) (vimm := 0) rfl rfl rfl
    (by simp) (by simp) (by simp) (by simp))).trans (by simp [opcodeTable])

theorem Laws.RoundTrip.setscale (rd : DSel) (ra : DSel) (imm8 : BitVec 8) : Statement (.setscale rd ra imm8) :=
  (decode_at 10 (by decide) (selects_fields (mop := 0xff) (mrd := 8) (mra := 8) (mrb := 15) (mimm := 0xf00)
    (vop := 0xa) (vrd := 0) (vra := 0) (vrb := 0) (vimm := 0) rfl rfl rfl
    (by simp) (by simp) (by simp) (by simp))).trans (by simp [opcodeTable])

theorem Laws.RoundTrip.getsign (ra : DSel) : Statement (.getsign ra) :=
  (decode_at 11 (by decide) (selects_fields (mop := 0xff) (mrd := 15) (mra := 8) (mrb := 15) (mimm := 0xfff)
    (vop := 0xb) (vrd := 0) (vra := 0) (vrb := 0) (vimm := 0) rfl rfl rfl
    (by simp) (by simp) (by simp) (by simp))).trans (by simp [opcodeTable])

theorem Laws.RoundTrip.setsign (rd : DSel) (ra : DSel) (imm1 : BitVec 1) : Statement (.setsign rd ra imm1) :=
  (decode_at 12 (by decide) (selects_fields (mop := 0xff) (mrd := 8) (mra := 8) (mrb := 15) (mimm := 0xffe)
    (vop := 0xc) (vrd := 0) (vra := 0) (vrb := 0) (vimm := 0) rfl rfl rfl
    (by simp) (by simp) (by simp) (by simp))).trans (by simp [opcodeTable])

theorem Laws.RoundTrip.bshl (bd : BSel) (ba : BSel) (n : Fin 4096) : Statement (.bshl bd ba n) :=
  (decode_at 13 (by decide) (selects_fields (mop := 0xff) (mrd := 12) (mra := 12) (mrb := 15) (mimm := 0x0)
    (vop := 0x10) (vrd := 0) (vra := 0) (vrb := 0) (vimm := 0) rfl rfl rfl
    (by simp) (by simp) (by simp) (by simp))).trans (by simp [opcodeTable])

theorem Laws.RoundTrip.bshr (bd : BSel) (ba : BSel) (n : Fin 4096) : Statement (.bshr bd ba n) :=
  (decode_at 14 (by decide) (selects_fields (mop := 0xff) (mrd := 12) (mra := 12) (mrb := 15) (mimm := 0x0)
    (vop := 0x11) (vrd := 0) (vra := 0) (vrb := 0) (vimm := 0) rfl rfl rfl
    (by simp) (by simp) (by simp) (by simp))).trans (by simp [opcodeTable])

theorem Laws.RoundTrip.biszero (ba : BSel) : Statement (.biszero ba) :=
  (decode_at 15 (by decide) (selects_fields (mop := 0xff) (mrd := 15) (mra := 12) (mrb := 15) (mimm := 0xfff)
    (vop := 0x12) (vrd := 0) (vra := 0) (vrb := 0) (vimm := 0) rfl rfl rfl
    (by simp) (by simp) (by simp) (by simp))).trans (by simp [opcodeTable])

theorem Laws.RoundTrip.bcmp (ba : BSel) (bb : BSel) : Statement (.bcmp ba bb) :=
  (decode_at 16 (by decide) (selects_fields (mop := 0xff) (mrd := 15) (mra := 12) (mrb := 12) (mimm := 0xfff)
    (vop := 0x13) (vrd := 0) (vra := 0) (vrb := 0) (vimm := 0) rfl rfl rfl
    (by simp) (by simp) (by simp) (by simp))).trans (by simp [opcodeTable])

theorem Laws.RoundTrip.badd (bd : BSel) (ba : BSel) (bb : BSel) : Statement (.badd bd ba bb) :=
  (decode_at 17 (by decide) (selects_fields (mop := 0xff) (mrd := 12) (mra := 12) (mrb := 12) (mimm := 0xfff)
    (vop := 0x14) (vrd := 0) (vra := 0) (vrb := 0) (vimm := 0) rfl rfl rfl
    (by simp) (by simp) (by simp) (by simp))).trans (by simp [opcodeTable])

theorem Laws.RoundTrip.bsub (bd : BSel) (ba : BSel) (bb : BSel) : Statement (.bsub bd ba bb) :=
  (decode_at 18 (by decide) (selects_fields (mop := 0xff) (mrd := 12) (mra := 12) (mrb := 12) (mimm := 0xfff)
    (vop := 0x15) (vrd := 0) (vra := 0) (vrb := 0) (vimm := 0) rfl rfl rfl
    (by simp) (by simp) (by simp) (by simp))).trans (by simp [opcodeTable])

theorem Laws.RoundTrip.bmul (bd : BSel) (ra : DSel) (rb : DSel) : Statement (.bmul bd ra rb) :=
  (decode_at 19 (by decide) (selects_fields (mop := 0xff) (mrd := 12) (mra := 8) (mrb := 8) (mimm := 0xfff)
    (vop := 0x16) (vrd := 0) (vra := 0) (vrb := 0) (vimm := 0) rfl rfl rfl
    (by simp) (by simp) (by simp) (by simp))).trans (by simp [opcodeTable])

theorem Laws.RoundTrip.narrow (rd : DSel) (ba : BSel) : Statement (.narrow rd ba) :=
  (decode_at 20 (by decide) (selects_fields (mop := 0xff) (mrd := 8) (mra := 12) (mrb := 15) (mimm := 0xfff)
    (vop := 0x17) (vrd := 0) (vra := 0) (vrb := 0) (vimm := 0) rfl rfl rfl
    (by simp) (by simp) (by simp) (by simp))).trans (by simp [opcodeTable])

theorem Laws.RoundTrip.align (bd : BSel) (bc : BSel) (ra : DSel) (rb : DSel) : Statement (.align bd bc ra rb) :=
  (decode_at 21 (by decide) (selects_fields (mop := 0xff) (mrd := 12) (mra := 8) (mrb := 8) (mimm := 0xffc)
    (vop := 0x18) (vrd := 0) (vra := 0) (vrb := 0) (vimm := 0) rfl rfl rfl
    (by simp) (by simp) (by simp) (by simp))).trans (by simp [opcodeTable])

theorem Laws.RoundTrip.add (rd : DSel) (ra : DSel) (rb : DSel) : Statement (.add rd ra rb) :=
  (decode_at 22 (by decide) (selects_fields (mop := 0xff) (mrd := 8) (mra := 8) (mrb := 8) (mimm := 0xfff)
    (vop := 0x20) (vrd := 0) (vra := 0) (vrb := 0) (vimm := 0) rfl rfl rfl
    (by simp) (by simp) (by simp) (by simp))).trans (by simp [opcodeTable])

theorem Laws.RoundTrip.sub (rd : DSel) (ra : DSel) (rb : DSel) : Statement (.sub rd ra rb) :=
  (decode_at 23 (by decide) (selects_fields (mop := 0xff) (mrd := 8) (mra := 8) (mrb := 8) (mimm := 0xfff)
    (vop := 0x21) (vrd := 0) (vra := 0) (vrb := 0) (vimm := 0) rfl rfl rfl
    (by simp) (by simp) (by simp) (by simp))).trans (by simp [opcodeTable])

theorem Laws.RoundTrip.mul (rd : DSel) (ra : DSel) (rb : DSel) : Statement (.mul rd ra rb) :=
  (decode_at 24 (by decide) (selects_fields (mop := 0xff) (mrd := 8) (mra := 8) (mrb := 8) (mimm := 0xfff)
    (vop := 0x22) (vrd := 0) (vra := 0) (vrb := 0) (vimm := 0) rfl rfl rfl
    (by simp) (by simp) (by simp) (by simp))).trans (by simp [opcodeTable])

theorem Laws.RoundTrip.div (rd : DSel) (rc : DSel) (ra : DSel) (rb : DSel) : Statement (.div rd rc ra rb) :=
  (decode_at 25 (by decide) (selects_fields (mop := 0xff) (mrd := 8) (mra := 8) (mrb := 8) (mimm := 0xff8)
    (vop := 0x23) (vrd := 0) (vra := 0) (vrb := 0) (vimm := 0) rfl rfl rfl
    (by simp) (by simp) (by simp) (by simp))).trans (by simp [opcodeTable])

theorem Laws.RoundTrip.neg (rd : DSel) (ra : DSel) : Statement (.neg rd ra) :=
  (decode_at 26 (by decide) (selects_fields (mop := 0xff) (mrd := 8) (mra := 8) (mrb := 15) (mimm := 0xfff)
    (vop := 0x24) (vrd := 0) (vra := 0) (vrb := 0) (vimm := 0) rfl rfl rfl
    (by simp) (by simp) (by simp) (by simp))).trans (by simp [opcodeTable])

theorem Laws.RoundTrip.iseq (ra : DSel) (rb : DSel) : Statement (.iseq ra rb) :=
  (decode_at 27 (by decide) (selects_fields (mop := 0xff) (mrd := 15) (mra := 8) (mrb := 8) (mimm := 0xfff)
    (vop := 0x28) (vrd := 0) (vra := 0) (vrb := 0) (vimm := 0) rfl rfl rfl
    (by simp) (by simp) (by simp) (by simp))).trans (by simp [opcodeTable])

theorem Laws.RoundTrip.isne (ra : DSel) (rb : DSel) : Statement (.isne ra rb) :=
  (decode_at 28 (by decide) (selects_fields (mop := 0xff) (mrd := 15) (mra := 8) (mrb := 8) (mimm := 0xfff)
    (vop := 0x29) (vrd := 0) (vra := 0) (vrb := 0) (vimm := 0) rfl rfl rfl
    (by simp) (by simp) (by simp) (by simp))).trans (by simp [opcodeTable])

theorem Laws.RoundTrip.islt (ra : DSel) (rb : DSel) : Statement (.islt ra rb) :=
  (decode_at 29 (by decide) (selects_fields (mop := 0xff) (mrd := 15) (mra := 8) (mrb := 8) (mimm := 0xfff)
    (vop := 0x2a) (vrd := 0) (vra := 0) (vrb := 0) (vimm := 0) rfl rfl rfl
    (by simp) (by simp) (by simp) (by simp))).trans (by simp [opcodeTable])

theorem Laws.RoundTrip.isle (ra : DSel) (rb : DSel) : Statement (.isle ra rb) :=
  (decode_at 30 (by decide) (selects_fields (mop := 0xff) (mrd := 15) (mra := 8) (mrb := 8) (mimm := 0xfff)
    (vop := 0x2b) (vrd := 0) (vra := 0) (vrb := 0) (vimm := 0) rfl rfl rfl
    (by simp) (by simp) (by simp) (by simp))).trans (by simp [opcodeTable])

theorem Laws.RoundTrip.isgt (ra : DSel) (rb : DSel) : Statement (.isgt ra rb) :=
  (decode_at 31 (by decide) (selects_fields (mop := 0xff) (mrd := 15) (mra := 8) (mrb := 8) (mimm := 0xfff)
    (vop := 0x2c) (vrd := 0) (vra := 0) (vrb := 0) (vimm := 0) rfl rfl rfl
    (by simp) (by simp) (by simp) (by simp))).trans (by simp [opcodeTable])

theorem Laws.RoundTrip.isge (ra : DSel) (rb : DSel) : Statement (.isge ra rb) :=
  (decode_at 32 (by decide) (selects_fields (mop := 0xff) (mrd := 15) (mra := 8) (mrb := 8) (mimm := 0xfff)
    (vop := 0x2d) (vrd := 0) (vra := 0) (vrb := 0) (vimm := 0) rfl rfl rfl
    (by simp) (by simp) (by simp) (by simp))).trans (by simp [opcodeTable])

theorem Laws.RoundTrip.itod (rd : DSel) : Statement (.itod rd) :=
  (decode_at 33 (by decide) (selects_fields (mop := 0xff) (mrd := 8) (mra := 15) (mrb := 15) (mimm := 0xfff)
    (vop := 0x30) (vrd := 0) (vra := 0) (vrb := 0) (vimm := 0) rfl rfl rfl
    (by simp) (by simp) (by simp) (by simp))).trans (by simp [opcodeTable])

theorem Laws.RoundTrip.dtoi (ra : DSel) : Statement (.dtoi ra) :=
  (decode_at 34 (by decide) (selects_fields (mop := 0xff) (mrd := 15) (mra := 8) (mrb := 15) (mimm := 0xfff)
    (vop := 0x31) (vrd := 0) (vra := 0) (vrb := 0) (vimm := 0) rfl rfl rfl
    (by simp) (by simp) (by simp) (by simp))).trans (by simp [opcodeTable])

theorem Laws.RoundTrip.ftod (rd : DSel) : Statement (.ftod rd) :=
  (decode_at 35 (by decide) (selects_fields (mop := 0xff) (mrd := 8) (mra := 15) (mrb := 15) (mimm := 0xfff)
    (vop := 0x32) (vrd := 0) (vra := 0) (vrb := 0) (vimm := 0) rfl rfl rfl
    (by simp) (by simp) (by simp) (by simp))).trans (by simp [opcodeTable])

theorem Laws.RoundTrip.dtof (ra : DSel) : Statement (.dtof ra) :=
  (decode_at 36 (by decide) (selects_fields (mop := 0xff) (mrd := 15) (mra := 8) (mrb := 15) (mimm := 0xfff)
    (vop := 0x33) (vrd := 0) (vra := 0) (vrb := 0) (vimm := 0) rfl rfl rfl
    (by simp) (by simp) (by simp) (by simp))).trans (by simp [opcodeTable])

theorem Laws.RoundTrip.trunc (rd : DSel) (ra : DSel) : Statement (.trunc rd ra) :=
  (decode_at 37 (by decide) (selects_fields (mop := 0xff) (mrd := 8) (mra := 8) (mrb := 15) (mimm := 0xfff)
    (vop := 0x38) (vrd := 0) (vra := 0) (vrb := 0) (vimm := 0) rfl rfl rfl
    (by simp) (by simp) (by simp) (by simp))).trans (by simp [opcodeTable])

theorem Laws.RoundTrip.floor (rd : DSel) (ra : DSel) : Statement (.floor rd ra) :=
  (decode_at 38 (by decide) (selects_fields (mop := 0xff) (mrd := 8) (mra := 8) (mrb := 15) (mimm := 0xfff)
    (vop := 0x39) (vrd := 0) (vra := 0) (vrb := 0) (vimm := 0) rfl rfl rfl
    (by simp) (by simp) (by simp) (by simp))).trans (by simp [opcodeTable])

theorem Laws.RoundTrip.round (rd : DSel) (ra : DSel) : Statement (.round rd ra) :=
  (decode_at 39 (by decide) (selects_fields (mop := 0xff) (mrd := 8) (mra := 8) (mrb := 15) (mimm := 0xfff)
    (vop := 0x3a) (vrd := 0) (vra := 0) (vrb := 0) (vimm := 0) rfl rfl rfl
    (by simp) (by simp) (by simp) (by simp))).trans (by simp [opcodeTable])

theorem Laws.RoundTrip.roundp (rd : DSel) (ra : DSel) (p : Fin 32) : Statement (.roundp rd ra p) :=
  (decode_at 40 (by decide) (selects_fields (mop := 0xff) (mrd := 8) (mra := 8) (mrb := 15) (mimm := 0xfe0)
    (vop := 0x3b) (vrd := 0) (vra := 0) (vrb := 0) (vimm := 0) rfl rfl rfl
    (by simp) (by simp) (by simp) (by simp))).trans (by simp [opcodeTable])

theorem Laws.RoundTrip.ldzero (rd : DSel) : Statement (.ldzero rd) :=
  (decode_at 41 (by decide) (selects_fields (mop := 0xff) (mrd := 8) (mra := 15) (mrb := 15) (mimm := 0xfff)
    (vop := 0x3c) (vrd := 0) (vra := 0) (vrb := 0) (vimm := 0) rfl rfl rfl
    (by simp) (by simp) (by simp) (by simp))).trans (by simp [opcodeTable])

theorem Laws.RoundTrip.ldmax (rd : DSel) : Statement (.ldmax rd) :=
  (decode_at 42 (by decide) (selects_fields (mop := 0xff) (mrd := 8) (mra := 15) (mrb := 15) (mimm := 0xfff)
    (vop := 0x3d) (vrd := 0) (vra := 0) (vrb := 0) (vimm := 0) rfl rfl rfl
    (by simp) (by simp) (by simp) (by simp))).trans (by simp [opcodeTable])

end Sys2Proof
end

