-- ==== Sys2Proof/Laws/Window.lean ====
section
/-! SUPPORT. The window map, what a window read gives and what a window write leaves, and everything one step can do: a proof
about the window or the step cites these instead of unfolding the map. -/

namespace Sys2Proof.Machine

/-! ## The map, both ways (20_memory.md R51) -/

/-- Where a named word stands; the reserved words have no one address. -/
def winAddr : WinWord → Nat
  | .dWord r w => 4 * r.val + w.val
  | .magWord r j => 0x40 + 16 * r.val + j.val
  | .ctl r => 0x48 + 16 * r.val
  | .cmd => 0x80
  | .status => 0x81
  | .arg => 0x82
  | .res => 0x83
  | .reserved => 0x84

theorem winMap_dWord (r : DSel) (w : Fin 4) : winMap (BitVec.ofNat 8 (4 * r.val + w.val)) = .dWord r w := by
  revert r w; decide

theorem winMap_magWord (r : BSel) (j : Fin 8) :
    winMap (BitVec.ofNat 8 (0x40 + 16 * r.val + j.val)) = .magWord r j := by
  revert r j; decide

theorem winMap_ctl (r : BSel) : winMap (BitVec.ofNat 8 (0x48 + 16 * r.val)) = .ctl r := by revert r; decide

/-- An address is that of the word it names, unless that is a reserved word. -/
theorem toNat_of_winMap (a : BitVec 8) (h : winMap a ≠ .reserved) : a.toNat = winAddr (winMap a) := by
  revert a; decide

/-- Which addresses are reserved. -/
theorem winMap_reserved_iff (a : BitVec 8) : winMap a = .reserved ↔
    (0x20 ≤ a.toNat ∧ a.toNat < 0x40) ∨ 0x84 ≤ a.toNat ∨ (0x40 ≤ a.toNat ∧ a.toNat < 0x80 ∧ 9 ≤ a.toNat % 16) := by
  revert a; decide

/-- The addresses of the decimal words. -/
theorem winMap_of_lt {a : BitVec 8} (h : a.toNat < 0x20) : ∃ r w, winMap a = .dWord r w := by
  rw [winMap, if_pos h]; exact ⟨_, _, rfl⟩

/-- The addresses of the magnitude words and of the control words. -/
theorem winMap_of_wide {a : BitVec 8} (h : 0x40 ≤ a.toNat) (h' : a.toNat < 0x80) (h'' : a.toNat % 16 ≤ 8) :
    (a.toNat % 16 < 8 ∧ ∃ r j, winMap a = .magWord r j) ∨ (a.toNat % 16 = 8 ∧ ∃ r, winMap a = .ctl r) := by
  have e : (a.toNat - 0x40) % 16 = a.toNat % 16 := by omega
  by_cases h8 : a.toNat % 16 < 8
  · refine .inl ⟨h8, ?_⟩
    simp only [winMap, e]
    rw [if_neg (by omega), if_neg (by omega), if_pos h', if_pos h8]; exact ⟨_, _, rfl⟩
  · refine .inr ⟨by omega, ?_⟩
    simp only [winMap, e]
    rw [if_neg (by omega), if_neg (by omega), if_pos h', if_neg h8, if_pos (by omega)]; exact ⟨_, rfl⟩

/-- Different addresses that are not both reserved name different words. -/
theorem winMap_inj {a a' : BitVec 8} (h : winMap a = winMap a') (hr : winMap a ≠ .reserved) : a = a' := by
  apply BitVec.eq_of_toNat_eq
  rw [toNat_of_winMap a hr, toNat_of_winMap a' (h ▸ hr), h]

/-! ## `B[r].CTL` (10_state.md R28) -/

theorem toNat_ctlWord (x : Wide) :
    (ctlWord x).toNat = (if x.sign then 2 ^ 31 else 0) + x.scale.toNat * 2 ^ 16 := by
  have h := x.scale.isLt
  have hs : x.sign.toNat ≤ 1 := by cases x.sign <;> simp
  rw [ctlWord, BitVec.toNat_ofNat, Nat.mod_eq_of_lt (by omega)]
  cases x.sign <;> simp

/-- A control word written and read back keeps SCALE and SIGN and loses every other bit (20_memory.md R52). -/
theorem ctlWord_written (m : Mag) (v : Word) :
    ctlWord ⟨m, v.extractLsb' 16 8, v.getLsbD 31⟩ = v &&& 0x80FF0000 := by
  have hv := v.isLt
  apply BitVec.eq_of_getLsbD_eq
  intro i hi
  have e : ctlWord ⟨m, v.extractLsb' 16 8, v.getLsbD 31⟩ =
      (BitVec.ofBool (v.getLsbD 31) ++ 0#7 ++ v.extractLsb' 16 8 ++ 0#16 : BitVec 32) := by
    apply BitVec.eq_of_toNat_eq
    rw [toNat_ctlWord]
    simp only [toNat_append', BitVec.toNat_ofBool, BitVec.toNat_ofNat]
    cases v.getLsbD 31 <;> simp
    omega
  have hm : ∀ j < 32, (0x80FF0000 : Word).getLsbD j = decide (j = 31 ∨ 16 ≤ j ∧ j < 24) := by decide
  rw [e, BitVec.getLsbD_and, hm i hi]
  simp only [BitVec.getLsbD_append, BitVec.getLsbD_extractLsb', BitVec.getLsbD_zero, BitVec.getLsbD_ofBool]
  by_cases h1 : i < 16
  · simp [h1]; omega
  · by_cases h2 : i < 24
    · simp [h1, h2, show i - 16 < 8 by omega, show 16 ≤ i by omega, show 16 + (i - 16) = i by omega]
    · by_cases h3 : i < 31
      · simp [h1, show ¬ i - 16 < 8 by omega, show i - 16 - 8 < 7 by omega, show ¬ i = 31 by omega]; omega
      · obtain rfl : i = 31 := by omega
        simp

/-! ## Reads after writes -/

/-- A write to one word is not seen at another (20_memory.md R52, R53). -/
theorem winRead_winWrite_other (s : State) {a a' : BitVec 8} (v : Word) (h : a' ≠ a) :
    winRead (winWrite s a v) a' = winRead s a' := by
  have hne : winMap a = winMap a' → winMap a = .reserved := fun e => by
    by_contra hr
    exact h (winMap_inj e hr).symm
  cases ha : winMap a with
  | dWord r w =>
    cases ha' : winMap a' with
    | dWord r' w' =>
      rw [ha, ha'] at hne
      simp only [winRead, winWrite, ha, ha']
      by_cases hr : r = r'
      · subst hr
        rw [readD_writeD_same]
        exact wordOf_setWord_other _ _ fun e => by simp [e] at hne
      · rw [readD_writeD_other _ _ hr]
    | _ => simp only [winRead, winWrite, ha, ha'] <;> rfl
  | magWord r j =>
    cases ha' : winMap a' with
    | magWord r' j' =>
      rw [ha, ha'] at hne
      simp only [winRead, winWrite, ha, ha']
      by_cases hr : r = r'
      · subst hr
        rw [readB_writeB_same]
        exact magWord_setMagWord_other _ _ fun e => by simp [e] at hne
      · rw [readB_writeB_other _ _ hr]
    | ctl r' =>
      simp only [winRead, winWrite, ha, ha']
      by_cases hr : r = r'
      · subst hr; rw [readB_writeB_same]; rfl
      · rw [readB_writeB_other _ _ hr]
    | _ => simp only [winRead, winWrite, ha, ha'] <;> rfl
  | ctl r =>
    cases ha' : winMap a' with
    | magWord r' j' =>
      simp only [winRead, winWrite, ha, ha']
      by_cases hr : r = r'
      · subst hr; rw [readB_writeB_same]
      · rw [readB_writeB_other _ _ hr]
    | ctl r' =>
      simp only [winRead, winWrite, ha, ha']
      rw [readB_writeB_other _ _ fun e => by simp [ha, ha', e] at hne]
    | _ => simp only [winRead, winWrite, ha, ha'] <;> rfl
  | arg =>
    cases ha' : winMap a' with
    | arg => rw [ha, ha'] at hne; cases hne rfl
    | _ => simp only [winRead, winWrite, ha, ha'] <;> rfl
  | _ => simp only [winRead, winWrite, ha]

/-- A write to a whole word is read back (20_memory.md R52, R53). -/
theorem winRead_winWrite_same (s : State) {a : BitVec 8} (v : Word)
    (h : (∃ r w, winMap a = .dWord r w) ∨ (∃ r j, winMap a = .magWord r j) ∨ winMap a = .arg) :
    winRead (winWrite s a v) a = v := by
  rcases h with ⟨r, w, h⟩ | ⟨r, j, h⟩ | h <;> simp [winRead, winWrite, h]

/-- A write to a control word keeps SCALE and SIGN (20_memory.md R52, R53). -/
theorem winRead_winWrite_ctl (s : State) {a : BitVec 8} (v : Word) {r : BSel} (h : winMap a = .ctl r) :
    winRead (winWrite s a v) a = v &&& 0x80FF0000 := by
  rw [winRead, winWrite, h]; simp only [readB_writeB_same]; exact ctlWord_written _ _

/-- A write that the window ignores (20_memory.md R52). -/
theorem winWrite_ignored (s : State) {a : BitVec 8} (v : Word)
    (h : winMap a = .reserved ∨ winMap a = .status ∨ winMap a = .res ∨ winMap a = .cmd) : winWrite s a v = s := by
  rcases h with h | h | h | h <;> simp [winWrite, h]

@[simp] theorem winWrite_pending (s : State) (a : BitVec 8) (v : Word) : (winWrite s a v).pending = s.pending := by
  unfold winWrite; split <;> rfl

@[simp] theorem winWrite_returned (s : State) (a : BitVec 8) (v : Word) : (winWrite s a v).returned = s.returned := by
  unfold winWrite; split <;> rfl

@[simp] theorem winWrite_code (s : State) (a : BitVec 8) (v : Word) : (winWrite s a v).code = s.code := by
  unfold winWrite; split <;> rfl

/-! ## Bus accesses (20_memory.md R55) -/

/-- Everything a bus access can be. -/
theorem busAccess_cases (offset size : Nat) (k : BitVec 8 → StepResult) :
    (∃ a : BitVec 8, offset = 4 * a.toNat ∧ size = 4 ∧ busAccess offset size k = k a) ∨
      (size = 4 ∧ offset % 4 = 0 ∧ 1024 ≤ offset ∧ busAccess offset size k = .fault .outsideWindow) ∨
      ((size ≠ 4 ∨ offset % 4 ≠ 0) ∧ busAccess offset size k = .refused .notAlignedWord) := by
  unfold busAccess
  simp only [Config.windowWords]
  split
  · rename_i h
    split
    · refine .inl ⟨_, ?_, h.1, rfl⟩
      rw [BitVec.toNat_ofNat]; omega
    · exact .inr (.inl ⟨h.1, h.2, by omega, rfl⟩)
  · exact .inr (.inr ⟨by omega, rfl⟩)

/-- The access of window word `a`. -/
@[simp] theorem busAccess_word (a : BitVec 8) (k : BitVec 8 → StepResult) : busAccess (4 * a.toNat) 4 k = k a := by
  have h := a.isLt
  rw [busAccess, if_pos (by omega), if_pos (by simp only [Config.windowWords]; omega),
    Nat.mul_div_cancel_left _ (by omega), BitVec.ofNat_toNat, BitVec.setWidth_eq]

/-! ## The step (00_scope.md R10) -/

theorem step_of_pending {s : State} {e : HostEvent} {rest : List HostEvent} (h : s.pending = e :: rest) :
    step s = serve { s with pending := rest } e := by
  rw [step, h]

theorem step_idle {s : State} (h : s.pending = []) : step s = .next s := by
  rw [step, h]

/-- Everything one event can do: run a command word, write a word, read one, reset, fault or be refused. -/
theorem serve_cases (s : State) (e : HostEvent) :
    (∃ v, (e = .winWrite 0x80 v ∨ e = .busWrite 0x200 4 v) ∧ serve s e = runCommand v s) ∨
      (∃ a v, a ≠ 0x80 ∧ (e = .winWrite a v ∨ e = .busWrite (4 * a.toNat) 4 v) ∧
        serve s e = .next (winWrite s a v)) ∨
      (∃ a, (e = .winRead a ∨ e = .busRead (4 * a.toNat) 4) ∧ serve s e = .next (serveRead s a)) ∨
      (e = .reset ∧ serve s e = .next (serveReset s)) ∨
      (serve s e = .fault .outsideWindow ∨ serve s e = .refused .notAlignedWord) := by
  cases e with
  | winRead a => exact .inr (.inr (.inl ⟨a, .inl rfl, rfl⟩))
  | winWrite a v =>
    by_cases h : a = 0x80
    · subst h; exact .inl ⟨v, .inl rfl, rfl⟩
    · exact .inr (.inl ⟨a, v, h, .inl rfl, if_neg h⟩)
  | busRead o n =>
    simp only [serve]
    rcases busAccess_cases o n fun a => .next (serveRead s a) with ⟨a, rfl, rfl, h⟩ | ⟨-, -, -, h⟩ | ⟨-, h⟩
    · exact .inr (.inr (.inl ⟨a, .inr rfl, h⟩))
    · exact .inr (.inr (.inr (.inr (.inl h))))
    · exact .inr (.inr (.inr (.inr (.inr h))))
  | busWrite o n v =>
    simp only [serve]
    rcases busAccess_cases o n fun a => serveWrite s a v with ⟨a, rfl, rfl, h⟩ | ⟨-, -, -, h⟩ | ⟨-, h⟩
    · by_cases ha : a = 0x80
      · subst ha; exact .inl ⟨v, .inr rfl, h⟩
      · exact .inr (.inl ⟨a, v, ha, .inr rfl, h.trans (if_neg ha)⟩)
    · exact .inr (.inr (.inr (.inr (.inl h))))
    · exact .inr (.inr (.inr (.inr (.inr h))))
  | reset => exact .inr (.inr (.inr (.inl ⟨rfl, rfl⟩)))

end Sys2Proof.Machine
end

