-- ==== Sys2Proof/Tests/Slice0.lean ====
section
/-! SUPPORT. Tests: the well-formedness smoke test, every constructor's decoding from a word of the spec, one or two steps of
each command with the values that 95_test_vectors.md and 96_test_vectors_continued.md give, the window, and, for each
statement with hypotheses, a concrete state and operands that meet them, clause by clause at the boundary values. -/

open Sys2Proof Sys2Proof.Machine

namespace Sys2Proof.Tests

/-! ## Helpers -/

/-- A decimal from its four words, word 0 first, as the spec's vectors print it. -/
def dec (w0 w1 w2 w3 : Word) : Dec := w3 ++ w2 ++ w1 ++ w0

/-- `MAX` of the vectors. -/
def maxDec : Dec := dec 0xFFFFFFFF 0xFFFFFFFF 0xFFFFFFFF 0

/-- A malformed decimal of the vectors: scale 29. -/
def bad : Dec := dec 1 0 0 0x001D0000

/-- The reset state with `D[0]` and `D[1]` set. -/
def two (a b : Dec) : State := { State.reset with d := #v[a, b, 0, 0, 0, 0, 0, 0] }

/-- The reset state with `B[0]` and `B[1]` set. -/
def wide (x y : Wide) : State := { State.reset with b := #v[x, y, ⟨0, 0, false⟩, ⟨0, 0, false⟩] }

/-- The reset state with `ARG` set. -/
def argIs (v : Word) : State := { State.reset with arg := v }

/-- The next state, when there is one. -/
def took : StepResult → Option State
  | .next t => some t
  | .fault _ => none
  | .refused _ => none

theorem eq_next {r : StepResult} {t : State} (h : took r = some t) : r = .next t := by
  cases r <;> simp_all [took]

/-- The state after a command word is written to CMD. -/
def after (c : Word) (s : State) : State := (took (serve s (.winWrite 0x80 c))).getD State.reset

/-- The status and `D[r]` after a command word. -/
def gotD (r : DSel) (c : Word) (s : State) : Nat × Dec := ((after c s).code.toNat, (after c s).d.get r)

/-- The status and `B[r]` after a command word. -/
def gotB (r : BSel) (c : Word) (s : State) : Nat × Wide := ((after c s).code.toNat, (after c s).b.get r)

/-- The status and `RES` after a command word. -/
def gotRes (c : Word) (s : State) : Nat × Word := ((after c s).code.toNat, (after c s).res)

/-- The decoder gives this instruction, and the encoder gives the word back. -/
def reads (c : Word) (i : Instr) : Bool := (decode c).toOption == some i && encode i == c

/-- The decoder refuses the word. -/
def refuses (c : Word) : Bool :=
  match decode c with
  | .ok _ => false
  | .error _ => true

/-- What one event answers, as numbers: 0 a next state, 1 the fault, 2 the refusal of a bus access. -/
def kind : StepResult → Nat
  | .next _ => 0
  | .fault .outsideWindow => 1
  | .refused .notAlignedWord => 2
  | .refused _ => 3

/-- Window word `a` after a write of `v` to window word `w` from reset. -/
def readBack (w : BitVec 8) (v : Word) (a : BitVec 8) : Option Word :=
  (took (serve State.reset (.winWrite w v))).map fun t => winRead t a

/-! ## Well-formedness refuses each ill-formed immediate (30_encoding.md R74) -/

theorem test_mgetb_index : Instr.wellFormed (.mgetb 0 95) = true ∧ Instr.wellFormed (.mgetb 0 96) = false := by decide
theorem test_msetb_index : Instr.wellFormed (.msetb 0 0 95) = true ∧ Instr.wellFormed (.msetb 0 0 96) = false := by decide
theorem test_mclrb_index : Instr.wellFormed (.mclrb 0 0 95) = true ∧ Instr.wellFormed (.mclrb 0 0 96) = false := by decide
theorem test_minvb_index : Instr.wellFormed (.minvb 0 0 95) = true ∧ Instr.wellFormed (.minvb 0 0 127) = false := by decide
theorem test_roundp_places : Instr.wellFormed (.roundp 0 0 28) = true ∧ Instr.wellFormed (.roundp 0 0 29) = false := by decide

/-! ## Words of the spec decode to what they stand for (40_bitfield.md to 47_constants.md, 95, 96) -/

theorem test_decode_constants : reads 0x00000000 .nop ∧ reads 0x3C500000 (.ldzero 5) ∧ reads 0x3D500000 (.ldmax 5) := by
  decide

theorem test_decode_wordBits : reads 0x01000071 (.wgetb 0 3 17) ∧ reads 0x02200078 (.wsetb 2 0 3 24) ∧
    reads 0x0320007F (.wclrb 2 0 3 31) ∧ reads 0x04320020 (.winvb 3 2 1 0) := by decide

theorem test_decode_mantissaBits : reads 0x0501005F (.mgetb 1 95) ∧ reads 0x0620007F (.msetb 2 0 127) ∧
    reads 0x07210020 (.mclrb 2 1 32) ∧ reads 0x08210040 (.minvb 2 1 64) := by decide

theorem test_decode_fields : reads 0x09030000 (.getscale 3) ∧ reads 0x0A2000FF (.setscale 2 0 255) ∧
    reads 0x0B040000 (.getsign 4) ∧ reads 0x0C210001 (.setsign 2 1 1) := by decide

theorem test_decode_wide : reads 0x10310060 (.bshl 3 1 96) ∧ reads 0x11300FFF (.bshr 3 0 4095) ∧
    reads 0x12020000 (.biszero 2) ∧ reads 0x13001000 (.bcmp 0 1) ∧ reads 0x14201000 (.badd 2 0 1) ∧
    reads 0x15210000 (.bsub 2 1 0) ∧ reads 0x16001000 (.bmul 0 0 1) ∧ reads 0x17220000 (.narrow 2 2) ∧
    reads 0x18201003 (.align 2 3 0 1) := by decide

theorem test_decode_arith : reads 0x20201000 (.add 2 0 1) ∧ reads 0x21321000 (.sub 3 2 1) ∧
    reads 0x22310000 (.mul 3 1 0) ∧ reads 0x23467005 (.div 4 5 6 7) ∧ reads 0x24320000 (.neg 3 2) := by decide

theorem test_decode_compare : reads 0x28023000 (.iseq 2 3) ∧ reads 0x29001000 (.isne 0 1) ∧
    reads 0x2A001000 (.islt 0 1) ∧ reads 0x2B001000 (.isle 0 1) ∧ reads 0x2C001000 (.isgt 0 1) ∧
    reads 0x2D001000 (.isge 0 1) := by decide

theorem test_decode_convert : reads 0x30700000 (.itod 7) ∧ reads 0x31040000 (.dtoi 4) ∧ reads 0x32200000 (.ftod 2) ∧
    reads 0x33010000 (.dtof 1) := by decide

theorem test_decode_round : reads 0x38300000 (.trunc 3 0) ∧ reads 0x39200000 (.floor 2 0) ∧
    reads 0x3A540000 (.round 5 4) ∧ reads 0x3B10001C (.roundp 1 0 28) := by decide

/-- The decoder table of 96_test_vectors_continued.md section 2.8: the words that no row selects. -/
theorem test_decode_refused : [0x00000001#32, 0x0D000000, 0x19000000, 0xFF000000, 0x20801000, 0x20200001, 0x23201008,
    0x23201013, 0x10400001, 0x01010080, 0x3B100020, 0x0C000002, 0x30010000, 0x31100000, 0x17040000, 0x18001004,
    0x12040000].all refuses = true := by decide

/-- The interface of the host: the word of a table row, and the step that runs it (log 5). -/
theorem test_table_word : decodeTableWord 32 0x20201000 = some (.add 2 0 1) ∧ decodeTableWord 32 0x20801000 = none ∧
    took (step (State.reset.withFetchWord 32 0x3D500000)) = took (exec (.ldmax 5) State.reset) ∧
    took (step State.reset) = some State.reset := by decide

/-! ## Bit fields (95_test_vectors.md section 2.1): `D[0]` = -2.45, `D[1]` = MAX -/

/-- The start state of the section. -/
def bits : State := two (dec 0xF5 0 0 0x80020000) maxDec

theorem test_wgetb : gotRes 0x01000000 bits = (0, 1) ∧ gotRes 0x01000001 bits = (0, 0) ∧
    gotRes 0x0100007F bits = (0, 1) ∧ gotRes 0x01000071 bits = (0, 1) := by decide
theorem test_wsetb : gotD 2 0x02200001 bits = (0, dec 0xF7 0 0 0x80020000) ∧
    gotD 2 0x02200078 bits = (0, dec 0xF5 0 0 0x81020000) := by decide
theorem test_wclrb : gotD 2 0x0320007F bits = (0, dec 0xF5 0 0 0x00020000) := by decide
theorem test_winvb : gotD 2 0x04200070 bits = (0, dec 0xF5 0 0 0x80030000) := by decide
theorem test_mgetb : gotRes 0x0501005F bits = (0, 1) ∧ gotRes 0x05000008 bits = (0, 0) ∧
    gotRes 0x05010060 bits = (5, 0) := by decide
theorem test_msetb : gotD 2 0x0620005F bits = (0, dec 0xF5 0 0x80000000 0x80020000) ∧
    gotD 2 0x0620007F bits = (5, 0) := by decide
theorem test_mclrb : gotD 2 0x07210020 bits = (0, dec 0xFFFFFFFF 0xFFFFFFFE 0xFFFFFFFF 0) ∧
    gotD 2 0x07210060 bits = (5, 0) := by decide
theorem test_minvb : gotD 2 0x08210040 bits = (0, dec 0xFFFFFFFF 0xFFFFFFFF 0xFFFFFFFE 0) ∧
    gotD 2 0x08210060 bits = (5, 0) := by decide
theorem test_getscale : gotRes 0x09000000 bits = (0, 2) ∧ gotRes 0x09000000 (two bad 0) = (0, 29) := by decide
theorem test_setscale : gotD 2 0x0A20001C bits = (0, dec 0xF5 0 0 0x801C0000) ∧
    gotD 2 0x0A2000FF bits = (0, dec 0xF5 0 0 0x80FF0000) := by decide
theorem test_getsign : gotRes 0x0B000000 bits = (0, 1) ∧ gotRes 0x0B010000 bits = (0, 0) := by decide
theorem test_setsign : gotD 2 0x0C200000 bits = (0, dec 0xF5 0 0 0x00020000) ∧
    gotD 2 0x0C210001 bits = (0, dec 0xFFFFFFFF 0xFFFFFFFF 0xFFFFFFFF 0x80000000) := by decide

/-! ## Wide integers (95_test_vectors.md section 2.2): `B[0]` = -(2^256 - 1) at scale 5, `B[1]` = 1 -/

/-- The start state of the section. -/
def wides : State := wide ⟨BitVec.allOnes 256, 5, true⟩ ⟨1, 0, false⟩

theorem test_bshl : gotB 3 0x10300001 wides = (0, ⟨BitVec.ofNat 256 (2 ^ 256 - 2), 5, true⟩) ∧
    gotB 3 0x10310060 wides = (0, ⟨0x1000000000000000000000000, 0, false⟩) ∧
    gotB 3 0x10310100 wides = (0, ⟨0, 0, false⟩) := by decide
theorem test_bshr : gotB 3 0x113000FF wides = (0, ⟨1, 5, true⟩) ∧ gotB 3 0x11300FFF wides = (0, ⟨0, 5, true⟩) := by
  decide
theorem test_biszero : gotRes 0x12000000 wides = (0, 0) ∧ gotRes 0x12020000 wides = (0, 1) := by decide
theorem test_bcmp : gotRes 0x13001000 wides = (0, 1) ∧ gotRes 0x13010000 wides = (0, 0xFFFFFFFF) ∧
    gotRes 0x13011000 wides = (0, 0) := by decide
theorem test_badd : gotB 2 0x14211000 wides = (0, ⟨2, 0, false⟩) ∧
    gotB 2 0x14201000 wides = (1, ⟨0, 0, false⟩) := by decide
theorem test_bsub : gotB 2 0x15201000 wides = (0, ⟨BitVec.ofNat 256 (2 ^ 256 - 2), 5, true⟩) ∧
    gotB 2 0x15200000 wides = (0, ⟨0, 5, true⟩) ∧ gotB 2 0x15210000 wides = (5, ⟨0, 0, false⟩) := by decide
theorem test_bmul : gotB 0 0x16001000
    (two (dec 0xFFFFFFFF 0xFFFFFFFF 0xFFFFFFFF 0x801C0000) (dec 0xFFFFFFFF 0xFFFFFFFF 0xFFFFFFFF 0x001C0000)) =
    (0, ⟨BitVec.ofNat 256 (2 ^ 192 - 2 ^ 97 + 1), 56, true⟩) := by decide
theorem test_narrow : gotD 2 0x17200000 (wide ⟨BitVec.ofNat 256 (2 ^ 192 - 2 ^ 97 + 1), 56, true⟩ ⟨0, 0, false⟩) =
      (0, dec 0x096EE456 0x359A3B3E 0xCAD2F7F5 0x801B0000) ∧
    gotD 2 0x17200000 (wide ⟨BitVec.allOnes 256, 106, false⟩ ⟨0, 0, false⟩) = (2, 0) := by decide
theorem test_narrow_ties : narrow false (10 * (2 ^ 96 - 1) + 4) 1 = .ok maxDec ∧
    narrow false (10 * (2 ^ 96 - 1) + 5) 1 = .error .tooBig ∧ narrow false 5 29 = .error .tooSmall ∧
    narrow false 15 29 = .ok (dec 2 0 0 0x001C0000) := by decide

/-! ## Scale alignment (95_test_vectors.md section 2.3) -/

theorem test_align : gotB 0 0x18001001 (two (dec 0x6E 0 0 0x80020000) (dec 0x89D 0 0 0x00030000)) = (0, ⟨1100, 3, true⟩) ∧
    gotB 1 0x18001001 (two (dec 0x6E 0 0 0x80020000) (dec 0x89D 0 0 0x00030000)) = (0, ⟨2205, 3, false⟩) := by
  decide
theorem test_align_same : gotB 2 0x18201002 (two (dec 0x6E 0 0 0x00020000) (dec 0x89D 0 0 0x00030000)) =
    (0, ⟨2205, 3, false⟩) := by decide

/-! ## Arithmetic (95_test_vectors.md section 2.4) -/

theorem test_add : gotD 2 0x20201000 (two (dec 0x6E 0 0 0x00020000) (dec 0x89D 0 0 0x00030000)) =
      (0, dec 0xCE9 0 0 0x00030000) ∧
    gotD 2 0x20201000 (two (dec 5 0 0 0) (dec 0x1F4 0 0 0x80020000)) = (0, dec 0 0 0 0x00020000) := by decide
theorem test_add_max : gotD 2 0x20201000 (two maxDec (dec 4 0 0 0x00010000)) = (0, maxDec) ∧
    gotD 2 0x20201000 (two maxDec (dec 5 0 0 0x00010000)) = (1, 0) ∧ gotD 2 0x20201000 (two bad 0) = (4, 0) := by
  decide
theorem test_sub : gotD 2 0x21201000 (two (dec 1 0 0 0) (dec 0x10000001 0x3E250261 0x204FCE5E 0x001C0000)) =
      (0, dec 1 0 0 0x801C0000) ∧
    gotD 2 0x21201000 (two (dec 0 0 0 0x80000000) 0) = (0, dec 0 0 0 0x80000000) := by decide
theorem test_mul : gotD 2 0x22201000 (two (dec 0x19 0 0 0x00010000) (dec 4 0 0 0x80000000)) =
    (0, dec 0x64 0 0 0x80010000) ∧ gotD 2 0x22201000 (two maxDec (dec 2 0 0 0)) = (1, 0) := by decide
theorem test_mul_small : gotD 2 0x22201000 (two (dec 5 0 0 0x001C0000) (dec 1 0 0 0x00010000)) = (2, 0) ∧
    gotD 2 0x22201000 (two (dec 6 0 0 0x001C0000) (dec 1 0 0 0x00010000)) = (0, dec 1 0 0 0x001C0000) := by
  decide
theorem test_div : gotD 2 0x23201003 (two (dec 0x32 0 0 0) (dec 3 0 0 0)) =
      (0, dec 0x1AAAAAAB 0x679303F7 0x35DA57F2 0x001B0000) ∧
    gotD 3 0x23201003 (two (dec 0x32 0 0 0) (dec 3 0 0 0)) = (0, dec 2 0 0 0x001C0000) := by decide
theorem test_div_same : gotD 2 0x23201002 (two (dec 7 0 0 0) (dec 2 0 0 0)) = (0, dec 0x23 0 0 0x00010000) ∧
    gotD 1 0x23001001 (two (dec 7 0 0 0) (dec 2 0 0 0)) = (0, dec 0 0 0 0x00010000) ∧
    gotD 2 0x23201003 (two (dec 1 0 0 0) 0) = (3, 0) := by decide
theorem test_neg : gotD 1 0x24100000 (two (dec 0x13 0 0 0x80010000) 0) = (0, dec 0x13 0 0 0x00010000) ∧
    gotD 1 0x24100000 (two 0 0) = (0, dec 0 0 0 0x80000000) := by decide

/-! ## Comparison (96_test_vectors_continued.md section 2.5) -/

/-- `D[0]` = -1, `D[1]` = 0.5: the pair of conflict C4. -/
def less : State := two (dec 1 0 0 0x80000000) (dec 5 0 0 0x00010000)
/-- `D[0]` = 1.10, `D[1]` = 1.100. -/
def same : State := two (dec 0x6E 0 0 0x00020000) (dec 0x44C 0 0 0x00030000)
/-- `D[0]` = 2.5, `D[1]` = 2.45. -/
def more : State := two (dec 0x19 0 0 0x00010000) (dec 0xF5 0 0 0x00020000)

theorem test_iseq : gotRes 0x28001000 less = (0, 0) ∧ gotRes 0x28001000 same = (0, 1) ∧
    gotRes 0x28001000 (two 0 (dec 0 0 0 0x80050000)) = (0, 1) := by decide
theorem test_isne : gotRes 0x29001000 less = (0, 1) ∧ gotRes 0x29001000 same = (0, 0) := by decide
theorem test_islt : gotRes 0x2A001000 less = (0, 1) ∧ gotRes 0x2A001000 same = (0, 0) ∧
    gotRes 0x2A001000 more = (0, 0) := by decide
theorem test_isle : gotRes 0x2B001000 less = (0, 1) ∧ gotRes 0x2B001000 same = (0, 1) ∧
    gotRes 0x2B001000 more = (0, 0) := by decide
theorem test_isgt : gotRes 0x2C001000 less = (0, 0) ∧ gotRes 0x2C001000 same = (0, 0) ∧
    gotRes 0x2C001000 more = (0, 1) := by decide
theorem test_isge : gotRes 0x2D001000 less = (0, 0) ∧ gotRes 0x2D001000 same = (0, 1) ∧
    gotRes 0x2D001000 more = (0, 1) := by decide

/-! ## Conversion (96_test_vectors_continued.md section 2.6) -/

theorem test_itod : gotD 0 0x30000000 (argIs 0x80000000) = (0, dec 0x80000000 0 0 0x80000000) ∧
    gotD 0 0x30000000 (argIs 0xFFFFFFFF) = (0, dec 1 0 0 0x80000000) := by decide
theorem test_dtoi : gotRes 0x31000000 (two (dec 5 5 0 0x80010000) 0) = (0, 0x80000000) ∧
    gotRes 0x31000000 (two (dec 0x80000000 0 0 0) 0) = (4, 0) ∧
    gotRes 0x31000000 (two (dec 0xFFFFFFFF 4 0 0x00010000) 0) = (0, 0x7FFFFFFF) := by decide
theorem test_ftod : gotD 0 0x32000000 (argIs 0x3DCCCCCD) = (0, dec 0x160334B9 0xF176018A 0x0052B7D2 0x001B0000) ∧
    gotD 0 0x32000000 (argIs 0x107D87B6) = (0, dec 1 0 0 0x001C0000) := by decide
theorem test_ftod_refused : gotD 0 0x32000000 (argIs 0x6F800000) = (4, 0) ∧
    gotD 0 0x32000000 (argIs 0xFF800000) = (4, 0) ∧
    gotD 0 0x32000000 (argIs 0x6F7FFFFF) = (0, dec 0 0 0xFFFFFF00 0) := by decide
theorem test_dtof : gotRes 0x33000000 (two maxDec 0) = (0, 0x6F800000) ∧
    gotRes 0x33000000 (two (dec 1 0 0 0x001C0000) 0) = (0, 0x10FD87B6) ∧
    gotRes 0x33000000 (two (dec 0x01000001 0 0 0) 0) = (0, 0x4B800000) := by decide
theorem test_dtof_sign : gotRes 0x33000000 (two (dec 0 0 0 0x80000000) 0) = (0, 0x80000000) ∧
    gotRes 0x33000000 (two (dec 0x19 0 0 0x80010000) 0) = (0, 0xC0200000) := by decide

/-! ## Rounding (96_test_vectors_continued.md section 2.7), constants (section 2.8) -/

theorem test_trunc : gotD 1 0x38100000 (two (dec 0x13 0 0 0x80010000) 0) = (0, dec 1 0 0 0x80000000) ∧
    gotD 1 0x38100000 (two (dec 5 0 0 0x80010000) 0) = (0, dec 0 0 0 0x80000000) := by decide
theorem test_floor : gotD 1 0x39100000 (two (dec 0x13 0 0 0x80010000) 0) = (0, dec 2 0 0 0x80000000) ∧
    gotD 1 0x39100000 (two (dec 0x14 0 0 0x80010000) 0) = (0, dec 2 0 0 0x80000000) := by decide
theorem test_round : gotD 1 0x3A100000 (two (dec 0x19 0 0 0x00010000) 0) = (0, dec 2 0 0 0) ∧
    gotD 1 0x3A100000 (two (dec 0x23 0 0 0x80010000) 0) = (0, dec 4 0 0 0x80000000) := by decide
theorem test_roundp : gotD 1 0x3B100001 (two (dec 0xF5 0 0 0x00020000) 0) = (0, dec 0x18 0 0 0x00010000) ∧
    gotD 1 0x3B10001C (two (dec 0xF5 0 0 0x00020000) 0) = (0, dec 0xF5 0 0 0x00020000) ∧
    gotD 1 0x3B10001D (two (dec 0xF5 0 0 0x00020000) 0) = (5, 0) := by decide
theorem test_constants : gotD 5 0x3C500000 bits = (0, 0) ∧ gotD 5 0x3D500000 bits = (0, maxDec) ∧
    after 0 { bits with code := 3 } = bits := by decide

/-! ## The window, the bus, reset (96_test_vectors_continued.md section 2.8; 20_memory.md R54, R55) -/

theorem test_window : readBack 0x20 0x12345678 0x20 = some 0 ∧ readBack 0x49 1 0x49 = some 0 ∧
    readBack 0x48 0xFFFFFFFF 0x48 = some 0x80FF0000 ∧ readBack 0x81 7 0x81 = some 0 ∧ readBack 0x83 0x55 0x83 = some 0 ∧
    readBack 0x84 1 0x84 = some 0 ∧ readBack 0xFF 1 0xFF = some 0 ∧ readBack 0x03 0xFFFFFFFF 0x03 = some 0xFFFFFFFF ∧
    readBack 0x47 0xA5A5A5A5 0x47 = some 0xA5A5A5A5 ∧ readBack 0x47 0xA5A5A5A5 0x80 = some 0 := by decide

/-- The map at its edges (20_memory.md R51). -/
theorem test_winMap : winMap 0x1F = .dWord 7 3 ∧ winMap 0x20 = .reserved ∧ winMap 0x3F = .reserved ∧
    winMap 0x40 = .magWord 0 0 ∧ winMap 0x47 = .magWord 0 7 ∧ winMap 0x48 = .ctl 0 ∧ winMap 0x49 = .reserved ∧
    winMap 0x4F = .reserved ∧ winMap 0x77 = .magWord 3 7 ∧ winMap 0x78 = .ctl 3 ∧ winMap 0x7F = .reserved ∧
    winMap 0x80 = .cmd ∧ winMap 0x81 = .status ∧ winMap 0x82 = .arg ∧ winMap 0x83 = .res ∧ winMap 0x84 = .reserved ∧
    winMap 0xFF = .reserved := by decide

theorem test_bus : took (serve bits (.busWrite 0x200 4 0x24100000)) = took (exec (.neg 1 0) bits) ∧
    kind (serve bits (.busRead 1020 4)) = 0 ∧ kind (serve bits (.busRead 1024 4)) = 1 ∧
    kind (serve bits (.busRead 2 4)) = 2 ∧ kind (serve bits (.busWrite 4 2 0)) = 2 := by decide

theorem test_reset : took (serve { bits with code := 3, pending := [.winRead 1], returned := [9] } .reset) =
    some { State.reset with pending := [.winRead 1], returned := [9] } := by decide

theorem test_image : imageByte .littleEndian (dec 0x04030201 0 0 0x80020000) 0 = 1 ∧
    imageByte .bigEndian (dec 0x04030201 0 0 0x80020000) 0 = 4 ∧
    imageByte .littleEndian (dec 0x04030201 0 0 0x80020000) 15 = 0x80 := by decide

/-! ## Witnesses: states and operands that meet the hypotheses of the statements -/

theorem witness_AtMostOneRowMatches : ∃ r ∈ opcodeTable, (0x20201000 : Word) &&& r.mask = r.value := by
  decide

/-- The opcode ranges at both ends, and beside them opcodes that are listed. -/
theorem witness_IllegalCommandWords :
    (∀ op ∈ [0x0D, 0x0F, 0x19, 0x1F, 0x25, 0x27, 0x2E, 0x2F, 0x34, 0x37, 0x3E, 0xFF],
      opcodeListed (BitVec.ofNat 8 op) = false ∧ gotD 0 (BitVec.ofNat 32 (op * 2 ^ 24)) bits = (5, bits.d.get 0)) ∧
    (∀ op ∈ [0x0C, 0x10, 0x18, 0x20, 0x24, 0x28, 0x2D, 0x30, 0x33, 0x38, 0x3D], opcodeListed (BitVec.ofNat 8 op) = true) ∧
    (∀ r ∈ opcodeTable, (1 : Word) &&& r.mask ≠ r.value) ∧
    ((decode 0x05000060).toOption = some (.mgetb 0 96) ∧ (Instr.mgetb 0 96).wellFormed = false) ∧
    ((decode 0x3B10001D).toOption = some (.roundp 1 0 29) ∧ (Instr.roundp 1 0 29).wellFormed = false) := by
  decide

theorem witness_StepRunsDecodedCommand :
    ({ bits with pending := [.winWrite 0x80 0x20201000, .reset] } : State).pending = [.winWrite 0x80 0x20201000, .reset] ∧
    ({ bits with pending := [.busWrite 0x200 4 0x20201000] } : State).pending = [.busWrite 0x200 4 0x20201000] ∧
    (decode 0x20201000).toOption = some (.add 2 0 1) ∧
    took (step { bits with pending := [.busWrite 0x200 4 0x20201000] }) = took (exec (.add 2 0 1) bits) := by
  decide

/-- Every class of address that `WinRead` and `WinWrite` name, at its ends. -/
theorem witness_WindowReads_WindowWrites :
    (∀ a ∈ [0x00#8, 0x1F], a ≠ 0x80 ∧ a.toNat < 0x20) ∧
    (∀ a ∈ [0x40#8, 0x47, 0x70, 0x77], a ≠ 0x80 ∧ 0x40 ≤ a.toNat ∧ a.toNat < 0x80 ∧ a.toNat % 16 < 8) ∧
    (∀ a ∈ [0x48#8, 0x78], 0x40 ≤ a.toNat ∧ a.toNat < 0x80 ∧ a.toNat % 16 = 8) ∧
    (∀ a ∈ [0x20#8, 0x3F, 0x84, 0xFF, 0x49, 0x4F, 0x79, 0x7F], winRead bits a = 0 ∧ ((0x20 ≤ a.toNat ∧ a.toNat < 0x40) ∨
      0x84 ≤ a.toNat ∨ (0x40 ≤ a.toNat ∧ a.toNat < 0x80 ∧ 9 ≤ a.toNat % 16))) ∧
    (∀ a ∈ [0x20#8, 0x3F, 0x84, 0xFF, 0x49, 0x7F, 0x81, 0x83], took (serve bits (.winWrite a 0xFFFFFFFF)) = some bits) ∧
    took (serve bits (.winWrite 0x80 0x00000001)) = some { bits with code := 5 } ∧
    took (serve bits (.winWrite 0x82 7)) = some { bits with arg := 7 } := by decide

theorem witness_WindowShowsWholeState : ∀ a : BitVec 8, winRead bits a = winRead { bits with pending := [.reset] } a := by
  decide

theorem witness_BusAccessesAreAlignedWords : ((2 : Nat) ≠ 4 ∨ 4 % 4 ≠ 0) ∧ ((4 : Nat) ≠ 4 ∨ 3 % 4 ≠ 0) ∧
    kind (serve bits (.busWrite 4 2 0)) = 2 ∧ kind (serve bits (.busRead 3 4)) = 2 ∧
    took (serve bits (.busWrite 1020 4 0)) = some bits := by decide

theorem witness_ReadReturnsTheWrittenValue :
    ({ bits with pending := [.winWrite 0x47 9, .winRead 0x47] } : State).pending = [.winWrite 0x47 9, .winRead 0x47] ∧
    (0x40 ≤ (0x47 : BitVec 8).toNat ∧ (0x47 : BitVec 8).toNat < 0x80 ∧ (0x47 : BitVec 8).toNat % 16 < 8) := by
  decide

theorem witness_IdleAndOutsideAccesses : bits.pending = [] ∧ took (step bits) = some bits ∧ 1024 % 4 = 0 ∧
    kind (serve bits (.busWrite 1024 4 0)) = 1 ∧ kind (serve bits (.busWrite 1020 4 0)) = 0 := by decide

/-- A command that ends with each of the six codes. -/
theorem witness_FailureChangesOnlyTheCode :
    took (exec (.add 2 0 1) (two maxDec (dec 5 0 0 0x00010000))) =
      some { two maxDec (dec 5 0 0 0x00010000) with code := 1 } ∧
    took (exec (.mul 2 0 1) (two (dec 5 0 0 0x001C0000) (dec 1 0 0 0x00010000))) =
      some { two (dec 5 0 0 0x001C0000) (dec 1 0 0 0x00010000) with code := 2 } ∧
    took (exec (.div 2 3 0 1) same) ≠ none ∧ took (exec (.div 2 3 0 2) same) = some { same with code := 3 } ∧
    took (exec (.neg 0 0) (two bad 0)) = some { two bad 0 with code := 4 } ∧
    took (exec (.bsub 2 1 0) wides) = some { wides with code := 5 } ∧
    took (exec .nop { same with code := 5 }) = some same := by decide

theorem witness_StepKeepsLegalCode : ∃ t : State, State.legalCode { bits with code := 5, pending := [.winWrite 0x80 1] } ∧
    step { bits with code := 5, pending := [.winWrite 0x80 1] } = .next t :=
  ⟨{ bits with code := 5 }, by unfold State.legalCode; decide, eq_next (by decide)⟩

/-- Every kind of event a well-behaved host makes, the last word of the window among them. -/
theorem witness_WellBehavedHostNeverStops : State.hostWellBehaved { bits with pending :=
      [.winRead 0xFF, .winWrite 0x80 1, .busRead 1020 4, .busWrite 0 4 1, .reset] } ∧
    State.legalCode { bits with pending := [.winRead 0xFF] } ∧ (HostEvent.busRead 1024 4).hasStep = false ∧
    (HostEvent.busRead 4 2).hasStep = false := by
  refine ⟨fun e he => ?_, by unfold State.legalCode; decide, by decide, by decide⟩
  revert e
  decide

theorem witness_CommandsKeepDecimalsWellFormed : ∃ t : State, isBitField (.div 2 3 0 1) = false ∧ same.allValid ∧
    exec (.div 2 3 0 1) same = .next t :=
  ⟨after 0x23201003 same, by decide, by unfold State.allValid; decide, eq_next (by decide)⟩

/-- A command with two destinations leaves the others, and one with a wide destination leaves the decimals. -/
theorem witness_CommandsWriteOnlyTheirDestinations : ∃ t u : State, exec (.div 2 3 0 1) same = .next t ∧
    (4 : DSel) ∉ decDests (.div 2 3 0 1) ∧ t.d.get 4 = 0 ∧ exec (.align 0 1 0 1) same = .next u ∧
    (2 : BSel) ∉ wideDests (.align 0 1 0 1) ∧ u.d = same.d ∧ u.res = same.res :=
  ⟨after 0x23201003 same, after 0x18001001 same, eq_next (by decide), by decide, by decide,
    eq_next (by decide), by decide, by decide, by decide⟩

/-- Two states that differ in all a command does not read. -/
theorem witness_CommandsReadOnlyTheirSources : ∃ t t' : State,
    (∀ r ∈ decSources (.itod 2), bits.d.get r = same.d.get r) ∧
    (∀ r ∈ wideSources (.itod 2), bits.b.get r = same.b.get r) ∧ bits.arg = same.arg ∧ bits.d ≠ same.d ∧
    exec (.itod 2) bits = .next t ∧ exec (.itod 2) same = .next t' ∧
    (∀ r ∈ decSources (.add 2 0 1), same.d.get r = ({ same with arg := 7 } : State).d.get r) :=
  ⟨after 0x30200000 bits, after 0x30200000 same, by decide, by decide, by decide,
    by decide, eq_next (by decide), eq_next (by decide), by decide⟩

/-- The three ways a wide register changes: a window write, a command, reset. -/
theorem witness_WhoWritesWideRegisters :
    (∃ t, step { bits with pending := [.winWrite 0x48 0xFFFFFFFF] } = .next t ∧ t.b ≠ bits.b) ∧
    (∃ t, step { same with pending := [.winWrite 0x80 0x18001001] } = .next t ∧ t.b ≠ same.b) ∧
    (∃ t, step { wides with pending := [.reset] } = .next t ∧ t.b ≠ wides.b) :=
  ⟨⟨{ bits with b := #v[⟨0, 255, true⟩, ⟨0, 0, false⟩, ⟨0, 0, false⟩, ⟨0, 0, false⟩] }, eq_next (by decide),
      by decide⟩,
    ⟨after 0x18001001 same, eq_next (by decide), by decide⟩,
    ⟨State.reset, eq_next (by decide), by decide⟩⟩

theorem witness_CodesOfEachCommand : ∃ t, exec (.roundp 1 0 29) bits = .next t ∧ t.code = 5 ∧
    StatusCode.illegalCommand ∈ possibleCodes (.roundp 1 0 29) ∧ (Instr.roundp 1 0 29).wellFormed = false :=
  ⟨after 0x3B10001D bits, eq_next (by decide), by decide, by decide, by decide⟩

theorem witness_MalformedOperandsAreRefused :
    ((Instr.roundp 1 0 28).wellFormed = true ∧ (0 : DSel) ∈ valueSources (.roundp 1 0 28) ∧
      valid ((two bad 0).d.get 0) = false) ∧
    (∃ t, isBitField (.getscale 0) = true ∧ exec (.getscale 0) (two bad 0) = .next t) ∧
    (isBitField (.ldmax 0) = false ∧ valueSources (.ldmax 0) = [] ∧ (after 0x3D000000 (two bad 0)).code = 0) ∧
    (isBitField (.ftod 0) = false ∧ valueSources (.ftod 0) = [] ∧
      (after 0x32000000 { bits with arg := 0x7F800000 }).code = 4) :=
  ⟨by decide, ⟨after 0x09000000 (two bad 0), by decide, eq_next (by decide)⟩, by decide,
    by decide⟩

/-- An out-of-range count beside a malformed operand, a malformed dividend beside a zero divisor, a malformed divisor with a
zero mantissa, and a zero divisor alone (95_test_vectors.md section 2.4). -/
theorem witness_PriorityOfCauses : (Instr.roundp 1 0 29).wellFormed = false ∧
    took (exec (.roundp 1 0 29) (two bad 0)) = some { two bad 0 with code := 5 } ∧
    took (exec (.div 2 3 0 1) (two bad 0)) = some { two bad 0 with code := 4 } ∧
    took (exec (.div 2 3 0 1) (two (dec 1 0 0 0) (dec 0 0 0 0x001D0000))) =
      some { two (dec 1 0 0 0) (dec 0 0 0 0x001D0000) with code := 4 } ∧
    (valid ((two 0 (dec 0 0 0 0x801C0000)).d.get 0) = true ∧ valid ((two 0 (dec 0 0 0 0x801C0000)).d.get 1) = true ∧
      ((two 0 (dec 0 0 0 0x801C0000)).d.get 1).toNat % 2 ^ 96 = 0) := by decide

theorem witness_ConstantsAndNop : [0x00000001#32, 0x00FFFFFF].all (fun c => c.toNat / 2 ^ 24 == 0 && c != 0 && refuses c) =
    true := by decide

theorem witness_MantissaBitEdits : (95 : Fin 128).val ≤ 95 ∧ 95 < (96 : Fin 128).val ∧ 95 < (127 : Fin 128).val ∧
    took (exec (.minvb 2 0 96) bits) = some { bits with code := 5 } := by decide

/-- A sum of 2^256 - 1 and one of 2^256; a difference of 0 and one below. -/
theorem witness_WideSumAndDifference :
    (BitVec.allOnes 256).toNat + (0 : Mag).toNat < 2 ^ 256 ∧ 2 ^ 256 ≤ (BitVec.allOnes 256).toNat + (1 : Mag).toNat ∧
    gotB 2 0x14202000 wides = (0, ⟨BitVec.allOnes 256, 5, true⟩) ∧ (gotB 2 0x14201000 wides).1 = 1 ∧
    (1 : Mag).toNat ≤ (1 : Mag).toNat ∧ (0 : Mag).toNat < (1 : Mag).toNat ∧
    gotB 2 0x15211000 wides = (0, ⟨0, 0, false⟩) ∧ (gotB 2 0x15221000 wides).1 = 5 := by decide

/-- Well-formed operands at the largest scale and mantissa, and a malformed one of each kind: scale 29, bit 0 and bit 24 of
word 3. These meet the hypotheses of WideProduct, AlignCommand, AlignmentKeepsValue and the arithmetic statements. -/
theorem witness_operands : valid (dec 0xFFFFFFFF 0xFFFFFFFF 0xFFFFFFFF 0x801C0000) = true ∧ valid bad = false ∧
    valid (dec 1 0 0 1) = false ∧ valid (dec 1 0 0 0x01000000) = false ∧
    (gotB 0 0x16001000 (two 0 bad)).1 = 4 ∧ (gotB 0 0x18001001 (two (dec 1 0 0 1) 0)).1 = 4 := by decide

theorem witness_WideProduct_AlignCommand_AlignmentKeepsValue_AlignmentBounds : valid (same.d.get 0) = true ∧ valid (same.d.get 1) = true ∧
    valid ((two bad 0).d.get 0) = false ∧ valid ((two 0 bad).d.get 1) = false := by decide

/-- The function of rounded quotients that the statement quantifies over, with a last one that fits and one that does not. -/
theorem witness_NarrowDropsLeastDigits :
    (∀ k, IsNearestEven ((10 * (2 ^ 96 - 1) + 4 : ℕ) / 10 ^ k) (dropDigits (10 * (2 ^ 96 - 1) + 4) k)) ∧
    dropDigits (10 * (2 ^ 96 - 1) + 4) 1 ≤ 2 ^ 96 - 1 ∧
    (∀ k, IsNearestEven ((10 * (2 ^ 96 - 1) + 5 : ℕ) / 10 ^ k) (dropDigits (10 * (2 ^ 96 - 1) + 5) k)) ∧
    2 ^ 96 - 1 < dropDigits (10 * (2 ^ 96 - 1) + 5) 1 :=
  ⟨isNearestEven_dropDigits _, by decide, isNearestEven_dropDigits _, by decide⟩

/-- A result, both codes, a zero at SCALE 255, and SCALE 105 beside 106 (95_test_vectors.md section 2.2). -/
theorem witness_NarrowCommand : (∃ x, narrow true (2 ^ 192 - 2 ^ 97 + 1) 56 = .ok x) ∧
    narrow false (2 ^ 256 - 1) 48 = .error .tooBig ∧ narrow false (2 ^ 256 - 1) 106 = .error .tooSmall ∧
    gotD 2 0x17200000 (wide ⟨0, 255, false⟩ ⟨0, 0, false⟩) = (0, dec 0 0 0 0x001C0000) ∧
    gotD 2 0x17200000 (wide ⟨BitVec.allOnes 256, 105, false⟩ ⟨0, 0, false⟩) = (0, dec 1 0 0 0x001C0000) ∧
    ((BitVec.allOnes 256 : Mag) ≠ 0 ∧ 106 ≤ (106 : BitVec 8).toNat) ∧
    gotD 2 0x17200000 (wide ⟨BitVec.allOnes 256, 106, false⟩ ⟨0, 0, false⟩) = (2, 0) :=
  ⟨⟨dec 0x096EE456 0x359A3B3E 0xCAD2F7F5 0x801B0000, by decide⟩, by decide, by decide,
    by decide, by decide, by decide, by decide⟩

theorem witness_NarrowFacts : (28 ≤ 28 ∧ 2 ^ 96 - 1 < 2 ^ 96) ∧
    narrow false (2 ^ 96 - 1) 28 = .ok (dec 0xFFFFFFFF 0xFFFFFFFF 0xFFFFFFFF 0x001C0000) ∧
    narrow false 5 29 = .error .tooSmall := by decide

/-- The four branches of the sum: signs match, first larger, second larger, equal; a result and code 1. -/
theorem witness_AddAndSubCommands :
    gotD 2 0x20201000 (two (dec 0 0 0 0x80000000) (dec 0 0 0 0x80010000)) = (0, dec 0 0 0 0x80010000) ∧
    gotD 2 0x20201000 (two (dec 7 0 0 0x80000000) (dec 0x19 0 0 0x00010000)) = (0, dec 0x2D 0 0 0x80010000) ∧
    gotD 2 0x20201000 (two (dec 0x19 0 0 0x00010000) (dec 7 0 0 0x80000000)) = (0, dec 0x2D 0 0 0x80010000) ∧
    gotD 2 0x21201000 (two (dec 0 0 0 0x80000000) (dec 0 0 0 0x80000000)) = (0, 0) ∧
    (∃ x, narrow true 45 1 = .ok x) ∧ narrow false (2 ^ 96) 0 = .error .tooBig ∧
    gotD 2 0x20201000 (two maxDec (dec 1 0 0 0)) = (1, 0) :=
  ⟨by decide, by decide, by decide, by decide,
    ⟨dec 0x2D 0 0 0x80010000, by decide⟩, by decide, by decide⟩

/-- A value of the vectors as a rational. -/
theorem val_dec {d : Dec} (s : Bool) (m c : ℕ) (h : d = mkdec s m c) (hm : m < 2 ^ 96) (hc : c ≤ 28) :
    val d = (if s then -1 else 1) * (m : ℚ) / 10 ^ c := by rw [h, val_mkdec s hm hc]

theorem val_maxDec : val maxDec = 2 ^ 96 - 1 := by
  rw [val_dec false (2 ^ 96 - 1) 0 (by decide) (by norm_num) (by norm_num)]; norm_num

theorem val_half : val (dec 5 0 0 0x00010000) = 1 / 2 := by
  rw [val_dec false 5 1 (by decide) (by norm_num) (by norm_num)]; norm_num

theorem val_twoFifths : val (dec 4 0 0 0x00010000) = 2 / 5 := by
  rw [val_dec false 4 1 (by decide) (by norm_num) (by norm_num)]; norm_num

/-- MAX + 0.5 is the least sum that does not fit, MAX + 0.4 fits at a smaller scale (95_test_vectors.md section 2.4). -/
theorem witness_AddAndSubRoundTheExactValue : valid maxDec = true ∧ valid (dec 5 0 0 0x00010000) = true ∧
    valid (dec 4 0 0 0x00010000) = true ∧
    |val maxDec + val (dec 5 0 0 0x00010000)| = (2 : ℚ) ^ 96 - 1 / 2 ∧
    |val maxDec + val (dec 4 0 0 0x00010000)| < (2 : ℚ) ^ 96 - 1 / 2 ∧ scale maxDec < 1 := by
  refine ⟨by decide, by decide, by decide, ?_, ?_, by decide⟩
  · rw [val_maxDec, val_half]; norm_num
  · rw [val_maxDec, val_twoFifths]; norm_num

/-- 1.10 + 2.205 = 3.305 exactly, and the subtraction gives 1.100 (95_test_vectors.md E1). -/
theorem witness_SubtractUndoesExactAdd : ∃ t : State,
    exec (.add 2 0 1) (two (dec 0x6E 0 0 0x00020000) (dec 0x89D 0 0 0x00030000)) = .next t ∧ t.code = 0 ∧
    val (t.d.get 2) = val (dec 0x6E 0 0 0x00020000) + val (dec 0x89D 0 0 0x00030000) ∧
    (after 0x21321000 t).d.get 3 = dec 0x44C 0 0 0x00030000 := by
  refine ⟨after 0x20201000 (two (dec 0x6E 0 0 0x00020000) (dec 0x89D 0 0 0x00030000)), eq_next (by decide),
    by decide, ?_, by decide⟩
  rw [val_dec false 3305 3 (by decide) (by norm_num) (by norm_num),
    val_dec false 110 2 (by decide) (by norm_num) (by norm_num),
    val_dec false 2205 3 (by decide) (by norm_num) (by norm_num)]
  norm_num

/-- The sum over its own second operand, as in ADD D1, D0, D1 with SUB D2, D1, D1 after it. -/
theorem witness_SubtractUndoesExactAdd_over : ∃ t : State,
    exec (.add 1 0 1) (two (dec 1 0 0 0) (dec 2 0 0 0)) = .next t ∧ t.code = 0 ∧
    val (t.d.get 1) = val (dec 1 0 0 0) + val (dec 2 0 0 0) ∧ (after 0x21211000 t).d.get 2 = 0 := by
  refine ⟨after 0x20101000 (two (dec 1 0 0 0) (dec 2 0 0 0)), eq_next (by decide), by decide, ?_, by decide⟩
  rw [val_dec false 3 0 (by decide) (by norm_num) (by norm_num),
    val_dec false 1 0 (by decide) (by norm_num) (by norm_num),
    val_dec false 2 0 (by decide) (by norm_num) (by norm_num)]
  norm_num

theorem witness_MulCommand : (∃ x, narrow true 100 1 = .ok x) ∧ narrow false (2 * (2 ^ 96 - 1)) 0 = .error .tooBig ∧
    narrow false 5 29 = .error .tooSmall ∧
    (∃ t, exec (.bmul 1 0 1) same = .next t ∧ t.code = 0 ∧
      (after 0x17210000 t).d.get 2 = (after 0x22201000 same).d.get 2) :=
  ⟨⟨dec 0x64 0 0 0x80010000, by decide⟩, by decide, by decide,
    ⟨after 0x16101000 same, eq_next (by decide), by decide, by decide⟩⟩

/-- The rule on the scale: the largest mantissa times 1.0 has no room for the one place of the sum of the scales. -/
theorem witness_MulRoundsTheExactProduct_scale : ∃ x : Dec,
    exec (.mul 2 0 1) (two maxDec (dec 0xA 0 0 0x00010000)) =
      .next { two maxDec (dec 0xA 0 0 0x00010000) with
        d := (two maxDec (dec 0xA 0 0 0x00010000)).d.set (2 : DSel) x, code := 0 } ∧
    scale x < min 28 (scale maxDec + scale (dec 0xA 0 0 0x00010000)) :=
  ⟨maxDec, eq_next (by decide), by decide⟩

/-- The three cases at their edges: a zero, half of 10^-28 exactly, MAX times 1 (95_test_vectors.md section 2.4). -/
theorem witness_MulRoundsTheExactProduct : val (0 : Dec) * val maxDec = 0 ∧
    val (dec 5 0 0 0x001C0000) * val (dec 1 0 0 0x00010000) = 1 / 2 / 10 ^ 28 ∧
    |val maxDec * val (dec 1 0 0 0)| < (2 : ℚ) ^ 96 - 1 / 2 ∧ 1 / 2 / 10 ^ 28 < |val maxDec * val (dec 1 0 0 0)| ∧
    (2 : ℚ) ^ 96 - 1 / 2 ≤ |val maxDec * val (dec 2 0 0 0)| := by
  have h1 : val (dec 1 0 0 0) = 1 := by
    rw [val_dec false 1 0 (by decide) (by norm_num) (by norm_num)]; norm_num
  have h2 : val (dec 2 0 0 0) = 2 := by
    rw [val_dec false 2 0 (by decide) (by norm_num) (by norm_num)]; norm_num
  refine ⟨by rw [(val_eq_zero_iff 0).mpr (by decide), zero_mul], ?_, ?_, ?_, ?_⟩
  · rw [val_dec false 5 28 (by decide) (by norm_num) (by norm_num),
      val_dec false 1 1 (by decide) (by norm_num) (by norm_num)]
    norm_num
  · rw [val_maxDec, h1]; norm_num
  · rw [val_maxDec, h1]; norm_num
  · rw [val_maxDec, h2]; norm_num

/-- Each branch of DIV: a malformed operand, a zero divisor, a quotient that is too big, one that vanishes, a division that
ends early, and one that runs to scale 28 with a rounded remainder (95_test_vectors.md section 2.4). -/
theorem witness_DivCommand : gotD 2 0x23201003 (two (dec 1 0 0 0) (dec 0 0 0 0x001D0000)) = (4, 0) ∧
    gotD 2 0x23201003 (two 0 0) = (3, 0) ∧ gotD 2 0x23201003 (two maxDec (dec 1 0 0 0x00010000)) = (1, 0) ∧
    gotD 2 0x23201003 (two (dec 1 0 0 0x001C0000) (dec 3 0 0 0)) = (2, 0) ∧
    gotD 2 0x23201003 (two (dec 0xA 0 0 0) (dec 4 0 0 0)) = (0, dec 0x19 0 0 0x00010000) ∧
    gotD 3 0x23201003 (two (dec 1 0 0 0) (dec 3 0 0 0x001C0000)) = (0, dec 0 0 0 0x001C0000) ∧
    mant (dec 4 0 0 0) ≠ 0 ∧ mant (0 : Dec) = 0 := by decide

/-- 10 divided by 4 and 1 divided by 3 (95_test_vectors.md section 2.4). -/
theorem witness_DivIdentity : ∃ t u : State, (2 : DSel) ≠ 3 ∧
    exec (.div 2 3 0 1) (two (dec 0xA 0 0 0) (dec 4 0 0 0)) = .next t ∧ t.code = 0 ∧
    divQuot (dec 0xA 0 0 0) (dec 4 0 0 0) < 2 ^ 96 ∧
    divScale (dec 0xA 0 0 0) (dec 4 0 0 0) + scale (dec 4 0 0 0) ≤ 28 ∧
    exec (.div 2 3 0 1) (two (dec 1 0 0 0) (dec 3 0 0 0)) = .next u ∧ u.code = 0 ∧
    divQuot (dec 1 0 0 0) (dec 3 0 0 0) < 2 ^ 96 ∧ divScale (dec 1 0 0 0) (dec 3 0 0 0) + scale (dec 3 0 0 0) = 28 :=
  ⟨after 0x23201003 (two (dec 0xA 0 0 0) (dec 4 0 0 0)), after 0x23201003 (two (dec 1 0 0 0) (dec 3 0 0 0)),
    by decide, eq_next (by decide), by decide, by decide, by decide,
    eq_next (by decide), by decide, by decide, by decide⟩

/-- The quotient over the remainder: DIV D2, D2, D0, D1 of 7 by 4 leaves 1.75. -/
theorem witness_DivIdentity_over : ∃ t : State,
    exec (.div 2 2 0 1) (two (dec 7 0 0 0) (dec 4 0 0 0)) = .next t ∧ t.code = 0 ∧
    divQuot (dec 7 0 0 0) (dec 4 0 0 0) < 2 ^ 96 ∧
    divScale (dec 7 0 0 0) (dec 4 0 0 0) + scale (dec 4 0 0 0) ≤ 28 ∧ t.d.get 2 = dec 0xAF 0 0 0x00020000 :=
  ⟨after 0x23201002 (two (dec 7 0 0 0) (dec 4 0 0 0)), eq_next (by decide), by decide, by decide, by decide, by decide⟩

theorem witness_NegCommand_ComparisonsAreNumericOrder : valid (less.d.get 0) = true ∧ valid (less.d.get 1) = true ∧
    valid ((two bad 0).d.get 0) = false ∧ gotD 1 0x24100000 (two bad 0) = (4, 0) ∧
    gotRes 0x2B001000 (two bad 0) = (4, 0) := by decide

/-- The integral parts 2^31 - 1, 2^31, -2^31 and -(2^31 + 1) (96_test_vectors_continued.md section 2.6). -/
theorem witness_IntegerConversions : gotRes 0x31000000 (two (dec 0x7FFFFFFF 0 0 0) 0) = (0, 0x7FFFFFFF) ∧
    gotRes 0x31000000 (two (dec 0x80000000 0 0 0) 0) = (4, 0) ∧
    gotRes 0x31000000 (two (dec 0x80000000 0 0 0x80000000) 0) = (0, 0x80000000) ∧
    gotRes 0x31000000 (two (dec 0x80000001 0 0 0x80000000) 0) = (4, 0) ∧
    gotRes 0x31000000 (two bad 0) = (4, 0) ∧
    gotRes 0x31000000 (after 0x30000000 (argIs 0x80000000)) = (0, 0x80000000) := by decide

theorem mag_half : binary32Mag 0x3F000000 = 1 / 2 := by
  rw [binary32Mag, show (0x3F000000 : Word).toNat = 0x3F000000 by decide]; norm_num

/-- Infinity and NaN by their exponent, 2^96 exactly, the largest convertible value, one half. -/
theorem witness_FloatToDecimal : (0x7F800000 : Word).toNat / 2 ^ 23 % 256 = 255 ∧
    (0x7FC00000 : Word).toNat / 2 ^ 23 % 256 = 255 ∧ (2 : ℚ) ^ 96 ≤ binary32Mag 0x6F800000 ∧
    (0x6F7FFFFF : Word).toNat / 2 ^ 23 % 256 ≠ 255 ∧ binary32Mag 0x6F7FFFFF < (2 : ℚ) ^ 96 ∧
    binary32Mag 0x3F000000 = 1 / 2 := by
  have h1 : (0x6F800000 : Word).toNat = 0x6F800000 := by decide
  have h2 : (0x6F7FFFFF : Word).toNat = 0x6F7FFFFF := by decide
  refine ⟨by decide, by decide, ?_, by decide, ?_, mag_half⟩
  · rw [binary32Mag, h1]; norm_num
  · rw [binary32Mag, h2]; norm_num

/-- A zero, and the operand whose significand rounds up to 2^24 (96_test_vectors_continued.md section 2.6). -/
theorem witness_DecimalToFloat : valid (dec 0 0 0 0x80000000) = true ∧ mant (dec 0 0 0 0x80000000) = 0 ∧
    valid maxDec = true ∧ mant maxDec ≠ 0 ∧ floatSignificand (mant maxDec) 1 = 2 ^ 24 ∧ valid bad = false ∧
    gotRes 0x33000000 (two bad 0) = (4, 0) := by decide

/-- 0.5 converts exactly. -/
theorem witness_ExactFloatRoundTrip : ∃ t, exec (.ftod 0) (argIs 0x3F000000) = .next t ∧ t.code = 0 ∧
    |val (t.d.get 0)| = binary32Mag 0x3F000000 ∧ gotRes 0x33000000 t = (0, 0x3F000000) := by
  refine ⟨after 0x32000000 (argIs 0x3F000000), eq_next (by decide), by decide, ?_, by decide⟩
  rw [show (after 0x32000000 (argIs 0x3F000000)).d.get 0 = dec 5 0 0 0x00010000 by decide, val_half, mag_half]
  norm_num

/-- Place counts 28 and 29, a count equal to the scale and one below it, and a malformed operand. -/
theorem witness_TruncAndFloor_RoundAndRoundp : (28 : Fin 32).val ≤ 28 ∧ 28 < (29 : Fin 32).val ∧
    scale (dec 0xF5 0 0 0x00020000) ≤ (2 : Fin 32).val ∧ (1 : Fin 32).val < scale (dec 0xF5 0 0 0x00020000) ∧
    valid (dec 0xF5 0 0 0x00020000) = true ∧ valid bad = false ∧ gotD 1 0x38100000 (two bad 0) = (4, 0) ∧
    gotD 1 0x39100000 (two bad 0) = (4, 0) ∧ gotD 1 0x3A100000 (two bad 0) = (4, 0) ∧
    gotD 1 0x3B10001C (two bad 0) = (4, 0) ∧ gotD 1 0x3B10001D (two bad 0) = (5, 0) ∧
    gotD 1 0x3B100002 (two (dec 0xF5 0 0 0x00020000) 0) = (0, dec 0xF5 0 0 0x00020000) := by decide

end Sys2Proof.Tests
end

section
/-! PROOF. The state after reset (10_state.md R36): what the register files hold, stated on the fields, so that the reset
event can cite it too. -/

namespace Sys2Proof.Machine

@[simp] theorem reset_d_get (r : DSel) : State.reset.d.get r = 0 := readD_reset r

@[simp] theorem reset_b_get (r : BSel) : State.reset.b.get r = ⟨0, 0, false⟩ := readB_reset r

/-- Settles O12: the register files by what reset puts in them, `STATUS.CODE`, `ARG` and `RES` by definition of reset. -/
theorem resetIsAllZero : Obligations.ResetIsAllZero := by
  refine ⟨reset_d_get, fun r => ?wide, rfl, rfl, rfl⟩
  case wide => simp only [reset_b_get, and_self]

end Sys2Proof.Machine
end

section
/-! PROOF. The host window (20_memory.md R51 to R53, R55): what a read gives by the class of its address, which addresses
hold a whole word, and from these what reads, writes and bus accesses do. -/

namespace Sys2Proof.Machine

/-! ## What a read gives, by the word that the address names -/

section Reads

variable (s : State) {a : BitVec 8}

theorem winRead_dWord {r : DSel} {w : Fin 4} (h : winMap a = .dWord r w) :
    winRead s a = (s.d.get r).extractLsb' (32 * w.val) 32 := by
  rw [winRead, h]; rfl

theorem winRead_magWord {r : BSel} {j : Fin 8} (h : winMap a = .magWord r j) :
    winRead s a = (s.b.get r).mag.extractLsb' (32 * j.val) 32 := by
  rw [winRead, h]; rfl

theorem winRead_ctl {r : BSel} (h : winMap a = .ctl r) : winRead s a = ctlWord (s.b.get r) := by
  rw [winRead, h]; rfl

theorem winRead_reserved (h : winMap a = .reserved) : winRead s a = 0 := by
  rw [winRead, h]

@[simp] theorem winRead_cmd : winRead s 0x80 = 0 := rfl

@[simp] theorem winRead_status : winRead s 0x81 = s.code.setWidth 32 := rfl

@[simp] theorem winRead_arg : winRead s 0x82 = s.arg := rfl

@[simp] theorem winRead_res : winRead s 0x83 = s.res := rfl

end Reads

/-- A read is invisible to every later read (20_memory.md R53). -/
@[simp] theorem winRead_serveRead (s : State) (a a' : BitVec 8) : winRead (serveRead s a) a' = winRead s a' := rfl

/-! ## What a write does -/

/-- The addresses that hold a word the host can store whole (20_memory.md R51). -/
theorem winMap_of_wholeWord {a : BitVec 8}
    (h : a.toNat < 0x20 ∨ (0x40 ≤ a.toNat ∧ a.toNat < 0x80 ∧ a.toNat % 16 < 8) ∨ a = 0x82) :
    (∃ r w, winMap a = .dWord r w) ∨ (∃ r j, winMap a = .magWord r j) ∨ winMap a = .arg := by
  rcases h with hd | ⟨hlo, hhi, hj⟩ | rfl
  · exact .inl (winMap_of_lt hd)
  · rcases winMap_of_wide hlo hhi hj.le with ⟨-, hmag⟩ | ⟨hctl, -⟩
    · exact .inr (.inl hmag)
    · omega
  · exact .inr (.inr rfl)

/-- The addresses of the control words (20_memory.md R51). -/
theorem winMap_of_ctl {a : BitVec 8} (h : 0x40 ≤ a.toNat ∧ a.toNat < 0x80 ∧ a.toNat % 16 = 8) :
    ∃ r, winMap a = .ctl r := by
  obtain ⟨hlo, hhi, hj⟩ := h
  rcases winMap_of_wide hlo hhi hj.le with ⟨hmag, -⟩ | ⟨-, hctl⟩
  · omega
  · exact hctl

/-- The addresses other than CMD whose writes the window drops (20_memory.md R51). -/
theorem winMap_of_readOnly {a : BitVec 8}
    (h : (0x20 ≤ a.toNat ∧ a.toNat < 0x40) ∨ 0x84 ≤ a.toNat ∨ a = 0x81 ∨ a = 0x83 ∨
      (0x40 ≤ a.toNat ∧ a.toNat < 0x80 ∧ 9 ≤ a.toNat % 16)) :
    winMap a = .reserved ∨ winMap a = .status ∨ winMap a = .res ∨ winMap a = .cmd := by
  rcases h with hlow | hhigh | rfl | rfl | hgap
  · exact .inl ((winMap_reserved_iff a).mpr (.inl hlow))
  · exact .inl ((winMap_reserved_iff a).mpr (.inr (.inl hhigh)))
  · exact .inr (.inl rfl)
  · exact .inr (.inr (.inl rfl))
  · exact .inl ((winMap_reserved_iff a).mpr (.inr (.inr hgap)))

@[simp] theorem winWrite_res (s : State) (a : BitVec 8) (v : Word) : (winWrite s a v).res = s.res := by
  unfold winWrite; split <;> rfl

theorem runCommand_of_decode_ok {c : Word} {i : Instr} (s : State) (h : decode c = .ok i) :
    runCommand c s = exec i s := by
  rw [runCommand, h]

theorem runCommand_of_decode_error {c : Word} {e : Illegal} (s : State) (h : decode c = .error e) :
    runCommand c s = .next { s with code := 5 } := by
  rw [runCommand, h]; rfl

theorem serve_winWrite_cmd (s : State) (v : Word) : serve s (.winWrite 0x80 v) = runCommand v s := rfl

theorem serve_winWrite_other (s : State) {a : BitVec 8} (v : Word) (h : a ≠ 0x80) :
    serve s (.winWrite a v) = .next (winWrite s a v) := if_neg h

/-! ## Bus accesses -/

theorem serve_busRead (s : State) (offset size : Nat) :
    serve s (.busRead offset size) = busAccess offset size fun a => serve s (.winRead a) := rfl

theorem serve_busWrite (s : State) (offset size : Nat) (v : Word) :
    serve s (.busWrite offset size v) = busAccess offset size fun a => serve s (.winWrite a v) := rfl

/-- An access that is not an aligned word never reaches the window (20_memory.md R55). -/
theorem busAccess_not_alignedWord {offset size : Nat} (k : BitVec 8 → StepResult) (h : size ≠ 4 ∨ offset % 4 ≠ 0) :
    busAccess offset size k = .refused .notAlignedWord := if_neg (by omega)

/-! ## The statements -/

/-- Settles O6: each address is taken to the word it names, and that word's reading equation gives the value. -/
theorem windowReads : Obligations.WindowReads := by
  intro s
  refine ⟨fun r w => ?decimalWord, fun r j => ?magnitudeWord, fun r => ?controlWord, winRead_cmd s, ?status,
    winRead_arg s, winRead_res s, fun a h => ?reserved, fun a => ?unchanged⟩
  case decimalWord => exact winRead_dWord s (winMap_dWord r w)
  case magnitudeWord => exact winRead_magWord s (winMap_magWord r j)
  case controlWord => rw [winRead_ctl s (winMap_ctl r), toNat_ctlWord]
  case status =>
    have hcode := s.code.isLt
    rw [winRead_status, BitVec.toNat_setWidth, Nat.mod_eq_of_lt (by omega)]
  case reserved => exact winRead_reserved s ((winMap_reserved_iff a).mpr h)
  case unchanged => exact ⟨serveRead s a, rfl, rfl, rfl, rfl, rfl, rfl, rfl, winRead_serveRead s a a⟩

/-- Settles O7: a write to CMD is the command, by whether its word decodes; any other write is `winWrite`, whose laws say what
each class of address reads afterwards. -/
theorem windowWrites : Obligations.WindowWrites := by
  intro s a v
  refine ⟨fun hcmd => ?command, fun hcmd => ⟨winWrite s a v, serve_winWrite_other s v hcmd, winWrite_code s a v,
    winWrite_res s a v, winWrite_pending s a v, winWrite_returned s a v, fun a' hne => ?elsewhere, fun h => ?wholeWord,
    fun h => ?controlWord, fun h => ?ignored⟩⟩
  case command =>
    rw [hcmd, serve_winWrite_cmd]
    cases hdec : decode v with
    | ok i => exact runCommand_of_decode_ok s hdec
    | error e => exact runCommand_of_decode_error s hdec
  case elsewhere => exact winRead_winWrite_other s v hne
  case wholeWord => exact winRead_winWrite_same s v (winMap_of_wholeWord h)
  case controlWord =>
    obtain ⟨r, hctl⟩ := winMap_of_ctl h
    exact winRead_winWrite_ctl s v hctl
  case ignored => exact winWrite_ignored s v (winMap_of_readOnly h)

/-- Settles O9: both bus events are one `busAccess`, which hands an aligned word on and refuses everything else. -/
theorem busAccessesAreAlignedWords : Obligations.BusAccessesAreAlignedWords := by
  intro s a offset size v
  refine ⟨?wordRead, ?wordWrite, fun h => ⟨?otherRead, ?otherWrite⟩⟩
  case wordRead => rw [serve_busRead, busAccess_word]
  case wordWrite => rw [serve_busWrite, busAccess_word]
  case otherRead => rw [serve_busRead, busAccess_not_alignedWord _ h]
  case otherWrite => rw [serve_busWrite, busAccess_not_alignedWord _ h]

end Sys2Proof.Machine
end

section
/-! PROOF. Illegal command words (30_encoding.md R78): the opcodes that no row of the opcode map lists, and the two ways in which
a word fails, that no row selects it and that its immediate is out of range. -/

namespace Sys2Proof

/-! ## Opcodes that no row lists -/

/-- Every row fixes all eight bits of `OP` (30_encoding.md R76). -/
theorem fieldOP_mask : ∀ r ∈ opcodeTable, fieldOP r.mask = BitVec.allOnes 8 := by decide

theorem fieldOP_of_selects {r : Row} {c : Word} (hr : r ∈ opcodeTable) (h : r.selects c = true) :
    fieldOP c = fieldOP r.value := by
  obtain ⟨hop, -⟩ := fields_of_selects h
  rwa [fieldOP_mask r hr, BitVec.and_allOnes] at hop

/-- A word whose opcode is in no row selects no row (30_encoding.md R78). -/
theorem selects_eq_false_of_unlisted {c : Word} (h : opcodeListed (fieldOP c) = false) :
    ∀ r ∈ opcodeTable, r.selects c = false := by
  intro r hr
  by_contra hsel
  have hop : fieldOP r.value = fieldOP c := (fieldOP_of_selects hr (Bool.eq_true_of_not_eq_false hsel)).symm
  have hlisted : opcodeListed (fieldOP c) = true := List.any_eq_true.mpr ⟨r, hr, decide_eq_true hop⟩
  rw [h] at hlisted
  cases hlisted

/-- The 213 opcodes without a row (30_encoding.md R78). -/
theorem opcodeListed_eq_false_iff : ∀ op : BitVec 8, opcodeListed op = false ↔
    (0x0D ≤ op.toNat ∧ op.toNat ≤ 0x0F) ∨ (0x19 ≤ op.toNat ∧ op.toNat ≤ 0x1F) ∨ (0x25 ≤ op.toNat ∧ op.toNat ≤ 0x27) ∨
      op.toNat = 0x2E ∨ op.toNat = 0x2F ∨ (0x34 ≤ op.toNat ∧ op.toNat ≤ 0x37) ∨ 0x3E ≤ op.toNat := by decide

theorem toNat_fieldOP (c : Word) : (fieldOP c).toNat = c.toNat / 2 ^ 24 := by
  have hc := c.isLt
  rw [fieldOP, BitVec.extractLsb'_toNat, Nat.shiftRight_eq_div_pow]
  omega

namespace Machine

/-! ## The two ways to fail -/

/-- A word that no row selects: step (1) of decoding (30_encoding.md R72). -/
theorem runCommand_of_no_row {c : Word} (s : State) (h : ∀ r ∈ opcodeTable, r.selects c = false) :
    runCommand c s = .next { s with code := 5 } := by
  obtain ⟨e, he⟩ := decode_of_no_row h
  exact runCommand_of_decode_error s he

theorem editMantissaBit_of_index_out (f : Word → Fin 32 → Word) (rd ra : DSel) {i : Fin 128} (s : State)
    (h : mantissaIndexOk i = false) : editMantissaBit f rd ra i s = .next { s with code := 5 } := by
  rw [editMantissaBit, h]; rfl

theorem execMgetb_of_index_out (ra : DSel) {i : Fin 128} (s : State) (h : mantissaIndexOk i = false) :
    execMgetb ra i s = .next { s with code := 5 } := by
  rw [execMgetb, h]; rfl

theorem execRoundp_of_places_out (rd ra : DSel) {p : Fin 32} (s : State) (h : placesOk p = false) :
    execRoundp rd ra p s = .next { s with code := 5 } := by
  rw [execRoundp, h]; rfl

/-- A command whose immediate is out of range: step (2) of decoding. Five commands have such an immediate
(30_encoding.md R72, R74). -/
theorem exec_of_not_wellFormed {i : Instr} (s : State) (h : i.wellFormed = false) :
    exec i s = .next { s with code := 5 } := by
  cases i with
  | mgetb ra k => exact execMgetb_of_index_out ra s h
  | msetb rd ra k => exact editMantissaBit_of_index_out setBit rd ra s h
  | mclrb rd ra k => exact editMantissaBit_of_index_out clearBit rd ra s h
  | minvb rd ra k => exact editMantissaBit_of_index_out invertBit rd ra s h
  | roundp rd ra p => exact execRoundp_of_places_out rd ra s h
  | _ => cases h

/-- Settles O4: a word of an unlisted opcode selects no row, a word that selects no row is not decoded, and a decoded word with an
immediate out of range fails in its meaning. -/
theorem illegalCommandWords : Obligations.IllegalCommandWords := by
  intro s c op hop h
  rw [serve_winWrite_cmd]
  rcases h with hrow | ⟨i, hdec, hwf⟩ | hrange
  case inl => exact runCommand_of_no_row s fun r hr => decide_eq_false (hrow r hr)
  case inr.inl => rw [runCommand_of_decode_ok s hdec, exec_of_not_wellFormed s hwf]
  case inr.inr =>
    rw [hop, ← toNat_fieldOP] at hrange
    exact runCommand_of_no_row s (selects_eq_false_of_unlisted ((opcodeListed_eq_false_iff _).mpr hrange))

end Machine

end Sys2Proof
end

section
/-! PROOF. The bit-field unit (40_bitfield.md R91 to R102): the number of a command word from its fields, what a bit edit of a word
does to the 128 bits of a decimal, where a mantissa bit stands, and the two fields of word 3. -/

namespace Sys2Proof

/-! ## The number of a command word (30_encoding.md R71, R73) -/

@[simp] theorem toNat_sel_D (r : DSel) : (sel r).toNat = r.val := by revert r; decide

/-- The immediate `IMM[6:5] = w`, `IMM[4:0] = i` (30_encoding.md R73). -/
@[simp] theorem toNat_immWordBit (w : Fin 4) (i : Fin 32) :
    (BitVec.ofNat 12 (32 * w.val + i.val)).toNat = w.val * 2 ^ 5 + i.val := by
  rw [BitVec.toNat_ofNat]; omega

@[simp] theorem toNat_immMantissaBit (i : Fin 128) : (BitVec.ofNat 12 i.val).toNat = i.val := by
  rw [BitVec.toNat_ofNat]; omega

namespace Machine

/-- A command is encoded as the number that its five fields make, because its word decodes to it. -/
theorem encodedAs_of_fields {i : Instr} {op : BitVec 8} {rd ra rb : BitVec 4} {imm : BitVec 12} {n : Nat}
    (hround : Laws.RoundTrip.Statement i) (henc : encode i = commandWord op rd ra rb imm)
    (hn : op.toNat * 2 ^ 24 + rd.toNat * 2 ^ 20 + ra.toNat * 2 ^ 16 + rb.toNat * 2 ^ 12 + imm.toNat = n) :
    EncodedAs i n := by
  have hword : encode i = BitVec.ofNat 32 n := by
    rw [henc, ← hn, ← toNat_commandWord, BitVec.ofNat_toNat, BitVec.setWidth_eq]
  exact ⟨hword, hword ▸ hround⟩

/-- The encoding of a command that reads `D[RA]` and writes `RES`. -/
theorem encodedAs_ra {i : Instr} {op : BitVec 8} {ra : DSel} {imm : BitVec 12} {n : Nat}
    (hround : Laws.RoundTrip.Statement i) (henc : encode i = commandWord op 0 (sel ra) 0 imm)
    (hn : op.toNat * 2 ^ 24 + ra.val * 2 ^ 16 + imm.toNat = n) : EncodedAs i n :=
  encodedAs_of_fields hround henc (by simpa using hn)

/-- The encoding of a command that reads `D[RA]` and writes `D[RD]`. -/
theorem encodedAs_rd_ra {i : Instr} {op : BitVec 8} {rd ra : DSel} {imm : BitVec 12} {n : Nat}
    (hround : Laws.RoundTrip.Statement i) (henc : encode i = commandWord op (sel rd) (sel ra) 0 imm)
    (hn : op.toNat * 2 ^ 24 + rd.val * 2 ^ 20 + ra.val * 2 ^ 16 + imm.toNat = n) : EncodedAs i n :=
  encodedAs_of_fields hround henc (by simpa using hn)

/-! ## Reading a bit or a field -/

theorem testBit_mant (d : Dec) {k : Nat} (hk : k < 96) : (mant d).testBit k = d.getLsbD k := by
  rw [mant_eq, Nat.testBit_mod_two_pow, decide_eq_true hk, Bool.true_and]; rfl

theorem mantissaIndexOk_of_le {i : Fin 128} (h : i.val ≤ 95) : mantissaIndexOk i = true := decide_eq_true h

theorem mantissaIndexOk_of_gt {i : Fin 128} (h : 95 < i.val) : mantissaIndexOk i = false :=
  decide_eq_false (Nat.not_le.mpr h)

theorem exec_wgetb (ra : DSel) (w : Fin 4) (i : Fin 32) (s : State) : exec (.wgetb ra w i) s =
    .next { s with res := truthWord ((s.d.get ra).getLsbD (32 * w.val + i.val)), code := 0 } := by
  rw [← getLsbD_wordOf _ w i.val i.isLt]; rfl

theorem exec_mgetb_of_index_ok (ra : DSel) {i : Fin 128} (s : State) (h : i.val ≤ 95) : exec (.mgetb ra i) s =
    .next { s with res := truthWord ((s.d.get ra).getLsbD i.val), code := 0 } := by
  rw [← testBit_mant _ (Nat.lt_succ_of_le h)]
  exact if_pos (mantissaIndexOk_of_le h)

theorem exec_getscale (ra : DSel) (s : State) : exec (.getscale ra) s =
    .next { s with res := BitVec.ofNat 32 (scale (s.d.get ra)), code := 0 } := by
  rw [scale, BitVec.ofNat_toNat]; rfl

theorem exec_getsign (ra : DSel) (s : State) :
    exec (.getsign ra) s = .next { s with res := truthWord (sign (s.d.get ra)), code := 0 } := rfl

/-- Settles O27: a word bit, a mantissa bit and the sign are bits of the 128, and the scale field is the accessor `scale`. -/
theorem bitFieldReads : Obligations.BitFieldReads := by
  intro s ra w i m
  refine ⟨encodedAs_ra (Laws.RoundTrip.wgetb ra w i) rfl ?wgetbWord, exec_wgetb ra w i s,
    encodedAs_ra (Laws.RoundTrip.mgetb ra m) rfl ?mgetbWord, ?mgetb,
    encodedAs_ra (Laws.RoundTrip.getscale ra) rfl rfl, ?getscale,
    encodedAs_ra (Laws.RoundTrip.getsign ra) rfl rfl, ?getsign⟩
  case wgetbWord => rw [toNat_immWordBit, ← Nat.add_assoc]; rfl
  case mgetbWord => rw [toNat_immMantissaBit]; rfl
  case mgetb =>
    split
    next hok => exact exec_mgetb_of_index_ok ra s hok
    next hout => exact execMgetb_of_index_out ra s (mantissaIndexOk_of_gt (Nat.not_le.mp hout))
  case getscale => rw [exec_getscale, scale_eq]
  case getsign => rw [exec_getsign, sign_eq]; rfl

/-! ## Editing one bit -/

/-- `f` puts `g` of the old bit in place of the bit it names and keeps the other bits of the word. -/
def EditsBit (f : Word → Fin 32 → Word) (g : Bool → Bool) : Prop :=
  ∀ (v : Word) (i : Fin 32) (k : Nat), k < 32 →
    (f v i).getLsbD k = if k = i.val then g (v.getLsbD k) else v.getLsbD k

/-- The mask `2^i` of a bit edit, bit by bit. -/
theorem getLsbD_bitMask (i : Fin 32) (k : Nat) : (1#32 <<< i.val).getLsbD k = decide (k = i.val) := by
  rw [← BitVec.twoPow_eq, BitVec.getLsbD_twoPow, decide_eq_true i.isLt, Bool.true_and]
  exact decide_eq_decide.mpr eq_comm

theorem editsBit_setBit : EditsBit setBit fun _ => true := by
  intro v i k _
  rw [setBit, BitVec.getLsbD_or, getLsbD_bitMask i k]
  split <;> simp [*]

theorem editsBit_clearBit : EditsBit clearBit fun _ => false := by
  intro v i k hk
  rw [clearBit, BitVec.getLsbD_and, BitVec.getLsbD_not, getLsbD_bitMask i k]
  split <;> simp [*]

theorem editsBit_invertBit : EditsBit invertBit not := by
  intro v i k _
  rw [invertBit, BitVec.getLsbD_xor, getLsbD_bitMask i k]
  split <;> simp [*]

/-- A decimal with bit `i` of its word `w` edited: what `editWordBit` writes (40_bitfield.md R92 to R94). -/
def editedDec (f : Word → Fin 32 → Word) (d : Dec) (w : Fin 4) (i : Fin 32) : Dec := setWord d w (f (wordOf d w) i)

theorem editWordBit_eq (f : Word → Fin 32 → Word) (rd ra : DSel) (w : Fin 4) (i : Fin 32) (s : State) :
    editWordBit f rd ra w i s = .next { s with d := s.d.set rd (editedDec f (s.d.get ra) w i), code := 0 } := rfl

/-- An edit of bit `i` of word `w` is an edit of bit `32*w + i` of the 128 and of no other. -/
theorem getLsbD_editedDec {f : Word → Fin 32 → Word} {g : Bool → Bool} (hf : EditsBit f g) (d : Dec) (w : Fin 4)
    (i : Fin 32) {k : Nat} (hk : k < 128) :
    (editedDec f d w i).getLsbD k = if k = 32 * w.val + i.val then g (d.getLsbD k) else d.getLsbD k := by
  have hi := i.isLt
  rw [editedDec, getLsbD_setWord d w _ k hk]
  by_cases hword : k / 32 = w.val
  · have hplace : 32 * w.val + k % 32 = k := by omega
    have hbit : k % 32 = i.val ↔ k = 32 * w.val + i.val := by omega
    rw [if_pos hword, hf _ i _ (Nat.mod_lt k (by decide)), getLsbD_wordOf d w _ (Nat.mod_lt k (by decide)), hplace]
    simp only [hbit]
  · have hother : k ≠ 32 * w.val + i.val := by omega
    rw [if_neg hword, if_neg hother]

/-- Settles O28: each of the three is `editWordBit` of an edit that changes the named bit alone. -/
theorem wordBitEdits : Obligations.WordBitEdits := by
  intro s rd ra w i
  have hword : ∀ op : Nat, op + rd.val * 2 ^ 20 + ra.val * 2 ^ 16 + (BitVec.ofNat 12 (32 * w.val + i.val)).toNat =
      op + rd.val * 2 ^ 20 + ra.val * 2 ^ 16 + w.val * 2 ^ 5 + i.val := by
    intro op
    rw [toNat_immWordBit, ← Nat.add_assoc]
  refine ⟨encodedAs_rd_ra (Laws.RoundTrip.wsetb rd ra w i) rfl (hword _),
    encodedAs_rd_ra (Laws.RoundTrip.wclrb rd ra w i) rfl (hword _),
    encodedAs_rd_ra (Laws.RoundTrip.winvb rd ra w i) rfl (hword _),
    _, _, _, editWordBit_eq setBit rd ra w i s, editWordBit_eq clearBit rd ra w i s, editWordBit_eq invertBit rd ra w i s,
    fun k hk => ⟨?set, ?clear, ?invert⟩⟩
  case set => exact getLsbD_editedDec editsBit_setBit _ w i hk
  case clear => exact getLsbD_editedDec editsBit_clearBit _ w i hk
  case invert => exact getLsbD_editedDec editsBit_invertBit _ w i hk

/-! ## Mantissa bits (40_bitfield.md R103) -/

/-- Mantissa bit `i` is bit `i` of the 128. -/
theorem mantissaWord_mantissaBit (i : Fin 128) : 32 * (mantissaWord i).val + (mantissaBit i).val = i.val := by
  revert i; decide

theorem editMantissaBit_of_index_ok (f : Word → Fin 32 → Word) (rd ra : DSel) {i : Fin 128} (s : State) (h : i.val ≤ 95) :
    editMantissaBit f rd ra i s = .next
      { s with d := s.d.set rd (editedDec f (s.d.get ra) (mantissaWord i) (mantissaBit i)), code := 0 } := by
  rw [editMantissaBit, if_pos (mantissaIndexOk_of_le h), editWordBit_eq]

theorem getLsbD_editedDec_mantissa {f : Word → Fin 32 → Word} {g : Bool → Bool} (hf : EditsBit f g) (d : Dec)
    (i : Fin 128) {k : Nat} (hk : k < 128) :
    (editedDec f d (mantissaWord i) (mantissaBit i)).getLsbD k =
      if k = i.val then g (d.getLsbD k) else d.getLsbD k := by
  rw [getLsbD_editedDec hf d _ _ hk, mantissaWord_mantissaBit]

/-- Settles O29: up to index 95 each of the three is a word edit at the place of the mantissa bit, and beyond it the index is
refused before anything is read. -/
theorem mantissaBitEdits : Obligations.MantissaBitEdits := by
  intro s rd ra i
  have hword : ∀ op : Nat, op + rd.val * 2 ^ 20 + ra.val * 2 ^ 16 + (BitVec.ofNat 12 i.val).toNat =
      op + rd.val * 2 ^ 20 + ra.val * 2 ^ 16 + i.val := by
    intro op
    rw [toNat_immMantissaBit]
  refine ⟨encodedAs_rd_ra (Laws.RoundTrip.msetb rd ra i) rfl (hword _),
    encodedAs_rd_ra (Laws.RoundTrip.mclrb rd ra i) rfl (hword _),
    encodedAs_rd_ra (Laws.RoundTrip.minvb rd ra i) rfl (hword _), fun hok => ?inMantissa, fun hout => ?refused⟩
  case inMantissa =>
    refine ⟨_, _, _, editMantissaBit_of_index_ok setBit rd ra s hok, editMantissaBit_of_index_ok clearBit rd ra s hok,
      editMantissaBit_of_index_ok invertBit rd ra s hok, fun k hk => ⟨?set, ?clear, ?invert⟩⟩
    case set => exact getLsbD_editedDec_mantissa editsBit_setBit _ i hk
    case clear => exact getLsbD_editedDec_mantissa editsBit_clearBit _ i hk
    case invert => exact getLsbD_editedDec_mantissa editsBit_invertBit _ i hk
  case refused =>
    have hindex := mantissaIndexOk_of_gt hout
    exact ⟨editMantissaBit_of_index_out setBit rd ra s hindex, editMantissaBit_of_index_out clearBit rd ra s hindex,
      editMantissaBit_of_index_out invertBit rd ra s hindex⟩

/-! ## Fields of word 3 -/

/-- A field of word 3 that starts at bit `lo` of the word starts at bit `96 + lo` of the 128. -/
theorem getLsbD_setWord3_writeField {n : Nat} (d : Dec) (lo : Nat) (v : BitVec n) {k : Nat} (hk : k < 128) :
    (setWord d 3 (writeField (wordOf d 3) lo v)).getLsbD k =
      if 96 + lo ≤ k ∧ k < 96 + lo + n then v.getLsbD (k - (96 + lo)) else d.getLsbD k := by
  rw [getLsbD_setWord d 3 _ k hk]
  by_cases hword : k / 32 = (3 : Fin 4).val
  · have hk3 : k / 32 = 3 := hword
    have hplace : 32 * (3 : Fin 4).val + k % 32 = k := by omega
    have hfield : lo ≤ k % 32 ∧ k % 32 < lo + n ↔ 96 + lo ≤ k ∧ k < 96 + lo + n := by omega
    have hoffset : k % 32 - lo = k - (96 + lo) := by omega
    rw [if_pos hword, getLsbD_writeField _ lo v _ (Nat.mod_lt k (by decide)),
      getLsbD_wordOf d 3 _ (Nat.mod_lt k (by decide)), hplace, hoffset]
    simp only [hfield]
  · have hk3 : k / 32 ≠ 3 := hword
    have houtside : ¬ (96 + lo ≤ k ∧ k < 96 + lo + n) := by omega
    rw [if_neg hword, if_neg houtside]

theorem getLsbD_setScaleField (d : Dec) (v : BitVec 8) {k : Nat} (hk : k < 128) : (setScaleField d v).getLsbD k =
    if 112 ≤ k ∧ k < 120 then v.getLsbD (k - 112) else d.getLsbD k :=
  getLsbD_setWord3_writeField d 16 v hk

theorem getLsbD_setSignField (d : Dec) (v : BitVec 1) {k : Nat} (hk : k < 128) : (setSignField d v).getLsbD k =
    if k = 127 then v.getLsbD 0 else d.getLsbD k := by
  rw [setSignField, getLsbD_setWord3_writeField d 31 v hk]
  by_cases htop : k = 127
  · rw [if_pos htop, if_pos (by omega), htop]
  · rw [if_neg htop, if_neg (by omega)]

theorem exec_setscale (rd ra : DSel) (v : BitVec 8) (s : State) : exec (.setscale rd ra v) s =
    .next { s with d := s.d.set rd (setScaleField (s.d.get ra) v), code := 0 } := rfl

theorem exec_setsign (rd ra : DSel) (g : BitVec 1) (s : State) : exec (.setsign rd ra g) s =
    .next { s with d := s.d.set rd (setSignField (s.d.get ra) g), code := 0 } := rfl

/-- Settles O30: both commands write one field of word 3, whatever the value. -/
theorem scaleAndSignWrites : Obligations.ScaleAndSignWrites := by
  intro s rd ra v g
  refine ⟨encodedAs_rd_ra (Laws.RoundTrip.setscale rd ra v) rfl ?scaleWord,
    encodedAs_rd_ra (Laws.RoundTrip.setsign rd ra g) rfl ?signWord,
    _, _, exec_setscale rd ra v s, exec_setsign rd ra g s,
    fun k hk => ⟨getLsbD_setScaleField _ v hk, getLsbD_setSignField _ g hk⟩⟩
  case scaleWord => rw [BitVec.toNat_setWidth_of_le (by decide)]; rfl
  case signWord => rw [BitVec.toNat_setWidth_of_le (by decide)]; rfl

end Machine

end Sys2Proof
end

section
/-! PROOF. The wide-integer unit (41_wide.md R111 to R119): what each command answers, the word a three-way comparison gives,
the exact product as a wide register, and `Narrow` against any nearest-even rounding and at its two ends. -/

namespace Sys2Proof

@[simp] theorem toNat_sel_B (r : BSel) : (sel r).toNat = r.val := by revert r; decide

@[simp] theorem toNat_immShiftCount (n : Fin 4096) : (BitVec.ofNat 12 n.val).toNat = n.val := by
  rw [BitVec.toNat_ofNat]; omega

namespace Machine

/-! ## Shifts (41_wide.md R111, R112) -/

theorem exec_bshl (bd ba : BSel) (n : Fin 4096) (s : State) : exec (.bshl bd ba n) s =
    .next { s with b := s.b.set bd { s.b.get ba with mag := (s.b.get ba).mag <<< n.val }, code := 0 } := rfl

theorem exec_bshr (bd ba : BSel) (n : Fin 4096) (s : State) : exec (.bshr bd ba n) s =
    .next { s with b := s.b.set bd { s.b.get ba with mag := (s.b.get ba).mag >>> n.val }, code := 0 } := rfl

/-- Settles O31: a shift of the 256 bits is a multiplication modulo `2^256` or a floor division of the number they stand for. -/
theorem wideShifts : Obligations.WideShifts := by
  intro s bd ba n
  refine ⟨encodedAs_of_fields (Laws.RoundTrip.bshl bd ba n) rfl (by simp),
    encodedAs_of_fields (Laws.RoundTrip.bshr bd ba n) rfl (by simp),
    _, _, exec_bshl bd ba n s, ?left, rfl, rfl, exec_bshr bd ba n s, ?right, rfl, rfl⟩
  case left => rw [BitVec.toNat_shiftLeft, Nat.shiftLeft_eq]
  case right => rw [BitVec.toNat_ushiftRight, Nat.shiftRight_eq_div_pow]

/-! ## Tests (41_wide.md R113, R114) -/

theorem truthWord_decide (p : Prop) [Decidable p] : truthWord (decide p) = if p then 1 else 0 := by
  simp only [truthWord, decide_eq_true_eq]

theorem orderWord_compare (m n : Nat) :
    orderWord (compare m n) = if m = n then 0 else if n < m then 1 else 0xFFFFFFFF := by
  rcases Nat.lt_trichotomy m n with hlt | heq | hgt
  · rw [compare_lt_iff_lt.mpr hlt, if_neg hlt.ne, if_neg hlt.asymm]; rfl
  · rw [compare_eq_iff_eq.mpr heq, if_pos heq]; rfl
  · rw [compare_gt_iff_gt.mpr hgt, if_neg hgt.ne', if_pos hgt]; rfl

theorem mag_eq_zero_iff (m : Mag) : m = 0 ↔ m.toNat = 0 := BitVec.toNat_eq

theorem exec_biszero (ba : BSel) (s : State) : exec (.biszero ba) s =
    .next { s with res := truthWord (decide ((s.b.get ba).mag = 0)), code := 0 } := rfl

theorem exec_bcmp (ba bb : BSel) (s : State) : exec (.bcmp ba bb) s =
    .next { s with res := orderWord (compare (s.b.get ba).mag.toNat (s.b.get bb).mag.toNat), code := 0 } := rfl

/-- Settles O32: the two words of `RES` as functions of the magnitudes. -/
theorem wideTests : Obligations.WideTests := by
  intro s ba bb
  refine ⟨encodedAs_of_fields (Laws.RoundTrip.biszero ba) rfl (by simp),
    encodedAs_of_fields (Laws.RoundTrip.bcmp ba bb) rfl (by simp), ?biszero, ?bcmp⟩
  case biszero => simp only [exec_biszero, truthWord_decide, mag_eq_zero_iff]
  case bcmp => rw [exec_bcmp, orderWord_compare]

/-! ## Sum and difference (41_wide.md R115, R116) -/

section
variable {s : State} {ba bb : BSel} (bd : BSel)

theorem exec_badd_of_lt (h : (s.b.get ba).mag.toNat + (s.b.get bb).mag.toNat < 2 ^ 256) : exec (.badd bd ba bb) s =
    .next { s with b := s.b.set bd { s.b.get ba with
      mag := BitVec.ofNat 256 ((s.b.get ba).mag.toNat + (s.b.get bb).mag.toNat) }, code := 0 } :=
  if_pos h

theorem exec_badd_of_carry (h : 2 ^ 256 ≤ (s.b.get ba).mag.toNat + (s.b.get bb).mag.toNat) :
    exec (.badd bd ba bb) s = .next { s with code := 1 } :=
  if_neg (Nat.not_lt.mpr h)

theorem exec_bsub_of_le (h : (s.b.get bb).mag.toNat ≤ (s.b.get ba).mag.toNat) : exec (.bsub bd ba bb) s =
    .next { s with b := s.b.set bd { s.b.get ba with
      mag := BitVec.ofNat 256 ((s.b.get ba).mag.toNat - (s.b.get bb).mag.toNat) }, code := 0 } :=
  if_neg (Nat.not_lt.mpr h)

theorem exec_bsub_of_borrow (h : (s.b.get ba).mag.toNat < (s.b.get bb).mag.toNat) :
    exec (.bsub bd ba bb) s = .next { s with code := 5 } :=
  if_pos h

end

/-- Settles O33: on either side of each bound; the sum is below `2^256` by its guard, the difference as its minuend is. -/
theorem wideSumAndDifference : Obligations.WideSumAndDifference := by
  intro s bd ba bb
  refine ⟨encodedAs_of_fields (Laws.RoundTrip.badd bd ba bb) rfl (by simp),
    encodedAs_of_fields (Laws.RoundTrip.bsub bd ba bb) rfl (by simp),
    fun hfits => ⟨_, exec_badd_of_lt bd hfits, ?sum, rfl, rfl⟩, exec_badd_of_carry bd,
    fun hle => ⟨_, exec_bsub_of_le bd hle, ?difference, rfl, rfl⟩, exec_bsub_of_borrow bd⟩
  case sum => exact Nat.mod_eq_of_lt hfits
  case difference =>
    have hfits := lt_of_le_of_lt (Nat.sub_le _ (s.b.get bb).mag.toNat) (s.b.get ba).mag.isLt
    rw [BitVec.toNat_ofNat, Nat.mod_eq_of_lt hfits, Nat.sub_add_cancel hle]

/-! ## Product (41_wide.md R117) -/

/-- The product of two decimals as BMUL writes it: no rounding, no limit on the scale. -/
def wideProductOf (a b : Dec) : Wide :=
  ⟨BitVec.ofNat 256 (mant a * mant b), BitVec.ofNat 8 (scale a + scale b), sign a ^^ sign b⟩

theorem exec_bmul (bd : BSel) (ra rb : DSel) (s : State) : exec (.bmul bd ra rb) s =
    withDecs s ra rb fun a b => putB s bd (wideProductOf a b) := rfl

theorem exec_bmul_of_valid {s : State} {ra rb : DSel} (bd : BSel) (ha : valid (s.d.get ra) = true)
    (hb : valid (s.d.get rb) = true) : exec (.bmul bd ra rb) s =
      .next { s with b := s.b.set bd (wideProductOf (s.d.get ra) (s.d.get rb)), code := 0 } :=
  (exec_bmul bd ra rb s).trans (withDecs_valid ha hb)

theorem exec_bmul_of_malformed {s : State} {ra rb : DSel} (bd : BSel)
    (h : valid (s.d.get ra) = false ∨ valid (s.d.get rb) = false) :
    exec (.bmul bd ra rb) s = .next { s with code := 4 } :=
  (exec_bmul bd ra rb s).trans (withDecs_malformed (Bool.and_eq_false_iff.mpr h))

theorem mant_mul_mant_lt (a b : Dec) : mant a * mant b < 2 ^ 192 :=
  calc mant a * mant b < 2 ^ 96 * 2 ^ 96 := Nat.mul_lt_mul'' (mant_lt a) (mant_lt b)
    _ = 2 ^ 192 := (pow_add 2 96 96).symm

theorem toNat_mag_wideProductOf (a b : Dec) : (wideProductOf a b).mag.toNat = mant a * mant b :=
  Nat.mod_eq_of_lt ((mant_mul_mant_lt a b).trans (by decide))

theorem toNat_scale_wideProductOf {a b : Dec} (ha : valid a = true) (hb : valid b = true) :
    (wideProductOf a b).scale.toNat = scale a + scale b := by
  have hsa := scale_le ha
  have hsb := scale_le hb
  exact Nat.mod_eq_of_lt (by omega)

/-- The factor `(-1)^sign` of a product. -/
theorem signFactor_xor (s t : Bool) :
    (if (s ^^ t) = true then -1 else 1 : ℚ) = (if s = true then -1 else 1) * (if t = true then -1 else 1) := by
  cases s <;> cases t <;> norm_num

/-- The product loses nothing (41_wide.md R117). -/
theorem val_wideProductOf {a b : Dec} (ha : valid a = true) (hb : valid b = true) :
    (wideProductOf a b).val = val a * val b := by
  rw [Wide.val, toNat_mag_wideProductOf, toNat_scale_wideProductOf ha hb, wideProductOf, signFactor_xor, val, val, pow_add]
  push_cast
  ring

/-- Settles O34: the product of two 96-bit mantissas and the sum of two legal scales fit their fields, so no field wraps. -/
theorem wideProduct : Obligations.WideProduct := by
  intro s bd ra rb
  refine ⟨encodedAs_of_fields (Laws.RoundTrip.bmul bd ra rb) rfl (by simp), exec_bmul_of_malformed bd,
    fun ha hb => ⟨_, exec_bmul_of_valid bd ha hb, toNat_mag_wideProductOf _ _, ?below, toNat_scale_wideProductOf ha hb, rfl,
      val_wideProductOf ha hb⟩⟩
  case below => exact toNat_mag_wideProductOf _ _ ▸ mant_mul_mant_lt _ _

/-! ## The function `Narrow` (41_wide.md R118) -/

theorem narrow_of_not_fits (s : Bool) {M c : Nat} (h : fitsDropping M c = false) : narrow s M c = .error .tooBig := by
  rw [narrow, h]; rfl

theorem narrow_of_fits (s : Bool) {M c : Nat} (h : fitsDropping M c = true) : narrow s M c =
    if dropDigits M (digitsToDrop M c) = 0 ∧ 0 < M then .error .tooSmall
    else .ok (mkdec s (dropDigits M (digitsToDrop M c)) (c - digitsToDrop M c)) := by
  rw [narrow, if_pos h]

theorem fitsDropping_eq_false_iff (M k : Nat) : fitsDropping M k = false ↔ 2 ^ 96 - 1 < dropDigits M k := by
  rw [← Bool.not_eq_true, fitsDropping_iff]; omega

/-- There is one function of nearest-even quotients. -/
theorem eq_dropDigits_of_isNearestEven {M : Nat} {r : Nat → Nat} (h : ∀ k, IsNearestEven ((M : ℚ) / 10 ^ k) (r k)) :
    r = dropDigits M :=
  funext fun k => (h k).unique (isNearestEven_dropDigits M k)

/-- Settles O35: the given function is `dropDigits M`, and the number of digits is what the search finds. -/
theorem narrowDropsLeastDigits : Obligations.NarrowDropsLeastDigits := by
  intro s M c r hr
  obtain rfl := eq_dropDigits_of_isNearestEven hr
  refine ⟨fun hbig => narrow_of_not_fits s ((fitsDropping_eq_false_iff M c).mpr hbig), fun hle => ?fits⟩
  case fits =>
    have hfits : fitsDropping M c = true := (fitsDropping_iff M c).mpr (by omega)
    obtain ⟨hmin, hmax, hfit, hleast⟩ := digitsToDrop_spec hfits
    exact ⟨digitsToDrop M c, hmin, hmax, Nat.le_pred_of_lt ((fitsDropping_iff M _).mp hfit),
      fun j hj hlt => (fitsDropping_eq_false_iff M j).mp (hleast j hj hlt), narrow_of_fits s hfits⟩

/-! ## NARROW (41_wide.md R119) -/

theorem exec_narrow (rd : DSel) (ba : BSel) (s : State) : exec (.narrow rd ba) s =
    putResult s rd (narrow (s.b.get ba).sign (s.b.get ba).mag.toNat (s.b.get ba).scale.toNat) := rfl

theorem fitsDropping_of_dropDigits_eq_zero {M k : Nat} (h : dropDigits M k = 0) : fitsDropping M k = true := by
  rw [fitsDropping_iff, h]; exact Nat.two_pow_pos 96

@[simp] theorem dropDigits_of_zero (k : Nat) : dropDigits 0 k = 0 := Nat.le_zero.mp (dropDigits_le 0 k)

/-- Nothing but digits beyond scale 28 leaves a zero magnitude. -/
theorem digitsToDrop_of_zero (c : Nat) : digitsToDrop 0 c = c - 28 :=
  leastFrom_eq (Nat.le_refl _) (Nat.le_add_right _ _)
    (.inl (fitsDropping_of_dropDigits_eq_zero (dropDigits_of_zero _))) fun _ hle hlt => absurd hle (Nat.not_le.mpr hlt)

theorem narrow_of_zero (s : Bool) (c : Nat) : narrow s 0 c = .ok (mkdec s 0 (min c 28)) := by
  have hscale : c - (c - 28) = min c 28 := by omega
  rw [narrow_of_fits s (fitsDropping_of_dropDigits_eq_zero (dropDigits_of_zero c)), if_neg (fun h => Nat.lt_irrefl 0 h.2),
    dropDigits_of_zero, digitsToDrop_of_zero, hscale]

/-- A magnitude below half a unit rounds to zero. -/
theorem dropDigits_eq_zero_of_lt {M k : Nat} (h : 2 * M < 10 ^ k) : dropDigits M k = 0 := by
  have hlt : M < 10 ^ k := by omega
  rw [dropDigits, rneDiv, Nat.mod_eq_of_lt hlt, if_pos h, Nat.div_eq_of_lt hlt]

/-- From scale 106 on at least 78 digits go, and `2^256` is below half of `10^78`. -/
theorem narrow_of_scale_ge_106 (s : Bool) {M c : Nat} (hpos : 0 < M) (hlt : M < 2 ^ 256) (hc : 106 ≤ c) :
    narrow s M c = .error .tooSmall := by
  have hzero : ∀ k, 78 ≤ k → dropDigits M k = 0 := fun k hk => dropDigits_eq_zero_of_lt <|
    calc 2 * M < 2 * 2 ^ 256 := by omega
      _ < 10 ^ 78 := by decide
      _ ≤ 10 ^ k := Nat.pow_le_pow_right (by decide) hk
  have hfits := fitsDropping_of_dropDigits_eq_zero (hzero c (by omega))
  obtain ⟨hmin, -, -, -⟩ := digitsToDrop_spec hfits
  rw [narrow_of_fits s hfits, if_pos ⟨hzero _ (by omega), hpos⟩]

/-- Settles O36: the command reports what the function answers, and its corners are the function's at 0 and from scale 106. -/
theorem narrowCommand : Obligations.NarrowCommand := by
  intro s rd ba
  refine ⟨encodedAs_of_fields (Laws.RoundTrip.narrow rd ba) rfl (by simp), fun x hx => ?result,
    fun e he => ⟨narrow_error he, ?code⟩, fun hzero => ?zero, fun hne hscale => ?tiny⟩
  case result => rw [exec_narrow, hx, putResult_ok]
  case code => rw [exec_narrow, he, putResult_error]
  case zero => rw [exec_narrow, (mag_eq_zero_iff _).mp hzero, narrow_of_zero, putResult_ok]
  case tiny =>
    have hpos : 0 < (s.b.get ba).mag.toNat := Nat.pos_of_ne_zero (mt (mag_eq_zero_iff _).mpr hne)
    rw [exec_narrow, narrow_of_scale_ge_106 _ hpos (s.b.get ba).mag.isLt hscale, putResult_error]
    rfl

end Machine

end Sys2Proof
end

section
/-! PROOF. The scale-alignment unit (42_align.md R130, R131): an aligned operand as a number, as a value and as a wide register,
and what ALIGN answers. -/

namespace Sys2Proof

/-- The immediate `IMM[3:0] = RC`, a register number of either file (30_encoding.md R73). -/
theorem toNat_immSel {n : Nat} (hn : n ≤ 16) (r : Fin n) : (BitVec.ofNat 12 r.val).toNat = r.val := by
  rw [BitVec.toNat_ofNat]; omega

namespace Machine

/-! ## The function `Align` (42_align.md R131) -/

theorem scale_le_commonScale_left (a b : Dec) : scale a ≤ commonScale a b := Nat.le_max_left _ _

theorem scale_le_commonScale_right (a b : Dec) : scale b ≤ commonScale a b := Nat.le_max_right _ _

/-- Taking a mantissa to a larger scale changes no value. -/
theorem val_eq_alignedMant {t : Nat} {x : Dec} (h : scale x ≤ t) :
    val x = (if sign x then -1 else 1) * (alignedMant t x : ℚ) / 10 ^ t := by
  have hpow : (10 : ℚ) ^ t = 10 ^ (t - scale x) * 10 ^ scale x := (pow_sub_mul_pow 10 h).symm
  have hmant : (alignedMant t x : ℚ) = mant x * 10 ^ (t - scale x) := by rw [alignedMant]; push_cast; rfl
  rw [val, hpow, hmant]
  field_simp

/-- Settles O39: the operands' scales are at most the shared one, so both aligned mantissas stand for the values. -/
theorem alignmentKeepsValue : Obligations.AlignmentKeepsValue := fun a b _ _ =>
  ⟨rfl, rfl, rfl, val_eq_alignedMant (scale_le_commonScale_left a b), val_eq_alignedMant (scale_le_commonScale_right a b)⟩

/-! ## ALIGN (42_align.md R130) -/

/-- At a legal scale an aligned mantissa is far inside the 256-bit workspace (42_align.md R132). -/
theorem alignedMant_lt {t : Nat} (ht : t ≤ 28) (x : Dec) : alignedMant t x < 2 ^ 190 :=
  have hpow : 10 ^ (t - scale x) ≤ 10 ^ 28 := Nat.pow_le_pow_right (by decide) (by omega)
  calc mant x * 10 ^ (t - scale x) ≤ 2 ^ 96 * 10 ^ 28 := Nat.mul_le_mul (mant_lt x).le hpow
    _ < 2 ^ 190 := by decide

section Fields
variable {t : Nat} (ht : t ≤ 28) (x : Dec)
include ht

theorem toNat_mag_alignedWide : (alignedWide t x).mag.toNat = alignedMant t x :=
  Nat.mod_eq_of_lt ((alignedMant_lt ht x).trans (by decide))

theorem toNat_scale_alignedWide : (alignedWide t x).scale.toNat = t := Nat.mod_eq_of_lt (by omega)

end Fields

theorem exec_align (bd bc : BSel) (ra rb : DSel) (s : State) : exec (.align bd bc ra rb) s =
    withDecs s ra rb fun a b =>
      putB (s.writeB bd (alignedWide (commonScale a b) a)) bc (alignedWide (commonScale a b) b) := rfl

theorem exec_align_of_valid {s : State} {ra rb : DSel} (bd bc : BSel) (ha : valid (s.d.get ra) = true)
    (hb : valid (s.d.get rb) = true) : exec (.align bd bc ra rb) s =
      .next { s with
        b := (s.b.set bd (alignedWide (commonScale (s.d.get ra) (s.d.get rb)) (s.d.get ra))).set bc
          (alignedWide (commonScale (s.d.get ra) (s.d.get rb)) (s.d.get rb)),
        code := 0 } :=
  (exec_align bd bc ra rb s).trans (withDecs_valid ha hb)

theorem exec_align_of_malformed {s : State} {ra rb : DSel} (bd bc : BSel)
    (h : valid (s.d.get ra) = false ∨ valid (s.d.get rb) = false) :
    exec (.align bd bc ra rb) s = .next { s with code := 4 } :=
  (exec_align bd bc ra rb s).trans (withDecs_malformed (Bool.and_eq_false_iff.mpr h))

/-- Settles O38: the shared scale of well-formed operands is at most 28, so neither aligned mantissa nor the scale wraps. -/
theorem alignCommand : Obligations.AlignCommand := by
  intro s bd bc ra rb
  refine ⟨encodedAs_of_fields (Laws.RoundTrip.align bd bc ra rb) rfl ?number, exec_align_of_malformed bd bc,
    fun ha hb => ?aligned⟩
  case number => simp [-BitVec.toNat_ofNat, toNat_immSel]
  case aligned =>
    have ht := commonScale_le ha hb
    exact ⟨_, _, exec_align_of_valid bd bc ha hb, toNat_mag_alignedWide ht _, toNat_mag_alignedWide ht _,
      toNat_scale_alignedWide ht _, rfl, rfl, rfl⟩

end Machine

end Sys2Proof
end

section
/-! PROOF. The arithmetic unit (43_arith.md R136 to R140): what ADD, SUB, MUL, DIV and NEG answer, by the well-formedness of their
operands and the outcome of the one narrowing each of them does. -/

namespace Sys2Proof.Machine

theorem withDecs_of_malformed {s : State} {ra rb : DSel} {k : Dec → Dec → StepResult}
    (h : valid (s.d.get ra) = false ∨ valid (s.d.get rb) = false) :
    withDecs s ra rb k = .next { s with code := 4 } := withDecs_malformed (Bool.and_eq_false_iff.mpr h)

/-! ## Negation (43_arith.md R140) -/

@[simp] theorem flipSign_flipSign (d : Dec) : flipSign (flipSign d) = d := by
  rw [flipSign, flipSign, BitVec.xor_assoc, BitVec.xor_self, BitVec.xor_zero]

/-- Packing with the sign inverted inverts bit 127 and nothing else. -/
theorem mkdec_not_sign {d : Dec} (h : valid d = true) : mkdec (!sign d) (mant d) (scale d) = flipSign d := by
  have hflip : valid (flipSign d) = true := (valid_flipSign d).trans h
  rw [← mkdec_of_valid hflip, sign_flipSign, mant_flipSign, scale_flipSign]

theorem exec_neg (rd ra : DSel) (s : State) : exec (.neg rd ra) s =
    withDec s ra fun a => putD s rd (mkdec (!sign a) (mant a) (scale a)) := rfl

theorem exec_neg_of_valid {s : State} {ra : DSel} (rd : DSel) (h : valid (s.d.get ra) = true) : exec (.neg rd ra) s =
    .next { s with d := s.d.set rd (flipSign (s.d.get ra)), code := 0 } := by
  rw [exec_neg, withDec_valid h, mkdec_not_sign h, putD_eq]

/-- Settles O48: on a well-formed operand NEG is `flipSign`, which is its own inverse. -/
theorem negCommand : Obligations.NegCommand := by
  intro s rd ra re
  refine ⟨encodedAs_of_fields (Laws.RoundTrip.neg rd ra) rfl (by simp),
    fun h => (exec_neg rd ra s).trans (withDec_malformed h), fun ha => ?inverted⟩
  case inverted =>
    have hflip : valid (flipSign (s.d.get ra)) = true := (valid_flipSign _).trans ha
    have hread : (s.d.set rd (flipSign (s.d.get ra))).get rd = flipSign (s.d.get ra) := by rw [get_set, if_pos rfl]
    have hvalid : valid ((s.d.set rd (flipSign (s.d.get ra))).get rd) = true := by rw [hread, hflip]
    refine ⟨_, exec_neg_of_valid rd ha, hflip, sign_flipSign _, mant_flipSign _, scale_flipSign _, val_flipSign _,
      _, exec_neg_of_valid re hvalid, ?twice⟩
    case twice => rw [get_set, if_pos rfl, hread, flipSign_flipSign]

/-! ## Addition and subtraction (43_arith.md R136, R137) -/

/-- The sum of `a` and of `b` with its sign replaced by `g`: the one operation behind ADD and SUB. -/
def addWithSign (a b : Dec) (g : Bool) : Except StatusCode Dec :=
  narrow (sumSign (sign a) (alignedMant (commonScale a b) a) g (alignedMant (commonScale a b) b))
    (sumMag (sign a) (alignedMant (commonScale a b) a) g (alignedMant (commonScale a b) b)) (commonScale a b)

theorem addDec_eq (a b : Dec) : addDec a b = addWithSign a b (sign b) := by
  rw [addDec, addWithSign]

theorem addDec_flipSign (a b : Dec) : addDec a (flipSign b) = addWithSign a b (!sign b) := by
  simp only [addDec, addWithSign, commonScale, alignedMant, sign_flipSign, mant_flipSign, scale_flipSign]

theorem exec_add (rd ra rb : DSel) (s : State) : exec (.add rd ra rb) s =
    withDecs s ra rb fun a b => putResult s rd (addDec a b) := rfl

theorem exec_sub (rd ra rb : DSel) (s : State) : exec (.sub rd ra rb) s =
    withDecs s ra rb fun a b => putResult s rd (addDec a (flipSign b)) := rfl

section
variable {s : State} {ra rb : DSel} (rd : DSel) (ha : valid (s.d.get ra) = true) (hb : valid (s.d.get rb) = true)
include ha hb

theorem exec_add_of_valid :
    exec (.add rd ra rb) s = putResult s rd (addWithSign (s.d.get ra) (s.d.get rb) (sign (s.d.get rb))) := by
  rw [exec_add, withDecs_valid ha hb, addDec_eq]

theorem exec_sub_of_valid :
    exec (.sub rd ra rb) s = putResult s rd (addWithSign (s.d.get ra) (s.d.get rb) (!sign (s.d.get rb))) := by
  rw [exec_sub, withDecs_valid ha hb, addDec_flipSign]

end

/-- The branches of R136 say what `sumSign` and `sumMag` answer. -/
theorem sum_of_branches {sa sb g : Bool} {A B M : Nat}
    (h : if sa = sb then M = A + B ∧ g = sb
      else if B < A then M = A - B ∧ g = sa
      else if A < B then M = B - A ∧ g = sb
      else M = 0 ∧ g = false) : sumSign sa A sb B = g ∧ sumMag sa A sb B = M := by
  rw [sumSign, sumMag]
  split at h
  next hsame => obtain ⟨rfl, rfl⟩ := h; simp only [hsame, if_true, and_self]
  next hdiff =>
    rw [if_neg hdiff, if_neg hdiff]
    split at h
    next hgt => obtain ⟨rfl, rfl⟩ := h; rw [if_pos hgt, if_pos hgt]; exact ⟨rfl, rfl⟩
    next hle =>
      rw [if_neg hle, if_neg hle]
      split at h
      next hlt => obtain ⟨rfl, rfl⟩ := h; rw [if_pos hlt]; exact ⟨rfl, rfl⟩
      next hge => obtain ⟨rfl, rfl⟩ := h; rw [if_neg hge]; exact ⟨rfl, by omega⟩

/-- What vanishes with one digit more is at most 5 before: one digit never takes a mantissa from too wide to zero. -/
theorem fitsDropping_of_dropDigits_succ_eq_zero {M k : Nat} (h : dropDigits M (k + 1) = 0) : fitsDropping M k = true := by
  have hpos : 0 < 10 ^ k := Nat.pow_pos (by decide)
  have hhalf : 2 * M ≤ 10 ^ (k + 1) := by
    have hbound := (rneDiv_bounds M (d := 10 ^ (k + 1)) (Nat.pow_pos (by decide))).2
    rwa [← dropDigits, h, Nat.mul_zero, Nat.mul_zero, Nat.zero_add] at hbound
  have hquot : M / 10 ^ k < 6 := (Nat.div_lt_iff_lt_mul hpos).mpr (by rw [pow_succ] at hhalf; omega)
  have hround : dropDigits M k ≤ M / 10 ^ k + 1 := rneDiv_le M _
  rw [fitsDropping_iff]
  omega

/-- At a legal scale narrowing drops digits only to make the mantissa fit, so nothing rounds to zero: code 2 cannot occur. -/
theorem narrow_error_of_scale_le {g : Bool} {M t : Nat} {e : StatusCode} (ht : t ≤ 28)
    (h : narrow g M t = .error e) : e = .tooBig := by
  rcases narrow_cases g M t with ⟨-, hbig⟩ | ⟨hfits, hzero, hpos, -⟩ | ⟨-, -, -, -, hok⟩
  · rw [hbig] at h; cases h; rfl
  · obtain ⟨-, -, -, hleast⟩ := digitsToDrop_spec hfits
    exfalso
    cases hk : digitsToDrop M t with
    | zero => rw [hk, dropDigits_zero] at hzero; omega
    | succ k =>
      rw [hk] at hzero hleast
      have hwide := hleast k (by omega) k.lt_succ_self
      rw [fitsDropping_of_dropDigits_succ_eq_zero hzero] at hwide
      cases hwide
  · rw [hok] at h; cases h

/-- Settles O41: ADD and SUB are one operation given the second operand's sign, whose branches are those of `sumSign` and
`sumMag`; the shared scale is legal, so the narrowing can only overflow. -/
theorem addAndSubCommands : Obligations.AddAndSubCommands := by
  intro s rd ra rb
  refine ⟨encodedAs_of_fields (Laws.RoundTrip.add rd ra rb) rfl (by simp),
    encodedAs_of_fields (Laws.RoundTrip.sub rd ra rb) rfl (by simp),
    fun h => ⟨(exec_add rd ra rb s).trans (withDecs_of_malformed h),
      (exec_sub rd ra rb s).trans (withDecs_of_malformed h)⟩, fun ha hb i sb hi => ?sum⟩
  case sum =>
    have hexec : exec i s = putResult s rd (addWithSign (s.d.get ra) (s.d.get rb) sb) := by
      rcases hi with ⟨rfl, rfl⟩ | ⟨rfl, rfl⟩
      · exact exec_add_of_valid rd ha hb
      · exact exec_sub_of_valid rd ha hb
    rintro t A B M g rfl rfl rfl hbranches
    obtain ⟨hsign, hmag⟩ := sum_of_branches hbranches
    have hsum : addWithSign (s.d.get ra) (s.d.get rb) sb = narrow g M (commonScale (s.d.get ra) (s.d.get rb)) := by
      rw [← hsign, ← hmag]; rfl
    rw [hexec, hsum]
    refine ⟨fun x hx => ?result, fun e he => ?overflow⟩
    case result => exact hx ▸ putResult_ok s rd x
    case overflow =>
      obtain rfl := narrow_error_of_scale_le (commonScale_le ha hb) he
      exact ⟨rfl, he ▸ putResult_error s rd _⟩

/-! ## Multiplication (43_arith.md R138) -/

theorem mulDec_comm (a b : Dec) : mulDec a b = mulDec b a := by
  rw [mulDec, mulDec, Bool.xor_comm, Nat.mul_comm, Nat.add_comm]

/-- The operand check does not see the order of the operands. -/
theorem withDecs_comm {s : State} {ra rb : DSel} {k k' : Dec → Dec → StepResult} (h : ∀ a b, k a b = k' b a) :
    withDecs s ra rb k = withDecs s rb ra k' := by
  rw [withDecs, withDecs, Bool.and_comm, h]

theorem exec_mul (rd ra rb : DSel) (s : State) : exec (.mul rd ra rb) s =
    withDecs s ra rb fun a b => putResult s rd (mulDec a b) := rfl

theorem exec_mul_of_valid {s : State} {ra rb : DSel} (rd : DSel) (ha : valid (s.d.get ra) = true)
    (hb : valid (s.d.get rb) = true) : exec (.mul rd ra rb) s = putResult s rd (mulDec (s.d.get ra) (s.d.get rb)) :=
  (exec_mul rd ra rb s).trans (withDecs_valid ha hb)

theorem exec_mul_comm (s : State) (rd ra rb : DSel) : exec (.mul rd ra rb) s = exec (.mul rd rb ra) s :=
  withDecs_comm fun a b => congrArg (putResult s rd) (mulDec_comm a b)

/-- NARROW of the exact product answers what MUL does: the wide register loses nothing of it. -/
theorem exec_narrow_of_wideProduct {t : State} {bd : BSel} {a b : Dec} (rd : DSel) (ha : valid a = true)
    (hb : valid b = true) (ht : t.b.get bd = wideProductOf a b) :
    exec (.narrow rd bd) t = putResult t rd (mulDec a b) := by
  rw [exec_narrow, ht, toNat_mag_wideProductOf, toNat_scale_wideProductOf ha hb]; rfl

/-- BMUL ends with code 0 only on well-formed operands, with the product in its destination. -/
theorem exec_bmul_ok {s t : State} {bd : BSel} {ra rb : DSel} (h : exec (.bmul bd ra rb) s = .next t) (hcode : t.code = 0) :
    valid (s.d.get ra) = true ∧ valid (s.d.get rb) = true ∧
      t = { s with b := s.b.set bd (wideProductOf (s.d.get ra) (s.d.get rb)), code := 0 } := by
  rw [exec_bmul] at h
  rcases withDecs_cases s ra rb fun a b => putB s bd (wideProductOf a b) with ⟨ha, hb, hput⟩ | ⟨-, hfail⟩
  · rw [hput] at h; cases h; exact ⟨ha, hb, rfl⟩
  · rw [hfail] at h; cases h; cases hcode

/-- One result written over equal decimal registers gives the same code and the same decimal registers, and keeps the wide
ones. -/
theorem putResult_of_same_d {s t : State} (rd : DSel) (r : Except StatusCode Dec) (h : t.d = s.d) :
    ∃ u v, putResult t rd r = .next u ∧ putResult s rd r = .next v ∧ v.code = u.code ∧ v.d = u.d ∧ v.b = s.b := by
  cases r with
  | ok x => exact ⟨_, _, putResult_ok t rd x, putResult_ok s rd x, rfl, by rw [h], rfl⟩
  | error e => exact ⟨_, _, putResult_error t rd e, putResult_error s rd e, rfl, h.symm, rfl⟩

/-- Settles O44: MUL puts the outcome of `mulDec`, which is symmetric and is what NARROW makes of BMUL's product. -/
theorem mulCommand : Obligations.MulCommand := by
  intro s rd ra rb
  refine ⟨encodedAs_of_fields (Laws.RoundTrip.mul rd ra rb) rfl (by simp),
    fun h => (exec_mul rd ra rb s).trans (withDecs_of_malformed h),
    fun ha hb n hn => ⟨fun x hx => ?result, fun e he => ⟨narrow_error (hn.symm.trans he), ?code⟩⟩,
    exec_mul_comm s rd ra rb, fun bd t ht hcode => ?viaWide⟩
  case result => rw [exec_mul_of_valid rd ha hb, mulDec, ← hn, hx, putResult_ok]
  case code => rw [exec_mul_of_valid rd ha hb, mulDec, ← hn, he, putResult_error]
  case viaWide =>
    obtain ⟨ha, hb, rfl⟩ := exec_bmul_ok ht hcode
    rw [exec_mul_of_valid rd ha hb, exec_narrow_of_wideProduct rd ha hb (by rw [get_set, if_pos rfl])]
    exact putResult_of_same_d rd _ rfl

/-! ## Division (43_arith.md R139, R143) -/

theorem divDec_of_zero_divisor {a b : Dec} (h : mant b = 0) : divDec a b = .error .divisionByZero := if_pos h

section
variable {a b : Dec} (hb : mant b ≠ 0)
include hb

theorem divDec_of_narrow_error {e : StatusCode}
    (h : narrow (sign a ^^ sign b) (divQuot a b) (divScale a b) = .error e) : divDec a b = .error e := by
  rw [divDec, if_neg hb, h]

theorem divDec_of_narrow_ok {q : Dec} (h : narrow (sign a ^^ sign b) (divQuot a b) (divScale a b) = .ok q) :
    divDec a b = if mant q = 0 ∧ mant a ≠ 0 then .error .tooSmall else .ok q := by
  rw [divDec, if_neg hb, h]

end

theorem exec_div (rd rc ra rb : DSel) (s : State) : exec (.div rd rc ra rb) s = execDiv rd rc ra rb s := rfl

section
variable {s : State} {ra rb : DSel} (rd rc : DSel) (ha : valid (s.d.get ra) = true) (hb : valid (s.d.get rb) = true)
include ha hb

theorem exec_div_of_error {e : StatusCode} (h : divDec (s.d.get ra) (s.d.get rb) = .error e) :
    exec (.div rd rc ra rb) s = .next { s with code := e.number } := by
  rw [exec_div, execDiv, withDecs_valid ha hb, h]; rfl

theorem exec_div_of_ok {q : Dec} (h : divDec (s.d.get ra) (s.d.get rb) = .ok q) : exec (.div rd rc ra rb) s =
    .next { s with d := (s.d.set rc (divRemainder (s.d.get ra) (s.d.get rb))).set rd q, code := 0 } := by
  rw [exec_div, execDiv, withDecs_valid ha hb, h]; rfl

end

/-- The remainder's scale is `w + scale(b)`, or 28 where that is beyond 28. -/
theorem divRemainder_eq (a b : Dec) : divRemainder a b =
    mkdec (sign a) (dropDigits (divRem a b) (divScale a b + scale b - 28)) (min (divScale a b + scale b) 28) := by
  have hscale : divScale a b + scale b - (divScale a b + scale b - 28) = min (divScale a b + scale b) 28 := by omega
  rw [← hscale]; rfl

/-- The dividend of the long division in R139's own form. -/
theorem divNum_eq {a b : Dec} {v : Nat} (h : scale a - scale b ≤ v) :
    mant a * 10 ^ ((scale b - scale a) + v - (scale a - scale b)) = divNum a b v := by
  rw [Nat.add_sub_assoc h]; rfl

/-- Settles O46: the given `N` is `divNum` from the starting scale on, so the long division stops where `divScale` says, and the
outcome of `divDec` is read off the narrowing of its quotient. -/
theorem divCommand : Obligations.DivCommand := by
  intro s rd rc ra rb
  refine ⟨encodedAs_of_fields (Laws.RoundTrip.div rd rc ra rb) rfl ?number,
    fun h => (exec_div rd rc ra rb s).trans (withDecs_of_malformed h),
    fun ha hb hzero => exec_div_of_error rd rc ha hb (divDec_of_zero_divisor hzero), fun ha hb hne => ?divided⟩
  case number => simp [-BitVec.toNat_ofNat, toNat_immSel]
  case divided =>
    rintro a b w0 e0 N rfl rfl rfl rfl hN
    obtain ⟨hstart, hend, hstop, hleast⟩ := divScale_spec (b := s.d.get rb) ha
    have hnum : ∀ v, scale (s.d.get ra) - scale (s.d.get rb) ≤ v → N v = divNum (s.d.get ra) (s.d.get rb) v :=
      fun v hv => (hN v hv).trans (divNum_eq hv)
    refine ⟨divScale (s.d.get ra) (s.d.get rb), hstart, hend, ?_⟩
    rw [hnum _ hstart]
    refine ⟨hstop, fun v hv hlt => hnum v hv ▸ hleast v hv hlt, fun e he => ?failed, fun q hq => ⟨fun htiny => ?vanished,
      fun hkept => ⟨_, isNearestEven_dropDigits _ _, ?written⟩⟩⟩
    case failed => exact exec_div_of_error rd rc ha hb (divDec_of_narrow_error hne he)
    case vanished => exact exec_div_of_error rd rc ha hb ((divDec_of_narrow_ok hne hq).trans (if_pos htiny))
    case written =>
      have hdiv := (divDec_of_narrow_ok hne hq).trans (if_neg (by omega))
      rw [exec_div_of_ok rd rc ha hb hdiv, divRemainder_eq]; rfl

end Sys2Proof.Machine
end

section
/-! PROOF. The comparison unit (44_compare.md R150 to R156): the three-way order of R150 is the order of the rational values, and
each of the six commands is one test of it. -/

namespace Sys2Proof.Machine

/-! ## The order (44_compare.md R150) -/

/-- At one scale the values of two mantissas are in the order of the mantissas. -/
theorem strictMono_atScale (t : Nat) : StrictMono fun n : Nat => (n : ℚ) / 10 ^ t := fun _ _ h =>
  div_lt_div_of_pos_right (Nat.cast_lt.mpr h) (by positivity)

/-- Of two mantissas that are not both zero, the one taken with a minus sign gives the smaller value. -/
theorem neg_atScale_lt {A B : Nat} (t : Nat) (h : ¬(A = 0 ∧ B = 0)) : -((A : ℚ) / 10 ^ t) < B / 10 ^ t := by
  have hsum : (0 : ℚ) < A + B := by norm_cast; omega
  rw [neg_lt_iff_pos_add', ← add_div]
  positivity

theorem val_of_sign_false {x : Dec} {t : Nat} (hs : sign x = false) (ht : scale x ≤ t) :
    val x = alignedMant t x / 10 ^ t := by
  simp [val_eq_alignedMant ht, hs]

theorem val_of_sign_true {x : Dec} {t : Nat} (hs : sign x = true) (ht : scale x ≤ t) :
    val x = -(alignedMant t x / 10 ^ t) := by
  simp [val_eq_alignedMant ht, hs, neg_div]

/-- `ord` is the order of the values: two zeros are equal, different signs decide, and of one sign the aligned mantissas are in
the order of the values, or in the reverse of it when both operands are negative. -/
theorem ord_eq_compare_val (a b : Dec) : ord a b = compare (val a) (val b) := by
  have hta := scale_le_commonScale_left a b
  have htb := scale_le_commonScale_right a b
  have hmono := strictMono_atScale (commonScale a b)
  rw [ord]
  split
  next hzero =>
    obtain ⟨hA, hB⟩ := hzero
    rw [val_eq_alignedMant hta, val_eq_alignedMant htb, hA, hB]
    simp
  next hzero =>
    split
    next ha hb =>
      rw [val_of_sign_false ha hta, val_of_sign_true hb htb]
      exact (compare_gt_iff_gt.mpr (neg_atScale_lt _ (mt And.symm hzero))).symm
    next ha hb =>
      rw [val_of_sign_true ha hta, val_of_sign_false hb htb]
      exact (compare_lt_iff_lt.mpr (neg_atScale_lt _ hzero)).symm
    next ha hb =>
      rw [val_of_sign_false ha hta, val_of_sign_false hb htb, ← cmp_eq_compare, ← cmp_eq_compare]
      exact (hmono.cmp_map_eq _ _).symm
    next ha hb =>
      rw [val_of_sign_true ha hta, val_of_sign_true hb htb, ← cmp_eq_compare, ← cmp_eq_compare]
      exact (hmono.neg.cmp_map_eq _ _).symm

/-! ## The commands (44_compare.md R151 to R156) -/

/-- The encoding of a command that reads `D[RA]` and `D[RB]` and writes `RES`. -/
theorem encodedAs_ra_rb {i : Instr} {op : BitVec 8} {ra rb : DSel} {n : Nat}
    (hround : Laws.RoundTrip.Statement i) (henc : encode i = commandWord op 0 (sel ra) (sel rb) 0)
    (hn : op.toNat * 2 ^ 24 + ra.val * 2 ^ 16 + rb.val * 2 ^ 12 = n) : EncodedAs i n :=
  encodedAs_of_fields hround henc (by simpa using hn)

section
variable (ra rb : DSel) (s : State)

theorem exec_iseq : exec (.iseq ra rb) s = compareTo (fun o => decide (o = .eq)) ra rb s := rfl

theorem exec_isne : exec (.isne ra rb) s = compareTo (fun o => decide (o ≠ .eq)) ra rb s := rfl

theorem exec_islt : exec (.islt ra rb) s = compareTo (fun o => decide (o = .lt)) ra rb s := rfl

theorem exec_isle : exec (.isle ra rb) s = compareTo (fun o => decide (o ≠ .gt)) ra rb s := rfl

theorem exec_isgt : exec (.isgt ra rb) s = compareTo (fun o => decide (o = .gt)) ra rb s := rfl

theorem exec_isge : exec (.isge ra rb) s = compareTo (fun o => decide (o ≠ .lt)) ra rb s := rfl

/-- All six commands have the common form. -/
theorem exec_comparison : ∀ i ∈ [Instr.iseq ra rb, .isne ra rb, .islt ra rb, .isle ra rb, .isgt ra rb, .isge ra rb],
    ∃ test, exec i s = compareTo test ra rb s := by
  simp only [List.forall_mem_cons]
  exact ⟨⟨_, exec_iseq ra rb s⟩, ⟨_, exec_isne ra rb s⟩, ⟨_, exec_islt ra rb s⟩, ⟨_, exec_isle ra rb s⟩,
    ⟨_, exec_isgt ra rb s⟩, ⟨_, exec_isge ra rb s⟩, List.forall_mem_nil _⟩

end

section
variable {s : State} {ra rb : DSel}

theorem compareTo_of_malformed {test : Ordering → Bool} (h : valid (s.d.get ra) = false ∨ valid (s.d.get rb) = false) :
    compareTo test ra rb s = .next { s with code := 4 } := withDecs_of_malformed h

/-- A comparison answers the relation `p` that its test says of the order of the values. -/
theorem compareTo_of_valid {test : Ordering → Prop} [DecidablePred test] {p : Prop} [Decidable p]
    (ha : valid (s.d.get ra) = true) (hb : valid (s.d.get rb) = true)
    (htest : test (compare (val (s.d.get ra)) (val (s.d.get rb))) ↔ p) :
    compareTo (fun o => decide (test o)) ra rb s = .next { s with res := if p then 1 else 0, code := 0 } := by
  rw [compareTo, withDecs_valid ha hb, ord_eq_compare_val, putRes_eq, truthWord_decide, if_congr htest rfl rfl]

end

/-- Settles O49: each command tests `ord`, which is the order of the values. -/
theorem comparisonsAreNumericOrder : Obligations.ComparisonsAreNumericOrder := by
  intro s ra rb
  refine ⟨⟨encodedAs_ra_rb (Laws.RoundTrip.iseq ra rb) rfl rfl, encodedAs_ra_rb (Laws.RoundTrip.isne ra rb) rfl rfl,
    encodedAs_ra_rb (Laws.RoundTrip.islt ra rb) rfl rfl, encodedAs_ra_rb (Laws.RoundTrip.isle ra rb) rfl rfl,
    encodedAs_ra_rb (Laws.RoundTrip.isgt ra rb) rfl rfl, encodedAs_ra_rb (Laws.RoundTrip.isge ra rb) rfl rfl⟩,
    fun h i hi => ?malformed, fun ha hb => ⟨?iseq, ?isne, ?islt, ?isle, ?isgt, ?isge⟩⟩
  case malformed =>
    obtain ⟨_, hexec⟩ := exec_comparison ra rb s i hi
    exact hexec.trans (compareTo_of_malformed h)
  case iseq => rw [exec_iseq, compareTo_of_valid ha hb compare_eq_iff_eq]
  case isne => rw [exec_isne, compareTo_of_valid ha hb compare_eq_iff_eq.not]
  case islt => rw [exec_islt, compareTo_of_valid ha hb compare_lt_iff_lt]
  case isle => rw [exec_isle, compareTo_of_valid ha hb compare_le_iff_le]
  case isgt => rw [exec_isgt, compareTo_of_valid ha hb compare_gt_iff_gt]
  case isge => rw [exec_isge, compareTo_of_valid ha hb compare_ge_iff_ge]

end Sys2Proof.Machine
end

section
/-! PROOF. The rounding unit (46_round.md R171 to R174): what TRUNC, FLOOR, ROUND and ROUNDP write, and which integer near the
exact quotient each of them takes. -/

namespace Sys2Proof.Machine

/-! ## TRUNC and FLOOR (46_round.md R171, R172) -/

/-- The magnitude that FLOOR writes at scale 0: the integral part, and one more for a negative value with a fraction. -/
def floorPart (a : Dec) : Nat := if sign a = true ∧ fracPart a ≠ 0 then intPart a + 1 else intPart a

theorem floorPart_lt (a : Dec) : floorPart a < 2 ^ 96 := by
  rw [floorPart]
  split
  next h => exact intPart_succ_lt a h.2
  next => exact intPart_lt a

theorem natAbs_floor_abs_val (a : Dec) : ⌊|val a|⌋.natAbs = intPart a := by
  rw [abs_val, floor_mant_div, Int.natAbs_natCast]

/-- The magnitude's ceiling is its floor, or one more where there is a fraction. -/
theorem ceil_mant_div (a : Dec) :
    ⌈(mant a : ℚ) / 10 ^ scale a⌉ = if fracPart a ≠ 0 then (intPart a : ℤ) + 1 else intPart a := by
  have hpow : (0 : ℚ) < 10 ^ scale a := by positivity
  have hlt : (fracPart a : ℚ) / 10 ^ scale a < 1 := by
    rw [div_lt_one hpow]
    exact_mod_cast Nat.mod_lt (mant a) (Nat.pow_pos (by decide))
  rw [mant_div_eq]
  split
  next h =>
    have hpos : 0 < (fracPart a : ℚ) / 10 ^ scale a := div_pos (Nat.cast_pos.mpr (Nat.pos_of_ne_zero h)) hpow
    rw [Int.ceil_eq_iff]
    push_cast
    constructor <;> linarith
  next h => simp [not_not.mp h]

/-- FLOOR's magnitude with the operand's sign is the floor of the value: of a negative value that is minus the magnitude's
ceiling. -/
theorem floor_val (a : Dec) : ⌊val a⌋ = (if sign a then -1 else 1) * (floorPart a : ℤ) := by
  rw [val, floorPart]
  cases sign a with
  | false => simp [floor_mant_div]
  | true =>
    simp only [if_true, true_and, neg_one_mul, neg_div, Int.floor_neg, ceil_mant_div]
    split <;> simp

theorem exec_trunc (rd ra : DSel) (s : State) : exec (.trunc rd ra) s =
    withDec s ra fun a => putD s rd (mkdec (sign a) (intPart a) 0) := rfl

/-- Both branches of FLOOR pack `floorPart` with the operand's sign. -/
theorem exec_floor (rd ra : DSel) (s : State) : exec (.floor rd ra) s =
    withDec s ra fun a => putD s rd (mkdec (sign a) (floorPart a) 0) := by
  rw [exec, execFloor]
  refine congrArg (withDec s ra) (funext fun a => ?_)
  rw [floorPart]
  split
  next h => rw [h.1]
  next => rfl

section
variable {s : State} {ra : DSel} (rd : DSel) (h : valid (s.d.get ra) = true)
include h

theorem exec_trunc_of_valid : exec (.trunc rd ra) s =
    .next { s with d := s.d.set rd (mkdec (sign (s.d.get ra)) (intPart (s.d.get ra)) 0), code := 0 } := by
  rw [exec_trunc, withDec_valid h, putD_eq]

theorem exec_floor_of_valid : exec (.floor rd ra) s =
    .next { s with d := s.d.set rd (mkdec (sign (s.d.get ra)) (floorPart (s.d.get ra)) 0), code := 0 } := by
  rw [exec_floor, withDec_valid h, putD_eq]

end

/-- Settles O54: both results are packed at scale 0 with the operand's sign, TRUNC's from the floor of the magnitude, FLOOR's
from the floor of the value. -/
theorem truncAndFloor : Obligations.TruncAndFloor := by
  intro s rd ra
  have hscale : 0 ≤ 28 := Nat.zero_le _
  have htrunc := intPart_lt (s.d.get ra)
  have hfloor := floorPart_lt (s.d.get ra)
  refine ⟨encodedAs_rd_ra (Laws.RoundTrip.trunc rd ra) rfl rfl, encodedAs_rd_ra (Laws.RoundTrip.floor rd ra) rfl rfl,
    fun h => ⟨(exec_trunc rd ra s).trans (withDec_malformed h), (exec_floor rd ra s).trans (withDec_malformed h)⟩,
    fun h => ⟨_, _, exec_trunc_of_valid rd h, valid_mkdec _ htrunc hscale, scale_mkdec _ htrunc hscale,
      sign_mkdec _ htrunc hscale, ?truncated, exec_floor_of_valid rd h, valid_mkdec _ hfloor hscale,
      scale_mkdec _ hfloor hscale, sign_mkdec _ hfloor hscale, ?floored⟩⟩
  case truncated => rw [mant_mkdec _ htrunc hscale, natAbs_floor_abs_val]
  case floored =>
    rw [val_mkdec _ hfloor hscale, floor_val, pow_zero, div_one]
    push_cast
    rfl

/-! ## ROUND and ROUNDP (46_round.md R173, R174) -/

@[simp] theorem toNat_immPlaces (p : Fin 32) : (BitVec.ofNat 12 p.val).toNat = p.val := by
  rw [BitVec.toNat_ofNat]; omega

theorem roundedPart_eq_dropDigits (a : Dec) : roundedPart a = dropDigits (mant a) (scale a) := roundedPart_eq a

/-- A decimal rounded to at most `p` places: the digits beyond place `p` are dropped, and the scale is not raised. -/
def roundedTo (p : Nat) (a : Dec) : Dec := mkdec (sign a) (dropDigits (mant a) (scale a - p)) (min (scale a) p)

theorem roundedTo_zero (a : Dec) : roundedTo 0 a = mkdec (sign a) (roundedPart a) 0 := by
  rw [roundedTo, roundedPart_eq_dropDigits, Nat.sub_zero, Nat.min_zero]

theorem roundedTo_of_scale_le {p : Nat} {a : Dec} (ha : valid a = true) (h : scale a ≤ p) : roundedTo p a = a := by
  rw [roundedTo, Nat.sub_eq_zero_of_le h, dropDigits_zero, Nat.min_eq_left h, mkdec_of_valid ha]

theorem roundedTo_of_lt_scale {p : Nat} {a : Dec} (h : p < scale a) :
    roundedTo p a = mkdec (sign a) (dropDigits (mant a) (scale a - p)) p := by
  rw [roundedTo, Nat.min_eq_right h.le]

theorem exec_round (rd ra : DSel) (s : State) : exec (.round rd ra) s =
    withDec s ra fun a => putD s rd (mkdec (sign a) (roundedPart a) 0) := rfl

theorem placesOk_of_le {p : Fin 32} (h : p.val ≤ 28) : placesOk p = true := decide_eq_true h

section
variable {s : State} {ra : DSel} (rd : DSel)

theorem exec_round_of_valid (h : valid (s.d.get ra) = true) : exec (.round rd ra) s =
    .next { s with d := s.d.set rd (mkdec (sign (s.d.get ra)) (roundedPart (s.d.get ra)) 0), code := 0 } := by
  rw [exec_round, withDec_valid h, putD_eq]

theorem exec_round_of_malformed (h : valid (s.d.get ra) = false) :
    exec (.round rd ra) s = .next { s with code := 4 } := by
  rw [exec_round, withDec_malformed h]

variable {p : Fin 32} (hp : p.val ≤ 28)
include hp

theorem exec_roundp_of_valid (h : valid (s.d.get ra) = true) : exec (.roundp rd ra p) s =
    .next { s with d := s.d.set rd (roundedTo p.val (s.d.get ra)), code := 0 } := by
  refine (if_pos (placesOk_of_le hp)).trans ((withDec_valid h).trans ?_)
  split
  next hle => rw [roundedTo_of_scale_le h hle, putD_eq]
  next hlt => rw [roundedTo_of_lt_scale (Nat.lt_of_not_le hlt), putD_eq]

theorem exec_roundp_of_malformed (h : valid (s.d.get ra) = false) :
    exec (.roundp rd ra p) s = .next { s with code := 4 } :=
  (if_pos (placesOk_of_le hp)).trans (withDec_malformed h)

end

theorem exec_roundp_zero (rd ra : DSel) (s : State) : exec (.roundp rd ra 0) s = exec (.round rd ra) s := by
  have hp : (0 : Fin 32).val ≤ 28 := by decide
  cases h : valid (s.d.get ra) with
  | false => rw [exec_roundp_of_malformed rd hp h, exec_round_of_malformed rd h]
  | true => rw [exec_roundp_of_valid rd hp h, exec_round_of_valid rd h, ← roundedTo_zero]; rfl

/-- Settles O55: ROUND and ROUNDP both drop digits once, nearest-even; with no digit to drop ROUNDP writes the operand back. -/
theorem roundAndRoundp : Obligations.RoundAndRoundp := by
  intro s rd ra p
  refine ⟨encodedAs_rd_ra (Laws.RoundTrip.round rd ra) rfl rfl,
    encodedAs_rd_ra (Laws.RoundTrip.roundp rd ra p) rfl ?number,
    fun hp => execRoundp_of_places_out rd ra s (decide_eq_false (Nat.not_le.mpr hp)), exec_round_of_malformed rd,
    exec_roundp_of_malformed rd, fun h => ⟨_, ?nearest, roundedPart_lt _, exec_round_of_valid rd h⟩,
    fun hp h hle => ?copied,
    fun hp h hlt => ⟨_, isNearestEven_dropDigits _ _, (dropDigits_le _ _).trans_lt (mant_lt _), ?dropped⟩,
    exec_roundp_zero rd ra s⟩
  case number => rw [toNat_immPlaces]; rfl
  case nearest => rw [roundedPart_eq_dropDigits]; exact isNearestEven_dropDigits _ _
  case copied => rw [exec_roundp_of_valid rd hp h, roundedTo_of_scale_le h hle]
  case dropped => rw [exec_roundp_of_valid rd hp h, roundedTo_of_lt_scale hlt]

end Sys2Proof.Machine
end

section
/-! PROOF. NOP and the constants (47_constants.md R180 to R182): the row of opcode 0 selects one word only, and the two
constants as patterns. -/

namespace Sys2Proof

/-- The only row of opcode 0 is NOP's, which fixes all 32 bits to zero (30_encoding.md R76). -/
theorem row_of_fieldOP_zero : ∀ r ∈ opcodeTable, fieldOP r.value = 0 → r.mask = BitVec.allOnes 32 ∧ r.value = 0 := by
  decide

/-- The only word of opcode 0 that a row selects is zero (47_constants.md R180). -/
theorem eq_zero_of_selects {r : Row} {c : Word} (hr : r ∈ opcodeTable) (hop : fieldOP c = 0) (h : r.selects c = true) :
    c = 0 := by
  obtain ⟨hmask, hvalue⟩ := row_of_fieldOP_zero r hr ((fieldOP_of_selects hr h).symm.trans hop)
  rwa [Row.selects, decide_eq_true_eq, hmask, hvalue, BitVec.and_allOnes] at h

namespace Machine

/-! ## The two constants -/

/-- The constant zero is the pattern of 128 zero bits (47_constants.md R181). -/
theorem mkdec_zero : mkdec false 0 0 = 0 := by decide

/-- The greatest value is 96 one bits under a word 3 of zero (47_constants.md R182). -/
theorem mkdec_maxMant : mkdec false Config.maxMant 0 = 0x00000000FFFFFFFFFFFFFFFFFFFFFFFF := by decide

/-! ## The three commands -/

theorem exec_nop (s : State) : exec .nop s = .next { s with code := 0 } := rfl

theorem exec_ldzero (rd : DSel) (s : State) : exec (.ldzero rd) s = .next { s with d := s.d.set rd 0, code := 0 } := by
  rw [exec, execLdzero, mkdec_zero, putD_eq]

theorem exec_ldmax (rd : DSel) (s : State) : exec (.ldmax rd) s =
    .next { s with d := s.d.set rd 0x00000000FFFFFFFFFFFFFFFFFFFFFFFF, code := 0 } := by
  rw [exec, execLdmax, mkdec_maxMant, putD_eq]

/-- Settles O26: each command by its own equation, and a word of opcode 0 other than NOP's selects no row. -/
theorem constantsAndNop : Obligations.ConstantsAndNop := by
  intro s rd c
  refine ⟨⟨rfl, Laws.RoundTrip.nop⟩, exec_nop s, fun hop hne => ?illegal,
    encodedAs_of_fields (Laws.RoundTrip.ldzero rd) rfl (by simp), exec_ldzero rd s,
    encodedAs_of_fields (Laws.RoundTrip.ldmax rd) rfl (by simp), exec_ldmax rd s⟩
  case illegal =>
    have hfield : fieldOP c = 0 := BitVec.eq_of_toNat_eq ((toNat_fieldOP c).trans hop)
    rw [serve_winWrite_cmd]
    exact runCommand_of_no_row s fun r hr =>
      Bool.eq_false_iff.mpr fun hsel => hne (eq_zero_of_selects hr hfield hsel)

end Machine

end Sys2Proof
end

section
/-! PROOF. How commands end (60_exceptions.md R186 to R190): the ways every command can end and its codes, stated once over the
43 commands; what a command does with a malformed operand; and that one without a decimal operand never looks at D. -/

namespace Sys2Proof.Machine

/-! ## The numbers of the codes (60_exceptions.md R185) -/

theorem number_bounds {c : StatusCode} (h : c ≠ .ok) : 1 ≤ c.number.toNat ∧ c.number.toNat ≤ 5 := by
  revert h
  cases c <;> decide

theorem number_injective : Function.Injective StatusCode.number := by
  intro c c'
  cases c <;> cases c' <;> decide

/-! ## The two ways a command ends (60_exceptions.md R186) -/

/-- The answer of a command from `s`: success, which has written D, B and `RES` at most, or one of the failing codes among
`codes`, which has written the code and nothing else (60_exceptions.md R186). -/
inductive EndsIn (codes : List StatusCode) (s : State) : StepResult → Prop where
  | done (d : Vector Dec 8) (b : Vector Wide 4) (res : Word) :
    EndsIn codes s (.next { s with d := d, b := b, res := res, code := 0 })
  | failed {c : StatusCode} (hmem : c ∈ codes) (hne : c ≠ .ok) : EndsIn codes s (.next { s with code := c.number })

/-! One rule per operand form. Where a form can fail, its code must be among `codes`: for a command, in the list that
`possibleCodes` unfolds to. -/

namespace EndsIn
variable {codes : List StatusCode} {s : State} {ra rb rd : DSel}

theorem ok : EndsIn codes s s.ok := .done s.d s.b s.res

theorem fail {c : StatusCode} (hmem : c ∈ codes := by simp [possibleCodes]) (hne : c ≠ .ok := by decide) :
    EndsIn codes s (s.fail c) := .failed hmem hne

theorem putD {x : Dec} : EndsIn codes s (putD s rd x) := .done (s.d.set rd x) s.b s.res

theorem putB {bd : BSel} {x : Wide} : EndsIn codes s (putB s bd x) := .done s.d (s.b.set bd x) s.res

theorem putRes {v : Word} : EndsIn codes s (putRes s v) := .done s.d s.b v

theorem ite {p : Prop} [Decidable p] {x y : StepResult} (hx : EndsIn codes s x) (hy : EndsIn codes s y) :
    EndsIn codes s (if p then x else y) := by
  split
  · exact hx
  · exact hy

theorem withDec {k : Dec → StepResult} (hk : ∀ a, EndsIn codes s (k a))
    (hmem : .invalidInput ∈ codes := by simp [possibleCodes]) : EndsIn codes s (withDec s ra k) := by
  rcases withDec_cases s ra k with ⟨-, h⟩ | ⟨-, h⟩ <;> rw [h]
  · exact hk _
  · exact fail hmem

theorem withDecs {k : Dec → Dec → StepResult} (hk : ∀ a b, valid a = true → valid b = true → EndsIn codes s (k a b))
    (hmem : .invalidInput ∈ codes := by simp [possibleCodes]) : EndsIn codes s (withDecs s ra rb k) := by
  rcases withDecs_cases s ra rb k with ⟨ha, hb, h⟩ | ⟨-, h⟩ <;> rw [h]
  · exact hk _ _ ha hb
  · exact fail hmem

theorem putResult_narrow {g : Bool} {M t : Nat} (hbig : .tooBig ∈ codes := by simp [possibleCodes])
    (hsmall : .tooSmall ∈ codes := by simp [possibleCodes]) : EndsIn codes s (putResult s rd (narrow g M t)) := by
  cases h : narrow g M t with
  | ok x => exact putD
  | error c =>
    rcases narrow_error h with rfl | rfl
    · exact fail hbig
    · exact fail hsmall

/-- The sum is narrowed at a legal scale, where narrowing can only overflow (43_arith.md R136). -/
theorem putResult_addDec {a b : Dec} (ha : valid a = true) (hb : valid b = true)
    (hbig : .tooBig ∈ codes := by simp [possibleCodes]) : EndsIn codes s (putResult s rd (addDec a b)) := by
  cases h : addDec a b with
  | ok x => exact putD
  | error c =>
    obtain rfl := narrow_error_of_scale_le (commonScale_le ha hb) h
    exact fail hbig

theorem compareTo {test : Ordering → Bool} : EndsIn [.ok, .invalidInput] s (compareTo test ra rb s) :=
  withDecs (fun _ _ _ _ => putRes) (by simp)

end EndsIn

/-! ## Every command ends in one of them (60_exceptions.md R187, R188) -/

/-- Both wide destinations are written, or neither. -/
theorem execAlign_endsIn (bd bc : BSel) (ra rb : DSel) (s : State) :
    EndsIn (possibleCodes (.align bd bc ra rb)) s (execAlign bd bc ra rb s) :=
  .withDecs fun a b _ _ =>
    .done s.d ((s.b.set bd (alignedWide (commonScale a b) a)).set bc (alignedWide (commonScale a b) b)) s.res

/-- Both decimal destinations are written, or neither. -/
theorem execDiv_endsIn (rd rc ra rb : DSel) (s : State) :
    EndsIn (possibleCodes (.div rd rc ra rb)) s (execDiv rd rc ra rb s) := by
  refine .withDecs fun a b _ _ => ?_
  cases h : divDec a b with
  | ok q => exact .done ((s.d.set rc (divRemainder a b)).set rd q) s.b s.res
  | error c => rcases divDec_error h with rfl | rfl | rfl <;> exact .fail

/-- Every command completes, with success or with one of the codes listed for it. -/
theorem exec_endsIn (i : Instr) (s : State) : EndsIn (possibleCodes i) s (exec i s) := by
  cases i with
  | nop => exact .ok
  | wgetb | getscale | getsign | biszero | bcmp => exact .putRes
  | wsetb | wclrb | winvb | setscale | setsign | itod | ldzero | ldmax => exact .putD
  | mgetb => exact .ite .putRes .fail
  | msetb | mclrb | minvb => exact .ite .putD .fail
  | bshl | bshr => exact .putB
  | badd => exact .ite .putB .fail
  | bsub => exact .ite .fail .putB
  | bmul => exact .withDecs fun _ _ _ _ => .putB
  | narrow => exact .putResult_narrow
  | align bd bc ra rb => exact execAlign_endsIn bd bc ra rb s
  | add => exact .withDecs fun _ _ ha hb => .putResult_addDec ha hb
  | sub => exact .withDecs fun _ b ha hb => .putResult_addDec ha ((valid_flipSign b).trans hb)
  | mul => rw [exec]; exact .withDecs fun _ _ _ _ => .putResult_narrow
  | div rd rc ra rb => exact execDiv_endsIn rd rc ra rb s
  | iseq | isne | islt | isle | isgt | isge => rw [exec]; exact .compareTo
  | neg | trunc | round => rw [exec]; exact .withDec fun _ => .putD
  | floor => rw [exec]; exact .withDec fun _ => .ite .putD .putD
  | roundp => rw [exec]; exact .ite (.withDec fun _ => .ite .putD .putD) .fail
  | dtoi => rw [exec]; exact .withDec fun _ => .ite .putRes (.ite .putRes .fail)
  | dtof => rw [exec]; exact .withDec fun _ => .putRes
  | ftod => rw [exec]; exact .ite .fail (.ite .fail .putD)

/-- Settles O14: a command ends in one of the two ways, with code 0 or with one of 1 to 5 and nothing else changed. -/
theorem failureChangesOnlyTheCode : Obligations.FailureChangesOnlyTheCode := by
  intro i s
  have hends := exec_endsIn i s
  generalize exec i s = r at hends ⊢
  cases hends with
  | done => exact ⟨_, rfl, rfl, rfl, rfl, .inl rfl⟩
  | failed _ hne =>
    obtain ⟨hpos, hle⟩ := number_bounds hne
    exact ⟨_, rfl, rfl, rfl, rfl, .inr ⟨hpos, hle, rfl⟩⟩

/-! ## A malformed operand (60_exceptions.md R190) -/

theorem malformed_of_one_source {s : State} {ra : DSel} (h : ∃ r ∈ [ra], valid (s.d.get r) = false) :
    valid (s.d.get ra) = false := by simpa using h

theorem malformed_of_two_sources {s : State} {ra rb : DSel} (h : ∃ r ∈ [ra, rb], valid (s.d.get r) = false) :
    valid (s.d.get ra) = false ∨ valid (s.d.get rb) = false := by simpa using h

/-- The commands with value sources are those whose operand form tests them; ROUNDP alone looks at its immediate first. -/
theorem exec_of_malformed_source {i : Instr} {s : State} (hwf : i.wellFormed = true)
    (h : ∃ r ∈ valueSources i, valid (s.d.get r) = false) : exec i s = .next { s with code := 4 } := by
  cases i with
  | bmul | align | add | sub | mul | div => rw [exec]; exact withDecs_of_malformed (malformed_of_two_sources h)
  | iseq | isne | islt | isle | isgt | isge => rw [exec]; exact compareTo_of_malformed (malformed_of_two_sources h)
  | neg | dtoi | dtof | trunc | floor | round => rw [exec]; exact withDec_malformed (malformed_of_one_source h)
  | roundp => exact (if_pos hwf).trans (withDec_malformed (malformed_of_one_source h))
  | _ =>
    obtain ⟨r, hr, -⟩ := h
    cases hr

/-! ## The bit-field commands (60_exceptions.md R190) -/

theorem invalidInput_not_mem_of_isBitField {i : Instr} (h : isBitField i = true) : .invalidInput ∉ possibleCodes i := by
  cases i with
  | wgetb | wsetb | wclrb | winvb | mgetb | msetb | mclrb | minvb | getscale | setscale | getsign | setsign =>
    simp [possibleCodes]
  | _ => cases h

theorem code_ne_four_of_endsIn {codes : List StatusCode} {s t : State} (h : EndsIn codes s (.next t))
    (hmem : .invalidInput ∉ codes) : t.code ≠ 4 := by
  cases h with
  | done => exact show (0 : BitVec 3) ≠ 4 by decide
  | failed hc _ => exact fun hcode => hmem (number_injective (a₂ := .invalidInput) hcode ▸ hc)

/-! ## The commands without a decimal operand (60_exceptions.md R190) -/

/-- Two answers with the same code and the same results, those in D counting after success only. -/
def SameResults (dests : List DSel) (x y : StepResult) : Prop :=
  ∃ t u, x = .next t ∧ y = .next u ∧ t.code = u.code ∧ t.b = u.b ∧ t.res = u.res ∧
    (t.code = 0 → ∀ r ∈ dests, t.d.get r = u.d.get r)

/-! One rule per destination, for a state and the same state with another D file. -/

namespace SameResults
variable {dests : List DSel} (s : State) (d' : Vector Dec 8)

theorem ok : SameResults [] s.ok { s with d := d' }.ok :=
  ⟨_, _, rfl, rfl, rfl, rfl, rfl, fun _ _ hr => nomatch hr⟩

theorem fail {c : StatusCode} (hne : c ≠ .ok) : SameResults dests (s.fail c) ({ s with d := d' }.fail c) :=
  ⟨_, _, rfl, rfl, rfl, rfl, rfl, fun hcode => absurd (number_injective (a₂ := .ok) hcode) hne⟩

theorem putB (bd : BSel) (x : Wide) : SameResults [] (putB s bd x) (putB { s with d := d' } bd x) :=
  ⟨_, _, rfl, rfl, rfl, rfl, rfl, fun _ _ hr => nomatch hr⟩

theorem putRes (v : Word) : SameResults [] (putRes s v) (putRes { s with d := d' } v) :=
  ⟨_, _, rfl, rfl, rfl, rfl, rfl, fun _ _ hr => nomatch hr⟩

/-- The destination holds the result whatever it held before. -/
theorem putD (rd : DSel) (x : Dec) : SameResults [rd] (putD s rd x) (putD { s with d := d' } rd x) := by
  refine ⟨_, _, rfl, rfl, rfl, rfl, rfl, fun _ r hr => ?_⟩
  obtain rfl := List.mem_singleton.mp hr
  exact (readD_writeD_same s r x).trans (readD_writeD_same { s with d := d' } r x).symm

theorem putResult_narrow (rd : DSel) (g : Bool) (M t : Nat) :
    SameResults [rd] (putResult s rd (narrow g M t)) (putResult { s with d := d' } rd (narrow g M t)) := by
  cases h : narrow g M t with
  | ok x => exact putD s d' rd x
  | error c => rcases narrow_error h with rfl | rfl <;> exact fail s d' (by decide)

theorem ite {p : Prop} [Decidable p] {x x' y y' : StepResult} (hx : SameResults dests x x') (hy : SameResults dests y y') :
    SameResults dests (if p then x else y) (if p then x' else y') := by
  split
  · exact hx
  · exact hy

end SameResults

/-- These commands compute what they write from B, `ARG` and their immediate. -/
theorem exec_sameResults {i : Instr} (s : State) (d' : Vector Dec 8) (hbit : isBitField i = false)
    (hval : valueSources i = []) : SameResults (decDests i) (exec i s) (exec i { s with d := d' }) := by
  cases i with
  | nop => exact .ok s d'
  | bshl | bshr => exact .putB s d' _ _
  | badd => exact .ite (.putB s d' _ _) (.fail s d' (by decide))
  | bsub => exact .ite (.fail s d' (by decide)) (.putB s d' _ _)
  | biszero | bcmp => exact .putRes s d' _
  | narrow rd ba => exact .putResult_narrow s d' rd _ _ _
  | itod rd | ldzero rd | ldmax rd => exact .putD s d' rd _
  | ftod rd => exact .ite (.fail s d' (by decide)) (.ite (.fail s d' (by decide)) (.putD s d' rd _))
  | wgetb | wsetb | wclrb | winvb | mgetb | msetb | mclrb | minvb | getscale | setscale | getsign | setsign => cases hbit
  | _ => cases hval

/-- Settles O24: the operand forms test `Valid`, code 4 is not among the codes of the bit-field commands, and the commands that
are left compute nothing from D. -/
theorem malformedOperandsAreRefused : Obligations.MalformedOperandsAreRefused := by
  refine ⟨fun i s hwf h => exec_of_malformed_source hwf h, fun i s t hbit h => ?bitField,
    fun i s d' hbit hval => exec_sameResults s d' hbit hval⟩
  case bitField => exact code_ne_four_of_endsIn (h ▸ exec_endsIn i s) (invalidInput_not_mem_of_isBitField hbit)

end Sys2Proof.Machine
end

section
/-! PROOF. Decoding and encoding (30_encoding.md R71 to R76): what a mask says about a field of a command word, which
fields an operand's encoding gives back, and from these that a word which selects a row is the encoding of what the row builds. -/

namespace Sys2Proof

/-! ## Two rows that select one word -/

/-- The row that selects a word is the one the decoder finds. -/
theorem find_of_selects {c : Word} {r : Row} (hr : r ∈ opcodeTable) (h : r.selects c = true) :
    opcodeTable.find? (fun r => r.selects c) = some r :=
  find_of_pairwise (opcodeTable_disjoint.imp fun hne hs => hne (selects_unique hs.1 hs.2)) hr h

/-- Settles O2: the decoder's search answers one row, and each row that selects the word is that row. -/
theorem atMostOneRowMatches : Obligations.AtMostOneRowMatches := by
  intro c r r' hr hr' h h'
  have hfind := find_of_selects hr (decide_eq_true h)
  have hfind' := find_of_selects hr' (decide_eq_true h')
  exact Option.some.inj (hfind.symm.trans hfind')

/-! ## What a mask says about a field -/

/-- A field whose bits from `k` on are masked to zero is a number below `2^k`. -/
theorem toNat_lt_of_and_shiftLeft {w : Nat} {f : BitVec w} (k : Nat) (h : f &&& BitVec.allOnes w <<< k = 0) :
    f.toNat < 2 ^ k := by
  refine Nat.lt_pow_two_of_testBit _ fun j hj => ?_
  have hbit : (f &&& BitVec.allOnes w <<< k).getLsbD j = false := by rw [h]; exact BitVec.getLsbD_zero
  rw [BitVec.getLsbD_and, BitVec.getLsbD_shiftLeft, BitVec.getLsbD_allOnes] at hbit
  by_cases hw : j < w
  · simpa [hw, Nat.not_lt.mpr hj, show j - k < w by omega, BitVec.getLsbD] using hbit
  · exact Nat.testBit_lt_two_pow (f.isLt.trans_le (Nat.pow_le_pow_right (by decide) (Nat.le_of_not_lt hw)))

/-- What the encoder puts into a field is the field itself, whenever the row's mask leaves the row's value of it. -/
def Restores {w : Nat} (put : BitVec w → BitVec w) (mask value : BitVec w) : Prop := ∀ f, f &&& mask = value → put f = f

namespace Restores

/-- A field that the mask fixes (30_encoding.md R72). -/
theorem fixed {w : Nat} {v : BitVec w} : Restores (fun _ => v) (BitVec.allOnes w) v := by
  intro f h
  rw [← h, BitVec.and_allOnes]

/-- A field that stands for a number below `2^k` and is written back as that number. -/
theorem below {w : Nat} {put : BitVec w → BitVec w} (k : Nat) (h : ∀ f, f.toNat < 2 ^ k → (put f).toNat = f.toNat) :
    Restores put (BitVec.allOnes w <<< k) 0 :=
  fun f hf => BitVec.eq_of_toNat_eq (h f (toNat_lt_of_and_shiftLeft k hf))

/-- A D register in a selector field (30_encoding.md R73, R75). -/
theorem decSel : Restores (fun f => sel (selD f)) 8 0 := below 3 fun f h => by
  rw [toNat_sel_D, selD, Fin.val_ofNat]; exact Nat.mod_eq_of_lt h

/-- A B register in a selector field (30_encoding.md R73, R75). -/
theorem wideSel : Restores (fun f => sel (selB f)) 12 0 := below 2 fun f h => by
  rw [toNat_sel_B, selB, Fin.val_ofNat]; exact Nat.mod_eq_of_lt h

/-- A D register in `IMM[3:0]` (30_encoding.md R73, R75). -/
theorem decRC : Restores (fun f => BitVec.ofNat 12 (selD (f.extractLsb' 0 4)).val) 0xFF8 0 := below 3 fun f h => by
  rw [toNat_immSel (by decide), selD, Fin.val_ofNat, BitVec.extractLsb'_toNat, Nat.shiftRight_zero]
  omega

/-- A B register in `IMM[3:0]` (30_encoding.md R73, R75). -/
theorem wideRC : Restores (fun f => BitVec.ofNat 12 (selB (f.extractLsb' 0 4)).val) 0xFFC 0 := below 2 fun f h => by
  rw [toNat_immSel (by decide), selB, Fin.val_ofNat, BitVec.extractLsb'_toNat, Nat.shiftRight_zero]
  omega

/-- A word index and a bit index (30_encoding.md R73). -/
theorem wordBit : Restores (fun f => BitVec.ofNat 12 (32 * (f.extractLsb' 5 2).toFin.val + (f.extractLsb' 0 5).toFin.val))
    0xF80 0 := below 7 fun f h => by
  rw [toNat_immWordBit, BitVec.val_toFin, BitVec.val_toFin, BitVec.extractLsb'_toNat, BitVec.extractLsb'_toNat,
    Nat.shiftRight_eq_div_pow, Nat.shiftRight_zero]
  omega

/-- A mantissa bit index (30_encoding.md R73). -/
theorem mantissaBit : Restores (fun f => BitVec.ofNat 12 (f.extractLsb' 0 7).toFin.val) 0xF80 0 := below 7 fun f h => by
  rw [toNat_immMantissaBit, BitVec.val_toFin, BitVec.extractLsb'_toNat, Nat.shiftRight_zero, Nat.mod_eq_of_lt h]

/-- A place count (30_encoding.md R73). -/
theorem places : Restores (fun f => BitVec.ofNat 12 (f.extractLsb' 0 5).toFin.val) 0xFE0 0 := below 5 fun f h => by
  rw [Machine.toNat_immPlaces, BitVec.val_toFin, BitVec.extractLsb'_toNat, Nat.shiftRight_zero, Nat.mod_eq_of_lt h]

/-- The low `k` bits of the immediate as a bit pattern (30_encoding.md R73). -/
theorem lowBits (k : Nat) (hk : k ≤ 12) :
    Restores (fun f : BitVec 12 => (f.extractLsb' 0 k).setWidth 12) (BitVec.allOnes 12 <<< k) 0 := below k fun f h => by
  rw [BitVec.toNat_setWidth_of_le hk, BitVec.extractLsb'_toNat, Nat.shiftRight_zero, Nat.mod_eq_of_lt h]

/-- A shift count, which is the whole immediate (30_encoding.md R73). -/
theorem shiftCount : Restores (fun f => BitVec.ofNat 12 f.toFin.val) 0 0 := fun f _ =>
  (BitVec.ofNat_toNat 12 f).trans (BitVec.setWidth_eq f)

end Restores

/-! ## The rows -/

@[simp] theorem fieldOP_commandWord (op : BitVec 8) (rd ra rb : BitVec 4) (imm : BitVec 12) :
    fieldOP (commandWord op rd ra rb imm) = op :=
  field_of_toNat (by rw [toNat_commandWord]; omega)

/-- `RC` is the low end of `IMM` (30_encoding.md R71). -/
theorem fieldRC_eq (c : Word) : fieldRC c = (fieldIMM c).extractLsb' 0 4 := by
  conv_lhs => rw [commandWord_fields c]
  exact fieldRC_commandWord _ _ _ _ _

/-- A word that selects the row is the encoding of what the row builds from it. -/
def Row.Rebuilds (r : Row) : Prop := ∀ c, r.selects c = true → encode (r.build c) = c

/-- A row rebuilds its words when its four operand fields do; every row fixes the opcode. -/
theorem Row.rebuilds_of_fields {r : Row} {rd ra rb : BitVec 4 → BitVec 4} {mrd mra mrb : BitVec 4}
    {imm : BitVec 12 → BitVec 12} {mimm : BitVec 12} (op : BitVec 8)
    (hrd : Restores rd mrd 0) (hra : Restores ra mra 0) (hrb : Restores rb mrb 0)
    (himm : Restores imm mimm 0)
    (hencode : ∀ c, encode (r.build c) =
      commandWord op (rd (fieldRD c)) (ra (fieldRA c)) (rb (fieldRB c)) (imm (fieldIMM c)) := by intro c; rfl)
    (hmask : r.mask = commandWord (BitVec.allOnes 8) mrd mra mrb mimm := by rfl)
    (hvalue : r.value = commandWord op 0 0 0 0 := by rfl) : r.Rebuilds := by
  intro c h
  have hfields := fields_of_selects h
  simp only [hmask, hvalue, fieldOP_commandWord, fieldRD_commandWord, fieldRA_commandWord, fieldRB_commandWord,
    fieldIMM_commandWord] at hfields
  obtain ⟨fop, frd, fra, frb, fimm⟩ := hfields
  have hop : op = fieldOP c := Restores.fixed _ fop
  rw [hencode, hrd _ frd, hra _ fra, hrb _ frb, himm _ fimm, hop, ← commandWord_fields]

/-- Every row of the opcode map rebuilds its words: opcode, `RD`, `RA`, `RB` and `IMM` in turn (30_encoding.md R73, R76). -/
theorem opcodeTable_rebuilds : ∀ r ∈ opcodeTable, r.Rebuilds := by
  simp only [opcodeTable, List.forall_mem_cons]
  exact ⟨
    Row.rebuilds_of_fields 0x00 .fixed .fixed .fixed .fixed,
    Row.rebuilds_of_fields 0x01 .fixed .decSel .fixed .wordBit,
    Row.rebuilds_of_fields 0x02 .decSel .decSel .fixed .wordBit,
    Row.rebuilds_of_fields 0x03 .decSel .decSel .fixed .wordBit,
    Row.rebuilds_of_fields 0x04 .decSel .decSel .fixed .wordBit,
    Row.rebuilds_of_fields 0x05 .fixed .decSel .fixed .mantissaBit,
    Row.rebuilds_of_fields 0x06 .decSel .decSel .fixed .mantissaBit,
    Row.rebuilds_of_fields 0x07 .decSel .decSel .fixed .mantissaBit,
    Row.rebuilds_of_fields 0x08 .decSel .decSel .fixed .mantissaBit,
    Row.rebuilds_of_fields 0x09 .fixed .decSel .fixed .fixed,
    Row.rebuilds_of_fields 0x0A .decSel .decSel .fixed (.lowBits 8 (by decide)),
    Row.rebuilds_of_fields 0x0B .fixed .decSel .fixed .fixed,
    Row.rebuilds_of_fields 0x0C .decSel .decSel .fixed (.lowBits 1 (by decide)),
    Row.rebuilds_of_fields 0x10 .wideSel .wideSel .fixed .shiftCount,
    Row.rebuilds_of_fields 0x11 .wideSel .wideSel .fixed .shiftCount,
    Row.rebuilds_of_fields 0x12 .fixed .wideSel .fixed .fixed,
    Row.rebuilds_of_fields 0x13 .fixed .wideSel .wideSel .fixed,
    Row.rebuilds_of_fields 0x14 .wideSel .wideSel .wideSel .fixed,
    Row.rebuilds_of_fields 0x15 .wideSel .wideSel .wideSel .fixed,
    Row.rebuilds_of_fields 0x16 .wideSel .decSel .decSel .fixed,
    Row.rebuilds_of_fields 0x17 .decSel .wideSel .fixed .fixed,
    Row.rebuilds_of_fields 0x18 .wideSel .decSel .decSel .wideRC (fun c => fieldRC_eq c ▸ rfl),
    Row.rebuilds_of_fields 0x20 .decSel .decSel .decSel .fixed,
    Row.rebuilds_of_fields 0x21 .decSel .decSel .decSel .fixed,
    Row.rebuilds_of_fields 0x22 .decSel .decSel .decSel .fixed,
    Row.rebuilds_of_fields 0x23 .decSel .decSel .decSel .decRC (fun c => fieldRC_eq c ▸ rfl),
    Row.rebuilds_of_fields 0x24 .decSel .decSel .fixed .fixed,
    Row.rebuilds_of_fields 0x28 .fixed .decSel .decSel .fixed,
    Row.rebuilds_of_fields 0x29 .fixed .decSel .decSel .fixed,
    Row.rebuilds_of_fields 0x2A .fixed .decSel .decSel .fixed,
    Row.rebuilds_of_fields 0x2B .fixed .decSel .decSel .fixed,
    Row.rebuilds_of_fields 0x2C .fixed .decSel .decSel .fixed,
    Row.rebuilds_of_fields 0x2D .fixed .decSel .decSel .fixed,
    Row.rebuilds_of_fields 0x30 .decSel .fixed .fixed .fixed,
    Row.rebuilds_of_fields 0x31 .fixed .decSel .fixed .fixed,
    Row.rebuilds_of_fields 0x32 .decSel .fixed .fixed .fixed,
    Row.rebuilds_of_fields 0x33 .fixed .decSel .fixed .fixed,
    Row.rebuilds_of_fields 0x38 .decSel .decSel .fixed .fixed,
    Row.rebuilds_of_fields 0x39 .decSel .decSel .fixed .fixed,
    Row.rebuilds_of_fields 0x3A .decSel .decSel .fixed .fixed,
    Row.rebuilds_of_fields 0x3B .decSel .decSel .fixed .places,
    Row.rebuilds_of_fields 0x3C .decSel .fixed .fixed .fixed,
    Row.rebuilds_of_fields 0x3D .decSel .fixed .fixed .fixed,
    List.forall_mem_nil _⟩

/-- The word of every command decodes to it (30_encoding.md R72). -/
theorem decode_encode : ∀ i, Laws.RoundTrip.Statement i
  | .nop => Laws.RoundTrip.nop
  | .wgetb .. => Laws.RoundTrip.wgetb ..
  | .wsetb .. => Laws.RoundTrip.wsetb ..
  | .wclrb .. => Laws.RoundTrip.wclrb ..
  | .winvb .. => Laws.RoundTrip.winvb ..
  | .mgetb .. => Laws.RoundTrip.mgetb ..
  | .msetb .. => Laws.RoundTrip.msetb ..
  | .mclrb .. => Laws.RoundTrip.mclrb ..
  | .minvb .. => Laws.RoundTrip.minvb ..
  | .getscale .. => Laws.RoundTrip.getscale ..
  | .setscale .. => Laws.RoundTrip.setscale ..
  | .getsign .. => Laws.RoundTrip.getsign ..
  | .setsign .. => Laws.RoundTrip.setsign ..
  | .bshl .. => Laws.RoundTrip.bshl ..
  | .bshr .. => Laws.RoundTrip.bshr ..
  | .biszero .. => Laws.RoundTrip.biszero ..
  | .bcmp .. => Laws.RoundTrip.bcmp ..
  | .badd .. => Laws.RoundTrip.badd ..
  | .bsub .. => Laws.RoundTrip.bsub ..
  | .bmul .. => Laws.RoundTrip.bmul ..
  | .narrow .. => Laws.RoundTrip.narrow ..
  | .align .. => Laws.RoundTrip.align ..
  | .add .. => Laws.RoundTrip.add ..
  | .sub .. => Laws.RoundTrip.sub ..
  | .mul .. => Laws.RoundTrip.mul ..
  | .div .. => Laws.RoundTrip.div ..
  | .neg .. => Laws.RoundTrip.neg ..
  | .iseq .. => Laws.RoundTrip.iseq ..
  | .isne .. => Laws.RoundTrip.isne ..
  | .islt .. => Laws.RoundTrip.islt ..
  | .isle .. => Laws.RoundTrip.isle ..
  | .isgt .. => Laws.RoundTrip.isgt ..
  | .isge .. => Laws.RoundTrip.isge ..
  | .itod .. => Laws.RoundTrip.itod ..
  | .dtoi .. => Laws.RoundTrip.dtoi ..
  | .ftod .. => Laws.RoundTrip.ftod ..
  | .dtof .. => Laws.RoundTrip.dtof ..
  | .trunc .. => Laws.RoundTrip.trunc ..
  | .floor .. => Laws.RoundTrip.floor ..
  | .round .. => Laws.RoundTrip.round ..
  | .roundp .. => Laws.RoundTrip.roundp ..
  | .ldzero .. => Laws.RoundTrip.ldzero ..
  | .ldmax .. => Laws.RoundTrip.ldmax ..

/-- Settles O1: a decoded word was selected by a row, which rebuilds it; the encoder's word goes round trip by its row. -/
theorem decodeEncodeAgree : Obligations.DecodeEncodeAgree := by
  intro c i
  constructor
  · intro h
    obtain ⟨r, hr, hsel, rfl⟩ := row_of_decode h
    exact (opcodeTable_rebuilds r hr c hsel).symm
  · rintro rfl
    exact decode_encode i

/-! ## Words of the spec -/

/-- The spec's word of a command, checked against the encoder. -/
theorem decode_of_encode_eq {c : Word} {i : Instr} (h : c = encode i) : decode c = .ok i := (decodeEncodeAgree c i).mpr h

/-- A word that no row selects, for the reason that its opcode gives. -/
theorem decode_of_refused {c : Word} (h : opcodeTable.all (fun r => !r.selects c) = true) :
    decode c = .error (if opcodeListed (fieldOP c) then .mustBeZero else .unlistedOpcode) := by
  have hnone : opcodeTable.find? (fun r => r.selects c) = none := by simpa using h
  rw [decode, hnone]

/-- Settles O3: the words of commands are the encoder's, and no row selects the refused ones. -/
theorem specWordsDecode : Obligations.SpecWordsDecode :=
  ⟨decode_of_encode_eq rfl, decode_of_encode_eq rfl, decode_of_encode_eq rfl, decode_of_encode_eq rfl,
    decode_of_encode_eq rfl, decode_of_encode_eq rfl, decode_of_encode_eq rfl, decode_of_encode_eq rfl,
    decode_of_encode_eq rfl, decode_of_encode_eq rfl, decode_of_encode_eq rfl, decode_of_encode_eq rfl,
    decode_of_refused (by decide), decode_of_refused (by decide), decode_of_refused (by decide),
    decode_of_refused (by decide), decode_of_refused (by decide), decode_of_refused (by decide)⟩

end Sys2Proof
end

section
/-! PROOF. What commands read and write (10_state.md R37): from two states that agree on its sources a command makes the same
writes to its destinations, or fails with the same code. Stated once over the 43 commands; frames, well-formedness of results
and the dependence on the sources alone are read off it. -/

namespace Sys2Proof.Machine

/-! ## Register files written at several places -/

/-- A register file after the writes of a list, the head of the list written last. -/
def setAll {α : Type} {n : Nat} (v : Vector α n) : List (Fin n × α) → Vector α n
  | [] => v
  | (r, x) :: ws => (setAll v ws).set r x

section
variable {α : Type} {n : Nat} {v v' : Vector α n} {r : Fin n}

theorem setAll_cons (w : Fin n × α) (ws : List (Fin n × α)) : setAll v (w :: ws) = (setAll v ws).set w.1 w.2 := rfl

theorem setAll_get_of_notMem {ws : List (Fin n × α)} (h : r ∉ ws.map Prod.fst) : (setAll v ws).get r = v.get r := by
  induction ws with
  | nil => rfl
  | cons w ws ih =>
    rw [List.map_cons, List.mem_cons, not_or] at h
    rw [setAll_cons, get_set, if_neg (Ne.symm h.1), ih h.2]

/-- A register that is written holds what is written, whatever the file held before. -/
theorem setAll_get_of_mem {ws : List (Fin n × α)} (h : r ∈ ws.map Prod.fst) :
    (setAll v ws).get r = (setAll v' ws).get r := by
  induction ws with
  | nil => cases h
  | cons w ws ih =>
    rw [setAll_cons, setAll_cons, get_set, get_set]
    split
    next => rfl
    next hne => exact ih ((List.mem_cons.mp h).resolve_left (Ne.symm hne))

/-- What holds of every register and of everything written holds of every register afterwards. -/
theorem setAll_forall {P : α → Prop} {ws : List (Fin n × α)} (hv : ∀ r, P (v.get r)) (hw : ∀ w ∈ ws, P w.2) :
    ∀ r, P ((setAll v ws).get r) := by
  induction ws with
  | nil => exact hv
  | cons w ws ih =>
    intro r
    rw [setAll_cons, get_set]
    split
    next => exact hw w List.mem_cons_self
    next => exact ih (fun w' hw' => hw w' (List.mem_cons_of_mem _ hw')) r

end

/-! ## What a successful command writes -/

/-- The writes of one command, in each register file the last one first. -/
structure Writes where
  d : List (DSel × Dec) := []
  b : List (BSel × Wide) := []
  res : Option Word := none

/-- The state after the writes, with code 0 (60_exceptions.md R186). -/
def Writes.on (w : Writes) (s : State) : State :=
  { s with d := setAll s.d w.d, b := setAll s.b w.b, res := w.res.getD s.res, code := 0 }

/-- The writes go to the destinations of the command, to all of them, and no command but the bit-field commands writes a
malformed decimal (10_state.md R37, 43_arith.md R135). -/
structure Writes.Fits (i : Instr) (w : Writes) : Prop where
  d : (w.d.map Prod.fst).Perm (decDests i)
  b : (w.b.map Prod.fst).Perm (wideDests i)
  res : w.res.isSome = writesRes i
  valid : isBitField i = false → ∀ p ∈ w.d, valid p.2 = true

/-! ## Two states that a command cannot tell apart -/

/-- The states agree on everything the command reads (10_state.md R37). -/
structure AgreeOnSources (i : Instr) (s s' : State) : Prop where
  d : ∀ r ∈ decSources i, s.d.get r = s'.d.get r
  b : ∀ r ∈ wideSources i, s.b.get r = s'.b.get r
  arg : readsArg i = true → s.arg = s'.arg

theorem AgreeOnSources.refl (i : Instr) (s : State) : AgreeOnSources i s s :=
  ⟨fun _ _ => rfl, fun _ _ => rfl, fun _ => rfl⟩

/-- The answers from `s` and from `s'`: the same writes to the destinations of the command, or the same failing code. -/
inductive Alike (i : Instr) (s s' : State) : StepResult → StepResult → Prop where
  | done (w : Writes) (hfits : w.Fits i) : Alike i s s' (.next (w.on s)) (.next (w.on s'))
  | failed (c : StatusCode) (hne : c ≠ .ok) :
    Alike i s s' (.next { s with code := c.number }) (.next { s' with code := c.number })

/-! One rule per operand form. -/

namespace Alike
variable {i : Instr} {s s' : State} {ra rb rd : DSel}

theorem fail {c : StatusCode} (hne : c ≠ .ok := by decide) : Alike i s s' (s.fail c) (s'.fail c) := .failed c hne

theorem putD {x x' : Dec} (hx : x = x') (hv : isBitField i = false → valid x = true) (hd : decDests i = [rd] := by rfl)
    (hb : wideDests i = [] := by rfl) (hres : writesRes i = false := by rfl) :
    Alike i s s' (putD s rd x) (putD s' rd x') := by
  subst hx
  exact .done { d := [(rd, x)] } ⟨by rw [hd]; rfl, by rw [hb]; rfl, hres.symm, fun h => by simpa using hv h⟩

theorem putB {bd : BSel} {x x' : Wide} (hx : x = x') (hd : decDests i = [] := by rfl)
    (hb : wideDests i = [bd] := by rfl) (hres : writesRes i = false := by rfl) :
    Alike i s s' (putB s bd x) (putB s' bd x') := by
  subst hx
  exact .done { b := [(bd, x)] } ⟨by rw [hd]; rfl, by rw [hb]; rfl, hres.symm, fun _ _ h => nomatch h⟩

theorem putRes {v v' : Word} (hv : v = v') (hd : decDests i = [] := by rfl)
    (hb : wideDests i = [] := by rfl) (hres : writesRes i = true := by rfl) :
    Alike i s s' (putRes s v) (putRes s' v') := by
  subst hv
  exact .done { res := some v } ⟨by rw [hd]; rfl, by rw [hb]; rfl, hres.symm, fun _ _ h => nomatch h⟩

theorem ite {p p' : Prop} [Decidable p] [Decidable p'] {x x' y y' : StepResult} (hp : p ↔ p')
    (hx : p → Alike i s s' x x') (hy : ¬ p → Alike i s s' y y') :
    Alike i s s' (if p then x else y) (if p' then x' else y') := by
  by_cases h : p
  · rw [if_pos h, if_pos (hp.mp h)]; exact hx h
  · rw [if_neg h, if_neg (mt hp.mpr h)]; exact hy h

theorem withDec {k k' : Dec → StepResult} (h : AgreeOnSources i s s')
    (hk : ∀ a, valid a = true → Alike i s s' (k a) (k' a)) (hmem : ra ∈ decSources i := by simp [decSources]) :
    Alike i s s' (withDec s ra k) (withDec s' ra k') := by
  have hra := h.d ra hmem
  refine .ite (by rw [readD_eq, readD_eq, hra]) (fun h => ?_) fun _ => .fail
  rw [readD_eq s', ← hra]
  exact hk _ h

theorem withDecs {k k' : Dec → Dec → StepResult} (h : AgreeOnSources i s s')
    (hk : ∀ a b, valid a = true → valid b = true → Alike i s s' (k a b) (k' a b))
    (hmem : ra ∈ decSources i ∧ rb ∈ decSources i := by simp [decSources]) :
    Alike i s s' (withDecs s ra rb k) (withDecs s' ra rb k') := by
  have hra := h.d ra hmem.1
  have hrb := h.d rb hmem.2
  refine .ite (by simp only [readD_eq, hra, hrb]) (fun h => ?_) fun _ => .fail
  rw [readD_eq s', readD_eq s', ← hra, ← hrb]
  exact hk _ _ (Bool.and_eq_true_iff.mp h).1 (Bool.and_eq_true_iff.mp h).2

theorem putResult_narrow {g g' : Bool} {M M' c c' : Nat} (hg : g = g') (hM : M = M') (hc : c = c')
    (hd : decDests i = [rd] := by rfl) (hb : wideDests i = [] := by rfl) (hres : writesRes i = false := by rfl) :
    Alike i s s' (putResult s rd (narrow g M c)) (putResult s' rd (narrow g' M' c')) := by
  subst hg hM hc
  cases h : narrow g M c with
  | ok x => exact putD rfl (fun _ => (narrow_ok h).1) hd hb hres
  | error e => rcases narrow_error h with rfl | rfl <;> exact .fail

theorem compareTo {test : Ordering → Bool} (h : AgreeOnSources i s s')
    (hmem : ra ∈ decSources i ∧ rb ∈ decSources i := by simp [decSources])
    (hd : decDests i = [] := by rfl) (hb : wideDests i = [] := by rfl) (hres : writesRes i = true := by rfl) :
    Alike i s s' (compareTo test ra rb s) (compareTo test ra rb s') :=
  .withDecs h (fun _ _ _ _ => .putRes rfl hd hb hres) hmem

end Alike

/-! ## Every command -/

/-- Both wide destinations are written. -/
theorem execAlign_alike {bd bc : BSel} {ra rb : DSel} {s s' : State} (h : AgreeOnSources (.align bd bc ra rb) s s') :
    Alike (.align bd bc ra rb) s s' (execAlign bd bc ra rb s) (execAlign bd bc ra rb s') :=
  .withDecs h fun a b _ _ =>
    .done { b := [(bc, alignedWide (commonScale a b) b), (bd, alignedWide (commonScale a b) a)] }
      ⟨.rfl, .swap _ _ _, rfl, fun _ _ h => nomatch h⟩

/-- Both decimal destinations are written. -/
theorem execDiv_alike {rd rc ra rb : DSel} {s s' : State} (h : AgreeOnSources (.div rd rc ra rb) s s') :
    Alike (.div rd rc ra rb) s s' (execDiv rd rc ra rb s) (execDiv rd rc ra rb s') := by
  refine .withDecs h fun a b _ _ => ?_
  cases h : divDec a b with
  | ok q =>
    obtain ⟨hne, hq, -⟩ := divDec_ok h
    exact .done { d := [(rd, q), (rc, divRemainder a b)] }
      ⟨.rfl, .rfl, rfl, fun _ => by simp [(narrow_ok hq).1, valid_divRemainder hne]⟩
  | error c => rcases divDec_error h with rfl | rfl | rfl <;> exact .fail

/-- Every command makes the same writes, or fails with the same code, from states that agree on its sources. -/
theorem exec_alike {i : Instr} {s s' : State} (h : AgreeOnSources i s s') : Alike i s s' (exec i s) (exec i s') := by
  have hscale : 0 ≤ 28 := Nat.zero_le _
  cases i with
  | nop => exact .done {} ⟨.rfl, .rfl, rfl, fun _ _ h => nomatch h⟩
  | wgetb ra | getscale ra | getsign ra =>
    have hra := h.d ra (by simp [decSources])
    exact .putRes (by simp only [readD_eq, hra])
  | wsetb rd ra | wclrb rd ra | winvb rd ra | setscale rd ra | setsign rd ra =>
    have hra := h.d ra (by simp [decSources])
    exact .putD (by simp only [readD_eq, hra]) nofun
  | mgetb ra =>
    have hra := h.d ra (by simp [decSources])
    exact .ite .rfl (fun _ => .putRes (by simp only [readD_eq, hra])) fun _ => .fail
  | msetb rd ra | mclrb rd ra | minvb rd ra =>
    have hra := h.d ra (by simp [decSources])
    exact .ite .rfl (fun _ => .putD (by simp only [readD_eq, hra]) nofun) fun _ => .fail
  | bshl bd ba | bshr bd ba =>
    have hba := h.b ba (by simp [wideSources])
    exact .putB (by simp only [readB_eq, hba])
  | biszero ba =>
    have hba := h.b ba (by simp [wideSources])
    exact .putRes (by rw [readB_eq, readB_eq, hba])
  | bcmp ba bb =>
    have hba := h.b ba (by simp [wideSources])
    have hbb := h.b bb (by simp [wideSources])
    exact .putRes (by simp only [readB_eq, hba, hbb])
  | badd bd ba bb =>
    have hba := h.b ba (by simp [wideSources])
    have hbb := h.b bb (by simp [wideSources])
    exact .ite (by simp only [readB_eq, hba, hbb]) (fun _ => .putB (by simp only [readB_eq, hba, hbb])) fun _ => .fail
  | bsub bd ba bb =>
    have hba := h.b ba (by simp [wideSources])
    have hbb := h.b bb (by simp [wideSources])
    exact .ite (by simp only [readB_eq, hba, hbb]) (fun _ => .fail) fun _ => .putB (by simp only [readB_eq, hba, hbb])
  | narrow rd ba =>
    have hba := h.b ba (by simp [wideSources])
    exact .putResult_narrow (by simp only [readB_eq, hba]) (by simp only [readB_eq, hba]) (by simp only [readB_eq, hba])
  | bmul bd ra rb =>
    rw [exec_bmul, exec_bmul]
    exact .withDecs h fun _ _ _ _ => .putB rfl
  | align bd bc ra rb => exact execAlign_alike h
  | div rd rc ra rb => exact execDiv_alike h
  | add rd ra rb | sub rd ra rb | mul rd ra rb =>
    rw [exec, exec]
    exact .withDecs h fun _ _ _ _ => .putResult_narrow rfl rfl rfl
  | iseq ra rb | isne ra rb | islt ra rb | isle ra rb | isgt ra rb | isge ra rb =>
    rw [exec, exec]
    exact .compareTo h
  | neg rd ra =>
    rw [exec, exec]
    exact .withDec h fun a ha => .putD rfl fun _ => valid_mkdec _ (mant_lt a) (scale_le ha)
  | itod rd => exact .putD (by rw [h.arg rfl]) fun _ => valid_mkdec _ (signed32_natAbs_lt _) hscale
  | ftod rd =>
    rw [exec, exec, execFtod, execFtod, h.arg rfl]
    exact .ite .rfl (fun _ => .fail) fun _ => .ite .rfl (fun _ => .fail) fun hlt =>
      .putD rfl fun _ => valid_mkdec _ (rneDiv_floatScale_lt _ (Nat.lt_of_not_le hlt))
        ((Nat.min_le_right _ _).trans (scaleFit_le _))
  | dtoi ra =>
    rw [exec, exec]
    exact .withDec h fun _ _ => .ite .rfl (fun _ => .putRes rfl) fun _ =>
      .ite .rfl (fun _ => .putRes rfl) fun _ => .fail
  | dtof ra =>
    rw [exec, exec]
    exact .withDec h fun _ _ => .putRes rfl
  | trunc rd ra =>
    rw [exec, exec]
    exact .withDec h fun a _ => .putD rfl fun _ => valid_mkdec _ (intPart_lt a) hscale
  | floor rd ra =>
    rw [exec_floor, exec_floor]
    exact .withDec h fun a _ => .putD rfl fun _ => valid_mkdec _ (floorPart_lt a) hscale
  | round rd ra =>
    rw [exec, exec]
    exact .withDec h fun a _ => .putD rfl fun _ => valid_mkdec _ (roundedPart_lt a) hscale
  | roundp rd ra p =>
    rw [exec, exec]
    refine .ite .rfl (fun hp => .withDec h fun a ha => .ite .rfl
      (fun _ => .putD rfl fun _ => ha) fun _ => .putD rfl fun _ => ?_) fun _ => .fail
    exact valid_mkdec _ ((dropDigits_le _ _).trans_lt (mant_lt a)) (of_decide_eq_true hp)
  | ldzero rd => exact .putD rfl fun _ => valid_mkdec _ (by decide) hscale
  | ldmax rd => exact .putD rfl fun _ => valid_mkdec _ (by decide) hscale

/-- Everything a command can answer: its writes, or one of the failing codes. -/
theorem exec_cases (i : Instr) (s : State) : (∃ w : Writes, w.Fits i ∧ exec i s = .next (w.on s)) ∨
    ∃ c : StatusCode, c ≠ .ok ∧ exec i s = .next { s with code := c.number } := by
  have halike := exec_alike (.refl i s)
  generalize exec i s = r at halike ⊢
  cases halike with
  | done w hfits => exact .inl ⟨w, hfits, rfl⟩
  | failed c hne => exact .inr ⟨c, hne, rfl⟩

/-! ## What is read off -/

/-- Settles O18: a command either writes nothing or well-formed decimals only. -/
theorem commandsKeepDecimalsWellFormed : Obligations.CommandsKeepDecimalsWellFormed := by
  intro i s t hbit hvalid h
  rcases exec_cases i s with ⟨w, hfits, hexec⟩ | ⟨c, -, hexec⟩ <;> cases hexec.symm.trans h
  · exact setAll_forall (P := fun x => valid x = true) hvalid (hfits.valid hbit)
  · exact hvalid

/-- Settles O19: a command either writes nothing or its destinations only. -/
theorem commandsWriteOnlyTheirDestinations : Obligations.CommandsWriteOnlyTheirDestinations := by
  intro i s t h
  rcases exec_cases i s with ⟨w, hfits, hexec⟩ | ⟨c, -, hexec⟩ <;> cases hexec.symm.trans h
  · refine ⟨fun r hr => setAll_get_of_notMem (mt hfits.d.mem_iff.mp hr),
      fun r hr => setAll_get_of_notMem (mt hfits.b.mem_iff.mp hr), fun hres => ?res⟩
    case res =>
      have hnone : w.res = none := by simpa [hres] using hfits.res
      simp only [Writes.on, hnone, Option.getD_none]
  · exact ⟨fun _ _ => rfl, fun _ _ => rfl, fun _ => rfl⟩

/-- Settles O20: the same writes leave the same contents in every register that they reach, and a failure the same code. -/
theorem commandsReadOnlyTheirSources : Obligations.CommandsReadOnlyTheirSources := by
  intro i s s' t t' hd hb harg ht ht'
  have halike := exec_alike (i := i) ⟨hd, hb, harg⟩
  rw [ht, ht'] at halike
  cases halike with
  | done w hfits =>
    refine ⟨rfl, fun _ => ⟨fun r hr => setAll_get_of_mem (hfits.d.mem_iff.mpr hr),
      fun r hr => setAll_get_of_mem (hfits.b.mem_iff.mpr hr), fun hres => ?res⟩⟩
    case res =>
      obtain ⟨v, hv⟩ := Option.isSome_iff_exists.mp (hfits.res.trans hres)
      simp only [Writes.on, hv, Option.getD_some]
  | failed c hne => exact ⟨rfl, fun hcode => absurd (number_injective (a₂ := .ok) hcode) hne⟩

/-- Settles O22: no command has the code among its sources, and what it writes includes a new code. -/
theorem codeNeverBlocksCommand : Obligations.CodeNeverBlocksCommand := by
  intro i s c
  have halike := exec_alike (i := i) (s := { s with code := c }) (s' := s) ⟨fun _ _ => rfl, fun _ _ => rfl, fun _ => rfl⟩
  generalize exec i { s with code := c } = r, exec i s = r' at halike ⊢
  cases halike <;> rfl

/-! ## Codes (60_exceptions.md R188, R189) -/

theorem code_of_endsIn {codes : List StatusCode} {s t : State} (h : EndsIn codes s (.next t)) (hok : .ok ∈ codes) :
    ∃ c ∈ codes, t.code = c.number := by
  cases h with
  | done => exact ⟨.ok, hok, rfl⟩
  | failed hmem _ => exact ⟨_, hmem, rfl⟩

/-- Every command can succeed. -/
theorem ok_mem_possibleCodes (i : Instr) : .ok ∈ possibleCodes i := by
  cases i <;> exact List.mem_cons_self

/-- Settles O23: every command ends in success or with a listed code, and with code 5 when an immediate is out of range. -/
theorem codesOfEachCommand : Obligations.CodesOfEachCommand := by
  intro i s t h
  refine ⟨code_of_endsIn (h ▸ exec_endsIn i s) (ok_mem_possibleCodes i), fun hwf => ?outOfRange⟩
  case outOfRange => cases (exec_of_not_wellFormed s hwf).symm.trans h; rfl

/-- Settles O25: the range of an immediate is tested first, the operands next, the divisor last. -/
theorem priorityOfCauses : Obligations.PriorityOfCauses := by
  refine ⟨fun i s hwf => exec_of_not_wellFormed s hwf, fun s rd rc ra rb =>
    ⟨fun h => (exec_div rd rc ra rb s).trans (withDecs_of_malformed h), fun ha hb hzero => ?zeroDivisor⟩⟩
  case zeroDivisor =>
    exact exec_div_of_error rd rc ha hb (divDec_of_zero_divisor ((mant_eq _).trans hzero))

end Sys2Proof.Machine
end

section
/-! PROOF. Steps and what the window shows (00_scope.md R10, 20_memory.md R50 to R59): what the next event does from any
state, which invariants every step keeps, who writes a wide register, and that the window's words determine the registers. -/

namespace Sys2Proof.Machine

/-! ## The host's side and the code after a command (60_exceptions.md R185 to R187) -/

/-- A command keeps the host's events and ends with a legal code. -/
theorem exec_answers (i : Instr) (s : State) : ∃ t, exec i s = .next t ∧ t.pending = s.pending ∧ t.legalCode := by
  obtain ⟨t, ht, -, hpending, -, hcode⟩ := failureChangesOnlyTheCode i s
  refine ⟨t, ht, hpending, ?_⟩
  rcases hcode with hok | ⟨-, hle, -⟩
  · exact (congrArg BitVec.toNat hok).trans_le (Nat.zero_le _)
  · exact hle

/-- So does a write to CMD, whether or not its word decodes. -/
theorem runCommand_answers (c : Word) (s : State) :
    ∃ t, runCommand c s = .next t ∧ t.pending = s.pending ∧ t.legalCode := by
  cases hdec : decode c with
  | ok i => exact runCommand_of_decode_ok s hdec ▸ exec_answers i s
  | error e => exact ⟨_, runCommand_of_decode_error s hdec, rfl, Nat.le_refl 5⟩

/-! ## Invariants of the step -/

/-- An event that is served keeps the events after it, and the code legal. -/
theorem serve_keeps {s t : State} {e : HostEvent} (hlegal : s.legalCode) (h : serve s e = .next t) :
    t.pending = s.pending ∧ t.legalCode := by
  rcases serve_cases s e with ⟨v, -, hs⟩ | ⟨a, v, -, -, hs⟩ | ⟨a, -, hs⟩ | ⟨-, hs⟩ | hs | hs
  case inl =>
    obtain ⟨u, hu, hkeeps⟩ := runCommand_answers v s
    cases (hs.trans hu).symm.trans h
    exact hkeeps
  case inr.inl => 
    cases hs.symm.trans h
    exact ⟨winWrite_pending s a v, (congrArg BitVec.toNat (winWrite_code s a v)).trans_le hlegal⟩
  case inr.inr.inl => cases hs.symm.trans h; exact ⟨rfl, hlegal⟩
  case inr.inr.inr.inl => cases hs.symm.trans h; exact ⟨rfl, Nat.zero_le 5⟩
  case inr.inr.inr.inr.inl => cases hs.symm.trans h
  case inr.inr.inr.inr.inr => cases hs.symm.trans h

/-- A write of a window word is served, the write to CMD among them. -/
theorem serve_winWrite_next (s : State) (a : BitVec 8) (v : Word) : ∃ t, serve s (.winWrite a v) = .next t := by
  by_cases ha : a = 0x80
  · obtain ⟨t, ht, -⟩ := runCommand_answers v s
    exact ⟨t, ha ▸ ht⟩
  · exact ⟨_, serve_winWrite_other s v ha⟩

/-- An aligned word inside the window reaches it. -/
theorem busAccess_of_inWindow {offset size : Nat} (k : BitVec 8 → StepResult)
    (h : size = 4 ∧ offset % 4 = 0 ∧ offset / 4 < 256) :
    busAccess offset size k = k (BitVec.ofNat 8 (offset / 4)) := by
  obtain ⟨hsize, halign, hwindow⟩ := h
  rw [busAccess, if_pos ⟨hsize, halign⟩, if_pos hwindow]

/-- An access of an aligned word of the window, a window access and reset are served (20_memory.md R55). -/
theorem serve_of_hasStep (s : State) {e : HostEvent} (h : e.hasStep = true) : ∃ t, serve s e = .next t := by
  cases e with
  | winRead a => exact ⟨_, rfl⟩
  | winWrite a v => exact serve_winWrite_next s a v
  | busRead offset size =>
    exact ⟨_, (serve_busRead s offset size).trans (busAccess_of_inWindow _ (of_decide_eq_true h))⟩
  | busWrite offset size v =>
    rw [serve_busWrite, busAccess_of_inWindow _ (of_decide_eq_true h)]
    exact serve_winWrite_next s _ v
  | reset => exact ⟨_, rfl⟩

/-- Settles O15: an idle step keeps the state, and every event keeps the code legal. -/
theorem stepKeepsLegalCode : Obligations.StepKeepsLegalCode := by
  intro s t hlegal h
  cases hp : s.pending with
  | nil => cases (step_idle hp).symm.trans h; exact hlegal
  | cons e rest => exact (serve_keeps (s := { s with pending := rest }) hlegal ((step_of_pending hp).symm.trans h)).2

/-- Settles O17: the next event has a step, which leaves the events after it. -/
theorem wellBehavedHostNeverStops : Obligations.WellBehavedHostNeverStops := by
  intro s hhost hlegal
  cases hp : s.pending with
  | nil => exact ⟨s, step_idle hp, hhost, hlegal⟩
  | cons e rest =>
    rw [State.hostWellBehaved, hp, List.forall_mem_cons] at hhost
    obtain ⟨hnow, hlater⟩ := hhost
    obtain ⟨t, ht⟩ := serve_of_hasStep { s with pending := rest } hnow
    obtain ⟨hpending, hcode⟩ := serve_keeps (s := { s with pending := rest }) hlegal ht
    refine ⟨t, (step_of_pending hp).trans ht, ?_, hcode⟩
    rw [State.hostWellBehaved, hpending]
    exact hlater

/-- Settles O16: every register is zero at reset, and no access is pending. -/
theorem resetCodeIsLegal : Obligations.ResetCodeIsLegal := by
  refine ⟨Nat.zero_le 5, fun r => ?valid, fun _ he => nomatch he⟩
  case valid => rw [reset_d_get]; decide

/-! ## Single steps -/

theorem serve_busWrite_cmd (s : State) (c : Word) : serve s (.busWrite 0x200 4 c) = runCommand c s :=
  busAccess_word 0x80 fun a => serveWrite s a c

/-- Settles O5: the two events that write CMD are served by `runCommand`, which runs the decoded command. -/
theorem stepRunsDecodedCommand : Obligations.StepRunsDecodedCommand := by
  intro s e rest hp
  refine ⟨step_of_pending hp, fun c i he hdec => ?command⟩
  case command =>
    have hrun := runCommand_of_decode_ok { s with pending := rest } hdec
    rcases he with rfl | rfl
    · exact (step_of_pending hp).trans hrun
    · exact (step_of_pending hp).trans ((serve_busWrite_cmd _ c).trans hrun)

/-- Settles O10: the write stores the word whole, and the read hands it to the host. -/
theorem readReturnsTheWrittenValue : Obligations.ReadReturnsTheWrittenValue := by
  intro s a v rest hp hword
  have hcmd : a ≠ 0x80 := by rintro rfl; simp at hword
  have hread := winRead_winWrite_same { s with pending := .winRead a :: rest } v (winMap_of_wholeWord hword)
  have hnext := winWrite_pending { s with pending := .winRead a :: rest } a v
  refine ⟨_, _, (step_of_pending hp).trans (serve_winWrite_other _ v hcmd), step_of_pending hnext, rfl, ?returned⟩
  case returned =>
    rw [serveRead_returned]
    exact congrArg₂ List.cons hread (winWrite_returned _ a v)

/-- Settles O11: each is the model's equation for that event. -/
theorem idleAndOutsideAccesses : Obligations.IdleAndOutsideAccesses := by
  intro s a offset v
  refine ⟨step_idle, rfl, ⟨serveReset s, rfl, rfl, rfl⟩, fun halign hout => ?outside⟩
  case outside =>
    have hfault : ∀ k, busAccess offset 4 k = .fault .outsideWindow := fun k => by
      rw [busAccess, if_pos ⟨rfl, halign⟩, if_neg (by simp only [Config.windowWords]; omega)]
    exact ⟨(serve_busRead s offset 4).trans (hfault _), (serve_busWrite s offset 4 v).trans (hfault _)⟩

/-- Settles O13: the event puts the reset registers in place of the old ones. -/
theorem resetStepClearsEngine : Obligations.ResetStepClearsEngine := by
  intro s
  obtain ⟨hd, hb, hcode, harg, hres⟩ := resetIsAllZero
  exact ⟨serveReset s, rfl, hd, hb, hcode, harg, hres⟩

/-! ## Who writes a wide register (10_state.md R29) -/

/-- The six commands with a wide destination. -/
theorem wideDests_ne_nil {i : Instr} (h : wideDests i ≠ []) :
    (∃ bd ba n, i = .bshl bd ba n) ∨ (∃ bd ba n, i = .bshr bd ba n) ∨ (∃ bd ba bb, i = .badd bd ba bb) ∨
      (∃ bd ba bb, i = .bsub bd ba bb) ∨ (∃ bd ra rb, i = .bmul bd ra rb) ∨
      (∃ bd bc ra rb, i = .align bd bc ra rb) := by
  cases i with
  | bshl | bshr | badd | bsub | bmul | align => simp
  | _ => exact absurd rfl h

/-- A command without a wide destination keeps the wide registers. -/
theorem exec_b_of_wideDests_nil {i : Instr} {s t : State} (h : exec i s = .next t) (hi : wideDests i = []) : t.b = s.b := by
  rcases exec_cases i s with ⟨w, hfits, hexec⟩ | ⟨c, -, hexec⟩ <;> cases hexec.symm.trans h
  · have hnone : w.b = [] := List.map_eq_nil_iff.mp (List.perm_nil.mp (hi ▸ hfits.b))
    rw [Writes.on, hnone, setAll]
  · rfl

/-- A window write reaches the wide registers at their own addresses only (20_memory.md R51). -/
theorem winWrite_b_of_outside (s : State) {a : BitVec 8} (v : Word) (h : ¬ (0x40 ≤ a.toNat ∧ a.toNat < 0x80)) :
    (winWrite s a v).b = s.b := by
  have haddr := toNat_of_winMap a
  cases hm : winMap a with
  | magWord r j =>
    rw [hm] at haddr
    have : a.toNat = 0x40 + 16 * r.val + j.val := haddr nofun
    omega
  | ctl r =>
    rw [hm] at haddr
    have : a.toNat = 0x48 + 16 * r.val := haddr nofun
    omega
  | _ => simp [winWrite, hm]

/-- Settles O21: by the kind of the event, a read changes no register and a command writes its destinations only. -/
theorem whoWritesWideRegisters : Obligations.WhoWritesWideRegisters := by
  intro s t e rest hp h hb
  have hserve := (step_of_pending hp).symm.trans h
  rcases serve_cases { s with pending := rest } e with
    ⟨v, he, hs⟩ | ⟨a, v, -, he, hs⟩ | ⟨a, -, hs⟩ | ⟨he, -⟩ | hs | hs
  case inl =>
    refine .inr ⟨0x80, v, he, .inr ⟨rfl, ?_⟩⟩
    cases hdec : decode v with
    | ok i =>
      have hexec := (hs.trans (runCommand_of_decode_ok _ hdec)).symm.trans hserve
      exact ⟨i, rfl, wideDests_ne_nil fun hi => hb (exec_b_of_wideDests_nil (s := { s with pending := rest }) hexec hi)⟩
    | error err =>
      cases (hs.trans (runCommand_of_decode_error _ hdec)).symm.trans hserve
      exact absurd rfl hb
  case inr.inl =>
    refine .inr ⟨a, v, he, .inl (by_contra fun ha => hb ?_)⟩
    cases hs.symm.trans hserve
    exact winWrite_b_of_outside _ v ha
  case inr.inr.inl => cases hs.symm.trans hserve; exact absurd rfl hb
  case inr.inr.inr.inl => exact .inl he
  case inr.inr.inr.inr.inl => cases hs.symm.trans hserve
  case inr.inr.inr.inr.inr => cases hs.symm.trans hserve

/-! ## The window's words determine the registers (20_memory.md R51) -/

/-- A decimal register is its four words. -/
theorem dec_ext_words {x y : Dec} (h : ∀ w, wordOf x w = wordOf y w) : x = y := by
  apply BitVec.eq_of_getLsbD_eq
  intro k hk
  have hbit := congrArg (BitVec.getLsbD · (k % 32)) (h ⟨k / 32, by omega⟩)
  simpa only [getLsbD_wordOf _ _ _ (Nat.mod_lt k (by decide)), Nat.div_add_mod] using hbit

/-- A magnitude is its eight words. -/
theorem mag_ext_words {x y : Mag} (h : ∀ j, magWord x j = magWord y j) : x = y := by
  apply BitVec.eq_of_getLsbD_eq
  intro k hk
  have hbit := congrArg (BitVec.getLsbD · (k % 32)) (h ⟨k / 32, by omega⟩)
  simpa only [getLsbD_magWord _ _ _ (Nat.mod_lt k (by decide)), Nat.div_add_mod] using hbit

/-- The control word shows SCALE and SIGN. -/
theorem ctlWord_inj {x y : Wide} (h : ctlWord x = ctlWord y) : x.scale = y.scale ∧ x.sign = y.sign := by
  have hnum := congrArg BitVec.toNat h
  have hx := x.scale.isLt
  have hy := y.scale.isLt
  rw [toNat_ctlWord, toNat_ctlWord] at hnum
  have hsign : x.sign = y.sign := by
    cases hsx : x.sign <;> cases hsy : y.sign <;> simp [hsx, hsy] at hnum ⊢ <;> omega
  rw [hsign] at hnum
  exact ⟨BitVec.eq_of_toNat_eq (by omega), hsign⟩

theorem wide_ext {x y : Wide} (hmag : x.mag = y.mag) (hscale : x.scale = y.scale) (hsign : x.sign = y.sign) : x = y := by
  cases x
  cases y
  simp_all

/-- Two register files with the same registers are the same. -/
theorem file_ext {α : Type} {n : Nat} {v v' : Vector α n} (h : ∀ r : Fin n, v.get r = v'.get r) : v = v' :=
  Vector.ext fun k hk => by simpa [Vector.get_eq_getElem] using h ⟨k, hk⟩

/-- Settles O8: every register is read word by word at its addresses. -/
theorem windowShowsWholeState : Obligations.WindowShowsWholeState := by
  intro s t h
  refine ⟨file_ext fun r => dec_ext_words fun w => ?decimal, file_ext fun r => ?wide, ?code, h 0x82, h 0x83⟩
  case decimal =>
    have hword := h (BitVec.ofNat 8 (4 * r.val + w.val))
    rwa [winRead_dWord s (winMap_dWord r w), winRead_dWord t (winMap_dWord r w)] at hword
  case wide =>
    have hctl := h (BitVec.ofNat 8 (0x48 + 16 * r.val))
    rw [winRead_ctl s (winMap_ctl r), winRead_ctl t (winMap_ctl r)] at hctl
    obtain ⟨hscale, hsign⟩ := ctlWord_inj hctl
    have hmag : (s.b.get r).mag = (t.b.get r).mag := mag_ext_words fun j => by
      have hword := h (BitVec.ofNat 8 (0x40 + 16 * r.val + j.val))
      rwa [winRead_magWord s (winMap_magWord r j), winRead_magWord t (winMap_magWord r j)] at hword
    exact wide_ext hmag hscale hsign
  case code =>
    have hcode : s.code.setWidth 32 = t.code.setWidth 32 := h 0x81
    simpa using congrArg (BitVec.setWidth 3) hcode

end Sys2Proof.Machine
end

section
/-! PROOF. Narrowing and the arithmetic unit against exact values (41_wide.md section 6, 42_align.md R132, 43_arith.md sections
1 to 4): a signed magnitude at a scale as a rational, when `Narrow` overflows, underflows or is exact in terms of that rational,
and from these ADD, SUB, MUL and DIV. -/

namespace Sys2Proof.Machine

/-! ## Facts about narrowing (41_wide.md section 6) -/

/-- Rounding to the nearest-even integer keeps the order. -/
theorem IsNearestEven.le {p q : ℚ} {m n : ℕ} (hm : IsNearestEven p m) (hn : IsNearestEven q n) (h : p ≤ q) :
    m ≤ n := by
  by_contra hlt
  have hgap : (n : ℚ) + 1 ≤ m := by exact_mod_cast Nat.lt_of_not_le hlt
  have hp := abs_le.mp hm.1
  have hq := abs_le.mp hn.1
  obtain rfl : p = q := by linarith
  exact hlt (hm.unique hn).le

/-- More places of scale never make a number larger. -/
theorem div_pow_anti (M : ℕ) {j k : ℕ} (h : j ≤ k) : (M : ℚ) / 10 ^ k ≤ M / 10 ^ j :=
  div_le_div_of_nonneg_left (Nat.cast_nonneg M) (by positivity) (pow_le_pow_right₀ (by norm_num) h)

/-- More digits dropped never give more (fact (a)). -/
theorem dropDigits_anti (M : ℕ) {j k : ℕ} (h : j ≤ k) : dropDigits M k ≤ dropDigits M j :=
  (isNearestEven_dropDigits M k).le (isNearestEven_dropDigits M j) (div_pow_anti M h)

/-- No digit is dropped beyond those that bring the scale to 28 where the rest fits. -/
theorem digitsToDrop_of_fits_start {M c : ℕ} (hfits : fitsDropping M c = true) (hstart : fitsDropping M (c - 28) = true) :
    digitsToDrop M c = c - 28 := by
  obtain ⟨hmin, -, -, hleast⟩ := digitsToDrop_spec hfits
  by_contra hne
  have hwide := hleast (c - 28) le_rfl (by omega)
  rw [hstart] at hwide
  cases hwide

theorem fitsDropping_of_lt {M : ℕ} (k : ℕ) (hM : M < 2 ^ 96) : fitsDropping M k = true :=
  (fitsDropping_iff M k).mpr ((dropDigits_le M k).trans_lt hM)

/-- A magnitude that fits as it is, at a legal scale, loses no digit. -/
theorem narrow_of_lt (s : Bool) {M c : ℕ} (hc : c ≤ 28) (hM : M < 2 ^ 96) : narrow s M c = .ok (mkdec s M c) := by
  have hfits := fun k => fitsDropping_of_lt k hM
  rw [narrow_of_fits s (hfits c), digitsToDrop_of_fits_start (hfits c) (hfits _), Nat.sub_eq_zero_of_le hc, dropDigits_zero,
    if_neg (by omega), Nat.sub_zero]

/-- Settles O37: the quotients fall with the digits dropped; a magnitude that fits loses none; at a legal scale the only
failure of narrowing is overflow. -/
theorem narrowFacts : Obligations.NarrowFacts := by
  intro s M c
  refine ⟨fun k => dropDigits_anti M k.le_succ, narrow_of_lt s, fun hsmall => ?beyond⟩
  case beyond =>
    by_contra hc
    cases narrow_error_of_scale_le (Nat.le_of_not_lt hc) hsmall

/-! ## Bounds of alignment (42_align.md R132) -/

/-- Settles O40: the shared scale is legal, so every aligned mantissa is below `2^190`. -/
theorem alignmentBounds : Obligations.AlignmentBounds := by
  intro a b A B ha hb hA hB
  have ht := commonScale_le ha hb
  have hltA : A < 2 ^ 190 := hA ▸ alignedMant_lt ht a
  have hltB : B < 2 ^ 190 := hB ▸ alignedMant_lt ht b
  exact ⟨by omega, by omega, hltA, hltB, by omega, by omega⟩

/-! ## Signed magnitudes as rationals -/

/-- The number that a sign, a magnitude and a scale stand for (10_state.md R25). -/
def signedValue (g : Bool) (M c : ℕ) : ℚ := (if g then -1 else 1) * (M : ℚ) / 10 ^ c

theorem val_eq_signedValue (x : Dec) : val x = signedValue (sign x) (mant x) (scale x) := rfl

theorem abs_signedValue (g : Bool) (M c : ℕ) : |signedValue g M c| = (M : ℚ) / 10 ^ c := by
  have hnonneg : (0 : ℚ) ≤ M / 10 ^ c := by positivity
  cases g
  · simp [signedValue, abs_of_nonneg hnonneg]
  · simp [signedValue, neg_div, abs_of_nonneg hnonneg]

theorem signedValue_eq_zero_iff (g : Bool) (M c : ℕ) : signedValue g M c = 0 ↔ M = 0 := by
  rw [← abs_eq_zero, abs_signedValue, div_eq_zero_iff, Nat.cast_eq_zero]
  exact or_iff_left (by positivity)

theorem signedValue_not (g : Bool) (M c : ℕ) : signedValue (!g) M c = -signedValue g M c := by
  cases g <;> simp [signedValue, neg_div]

theorem signedValue_sub (g : Bool) {A B c : ℕ} (h : B ≤ A) :
    signedValue g (A - B) c = signedValue g A c - signedValue g B c := by
  rw [signedValue, signedValue, signedValue, Nat.cast_sub h, mul_sub, sub_div]

theorem signedValue_add (g : Bool) (A B c : ℕ) : signedValue g (A + B) c = signedValue g A c + signedValue g B c := by
  rw [signedValue, signedValue, signedValue, Nat.cast_add, mul_add, add_div]

theorem signedValue_mul (g h : Bool) (A B c d : ℕ) :
    signedValue g A c * signedValue h B d = signedValue (g ^^ h) (A * B) (c + d) := by
  rw [signedValue, signedValue, signedValue, signFactor_xor, pow_add]
  push_cast
  ring

/-- `k` zeros at the end of the magnitude and `k` more places of scale change nothing. -/
theorem signedValue_shift (g : Bool) (M c k : ℕ) : signedValue g (M * 10 ^ k) (c + k) = signedValue g M c := by
  rw [signedValue, signedValue, pow_add]
  push_cast
  field_simp

/-- Sign and magnitude of a sum are those of the sum of the numbers (43_arith.md R136). -/
theorem signedValue_sum (sa sb : Bool) (A B t : ℕ) :
    signedValue (sumSign sa A sb B) (sumMag sa A sb B) t = signedValue sa A t + signedValue sb B t := by
  rw [sumSign, sumMag]
  by_cases hsame : sa = sb
  · rw [if_pos hsame, if_pos hsame, ← hsame, signedValue_add]
  · have hopp : sb = !sa := Bool.eq_not_of_ne (Ne.symm hsame)
    rw [if_neg hsame, if_neg hsame, hopp, signedValue_not]
    rcases Nat.lt_trichotomy A B with hlt | rfl | hgt
    · rw [if_neg hlt.asymm, if_pos hlt, if_neg hlt.asymm, signedValue_not, signedValue_sub _ hlt.le, neg_sub]; ring
    · simp [signedValue]
    · rw [if_pos hgt, if_pos hgt, signedValue_sub _ hgt.le]; ring

/-! ## The outcomes of `Narrow` by the exact value (41_wide.md R118) -/

section
variable {g : Bool} {M c : ℕ}

theorem narrow_eq_tooBig_iff : narrow g M c = .error .tooBig ↔ (2 : ℚ) ^ 96 - 1 / 2 ≤ (M : ℚ) / 10 ^ c := by
  rw [← not_lt, ← fitsDropping_iff_val, Bool.not_eq_true]
  constructor
  · intro h
    cases hfits : fitsDropping M c with
    | false => rfl
    | true =>
      rw [narrow_of_fits g hfits] at h
      split at h <;> cases h
  · exact narrow_of_not_fits g

/-- Nothing is left of a magnitude exactly when it is at most half of what is dropped. -/
theorem dropDigits_eq_zero_iff (M k : ℕ) : dropDigits M k = 0 ↔ (M : ℚ) / 10 ^ k ≤ 1 / 2 := by
  have hnear := isNearestEven_dropDigits M k
  constructor
  · intro h
    rw [h] at hnear
    simpa using (abs_le.mp hnear.1).2
  · intro h
    have hzero : IsNearestEven (1 / 2) 0 := ⟨by norm_num, fun _ => rfl⟩
    exact Nat.le_zero.mp (hnear.le hzero h)

/-- Narrowing to zero drops no more digits than bring the scale to 28. -/
theorem digitsToDrop_of_vanishing (hfits : fitsDropping M c = true) (hpos : 0 < M)
    (hzero : dropDigits M (digitsToDrop M c) = 0) : 28 ≤ c ∧ digitsToDrop M c = c - 28 := by
  obtain ⟨hmin, -, -, hleast⟩ := digitsToDrop_spec hfits
  cases hk : digitsToDrop M c with
  | zero => rw [hk, dropDigits_zero] at hzero; omega
  | succ k =>
    rw [hk] at hzero hleast hmin
    by_contra hne
    have hwide := hleast k (by omega) k.lt_succ_self
    rw [fitsDropping_of_dropDigits_succ_eq_zero hzero] at hwide
    cases hwide

/-- A scale above 28 in two parts. -/
theorem div_pow_eq_div_div (hc : 28 ≤ c) : (M : ℚ) / 10 ^ c = M / 10 ^ (c - 28) / 10 ^ 28 := by
  rw [div_div, ← pow_add, Nat.sub_add_cancel hc]

/-- Code 2: at scale 28 the number is at most half a unit. -/
theorem narrow_eq_tooSmall_iff :
    narrow g M c = .error .tooSmall ↔ 0 < M ∧ (M : ℚ) / 10 ^ c ≤ 1 / 2 / 10 ^ 28 := by
  constructor
  · intro h
    rcases narrow_cases g M c with ⟨-, hbig⟩ | ⟨hfits, hzero, hpos, -⟩ | ⟨-, -, -, -, hok⟩
    · cases hbig.symm.trans h
    · obtain ⟨hc, hdrop⟩ := digitsToDrop_of_vanishing hfits hpos hzero
      rw [hdrop, dropDigits_eq_zero_iff] at hzero
      rw [div_pow_eq_div_div hc]
      exact ⟨hpos, div_le_div_of_nonneg_right hzero (by positivity)⟩
    · cases hok.symm.trans h
  · rintro ⟨hpos, hle⟩
    have hc : 28 < c := by
      by_contra hc
      have hunit : (1 : ℚ) / 10 ^ 28 ≤ M / 10 ^ 28 :=
        div_le_div_of_nonneg_right (by exact_mod_cast hpos) (by positivity)
      have hscale := div_pow_anti M (Nat.le_of_not_lt hc)
      have hhalf : (1 : ℚ) / 2 / 10 ^ 28 < 1 / 10 ^ 28 := by norm_num
      linarith
    have hzero : dropDigits M (c - 28) = 0 := by
      rw [dropDigits_eq_zero_iff]
      rwa [div_pow_eq_div_div hc.le, div_le_div_iff_of_pos_right (by positivity)] at hle
    have hfits : fitsDropping M c = true := (fitsDropping_iff_val M c).mpr (hle.trans_lt (by norm_num))
    have hdrop := digitsToDrop_of_fits_start hfits (fitsDropping_of_dropDigits_eq_zero hzero)
    rw [narrow_of_fits g hfits, hdrop, if_pos ⟨hzero, hpos⟩]

/-- A number that is neither too big nor too small has a result. -/
theorem narrow_isOk (hbig : (M : ℚ) / 10 ^ c < 2 ^ 96 - 1 / 2) (hsmall : M = 0 ∨ 1 / 2 / 10 ^ 28 < (M : ℚ) / 10 ^ c) :
    ∃ x, narrow g M c = .ok x := by
  cases h : narrow g M c with
  | ok x => exact ⟨x, rfl⟩
  | error e =>
    rcases narrow_error h with rfl | rfl
    · exact absurd (narrow_eq_tooBig_iff.mp h) (not_le.mpr hbig)
    · obtain ⟨hpos, hle⟩ := narrow_eq_tooSmall_iff.mp h
      rcases hsmall with rfl | hlt
      · exact absurd hpos (lt_irrefl 0)
      · exact absurd hle (not_le.mpr hlt)

end

/-- What a command answers that narrows the exact value `q`: too big, too small, or `q` rounded once at the scale kept. -/
theorem putResult_narrow_rounds (s : State) (rd : DSel) {g : Bool} {M c : ℕ} {q : ℚ} (hq : q = signedValue g M c) :
    (putResult s rd (narrow g M c) = .next { s with code := 1 } ↔ (2 : ℚ) ^ 96 - 1 / 2 ≤ |q|) ∧
    (putResult s rd (narrow g M c) = .next { s with code := 2 } ↔ q ≠ 0 ∧ |q| ≤ 1 / 2 / 10 ^ 28) ∧
    (|q| < (2 : ℚ) ^ 96 - 1 / 2 → (q = 0 ∨ 1 / 2 / 10 ^ 28 < |q|) → ∃ x : Dec,
      putResult s rd (narrow g M c) = .next { s with d := s.d.set rd x, code := 0 } ∧ valid x = true ∧ sign x = g ∧
      |val x - q| ≤ 1 / 2 / 10 ^ scale x ∧ scale x ≤ min 28 c ∧
      (scale x < min 28 c → (2 : ℚ) ^ 96 - 1 / 2 ≤ |q| * 10 ^ (scale x + 1))) := by
  subst hq
  rw [abs_signedValue, Ne, signedValue_eq_zero_iff, ← Ne, ← Nat.pos_iff_ne_zero]
  refine ⟨(putResult_eq_fail_iff (e := .tooBig) nofun).trans narrow_eq_tooBig_iff,
    (putResult_eq_fail_iff (e := .tooSmall) nofun).trans narrow_eq_tooSmall_iff, fun hbig hsmall => ?rounded⟩
  case rounded =>
    obtain ⟨x, hx⟩ := narrow_isOk (g := g) hbig hsmall
    obtain ⟨hvalid, hsign, -⟩ := narrow_ok hx
    obtain ⟨hscale, hkept⟩ := narrow_ok_scale hx
    exact ⟨x, by rw [hx, putResult_ok], hvalid, hsign, narrow_ok_val hx, hscale, hkept⟩

/-! ## ADD and SUB (43_arith.md sections 1 and 2) -/

/-- The numbers that an operand with sign `g` in place of its own stands for. -/
theorem signedValue_alignedMant {t : ℕ} {x : Dec} (h : scale x ≤ t) (g : Bool) :
    signedValue g (alignedMant t x) t = signedValue g (mant x) (scale x) := by
  rw [alignedMant, ← signedValue_shift g (mant x) (scale x) (t - scale x), Nat.add_sub_cancel' h]

/-- The magnitude that `addWithSign` narrows stands for the exact sum. -/
theorem signedValue_alignedSum (a b : Dec) (g : Bool) :
    signedValue (sumSign (sign a) (alignedMant (commonScale a b) a) g (alignedMant (commonScale a b) b))
      (sumMag (sign a) (alignedMant (commonScale a b) a) g (alignedMant (commonScale a b) b)) (commonScale a b) =
    val a + signedValue g (mant b) (scale b) := by
  rw [signedValue_sum, signedValue_alignedMant (scale_le_commonScale_left a b),
    signedValue_alignedMant (scale_le_commonScale_right a b), val_eq_signedValue]

/-- ADD and SUB of well-formed operands narrow a magnitude that stands for the exact sum or difference. -/
theorem exec_addOrSub {s : State} {rd ra rb : DSel} {i : Instr} {q : ℚ} (ha : valid (s.d.get ra) = true)
    (hb : valid (s.d.get rb) = true)
    (hi : (i = .add rd ra rb ∧ q = val (s.d.get ra) + val (s.d.get rb)) ∨
      (i = .sub rd ra rb ∧ q = val (s.d.get ra) - val (s.d.get rb))) :
    ∃ g M, exec i s = putResult s rd (narrow g M (commonScale (s.d.get ra) (s.d.get rb))) ∧
      q = signedValue g M (commonScale (s.d.get ra) (s.d.get rb)) := by
  rcases hi with ⟨rfl, rfl⟩ | ⟨rfl, rfl⟩
  · exact ⟨_, _, exec_add_of_valid rd ha hb, (signedValue_alignedSum _ _ _).symm⟩
  · refine ⟨_, _, exec_sub_of_valid rd ha hb, ?_⟩
    rw [signedValue_alignedSum, signedValue_not, ← sub_eq_add_neg]
    rfl

/-- Settles O42: the shared scale is legal, so a sum is never too small, and the rest is what narrowing does to the exact
value. -/
theorem addAndSubRoundTheExactValue : Obligations.AddAndSubRoundTheExactValue := by
  intro s rd ra rb ha hb i q hi
  obtain ⟨g, M, hexec, hq⟩ := exec_addOrSub ha hb hi
  have ht := commonScale_le ha hb
  obtain ⟨hover, hunder, hround⟩ := putResult_narrow_rounds s rd hq
  rw [hexec]
  refine ⟨hover, fun hlt => ?rounded⟩
  case rounded =>
    have hnotSmall : q = 0 ∨ 1 / 2 / 10 ^ 28 < |q| := by
      by_contra hsmall
      rw [not_or, not_lt] at hsmall
      have htiny := (putResult_eq_fail_iff (e := .tooSmall) nofun).mp (hunder.mpr hsmall)
      cases narrow_error_of_scale_le ht htiny
    obtain ⟨x, hx, hvalid, -, hnear, hscale, hkept⟩ := hround hlt hnotSmall
    rw [Nat.min_eq_right ht] at hscale hkept
    exact ⟨x, hx, hvalid, hnear, hscale, hkept⟩

/-! ## SUB after an exact ADD (95_test_vectors.md E1) -/

theorem dropDigits_of_dvd {M k : ℕ} (h : 10 ^ k ∣ M) : dropDigits M k = M / 10 ^ k := by
  obtain ⟨n, rfl⟩ := h
  have hpos : 0 < 10 ^ k := Nat.pow_pos (by decide)
  rw [dropDigits, Nat.mul_comm, rneDiv_mul _ hpos, Nat.mul_div_cancel _ hpos]

/-- Where dropping `j` zeros makes the magnitude fit, narrowing drops zeros only. -/
theorem narrow_of_dvd (g : Bool) {M c j : ℕ} (hc : c ≤ 28) (hj : j ≤ c) (hdvd : 10 ^ j ∣ M)
    (hlt : M / 10 ^ j < 2 ^ 96) : ∃ x, narrow g M c = .ok x ∧ val x = signedValue g M c := by
  have hfitsAt : fitsDropping M j = true := by rwa [fitsDropping_iff, dropDigits_of_dvd hdvd]
  have hfits : fitsDropping M c = true := by
    rw [fitsDropping_iff] at hfitsAt ⊢
    exact (dropDigits_anti M hj).trans_lt hfitsAt
  obtain ⟨-, hkc, hk, hleast⟩ := digitsToDrop_spec hfits
  have hkj : digitsToDrop M c ≤ j := by
    by_contra hlt
    rw [hleast j (by omega) (Nat.lt_of_not_le hlt)] at hfitsAt
    cases hfitsAt
  cases h : narrow g M c with
  | error e =>
    obtain rfl := narrow_error_of_scale_le hc h
    exact absurd ((fitsDropping_iff_val M c).mp hfits) (not_lt.mpr (narrow_eq_tooBig_iff.mp h))
  | ok x =>
    obtain ⟨-, hsign, hmant, hscale, -⟩ := narrow_ok h
    obtain ⟨n, hn⟩ := (Nat.pow_dvd_pow 10 hkj).trans hdvd
    refine ⟨x, rfl, ?_⟩
    rw [val_eq_signedValue, hsign, hmant, hscale, dropDigits_of_dvd ⟨n, hn⟩]
    generalize digitsToDrop M c = k at hn hkc
    obtain ⟨m, rfl⟩ := Nat.exists_eq_add_of_le' hkc
    rw [hn, Nat.mul_div_cancel_left _ (Nat.pow_pos (by decide)), Nat.add_sub_cancel, Nat.mul_comm, signedValue_shift]

/-- What is the value of some decimal, up to the sign, is narrowed without loss at a legal scale. -/
theorem narrow_of_representable {g : Bool} {M c : ℕ} (hc : c ≤ 28) {z : Dec} (hz : |signedValue g M c| = |val z|) :
    ∃ x, narrow g M c = .ok x ∧ val x = signedValue g M c := by
  have hcross : M * 10 ^ scale z = mant z * 10 ^ c := by
    rw [abs_signedValue, abs_val, div_eq_div_iff (by positivity) (by positivity)] at hz
    exact_mod_cast hz
  have hm := mant_lt z
  rcases Nat.le_total (scale z) c with hle | hle
  · have hM : M = mant z * 10 ^ (c - scale z) :=
      Nat.eq_of_mul_eq_mul_right (Nat.pow_pos (n := scale z) (by decide : 0 < 10)) (by
        rw [hcross, Nat.mul_assoc, ← pow_add, Nat.sub_add_cancel hle])
    refine narrow_of_dvd g hc (Nat.sub_le c (scale z)) ⟨mant z, hM.trans (Nat.mul_comm _ _)⟩ ?_
    rwa [hM, Nat.mul_div_cancel _ (Nat.pow_pos (by decide))]
  · have hM : M ≤ mant z := Nat.le_of_mul_le_mul_right
      (hcross ▸ Nat.mul_le_mul_left M (Nat.pow_le_pow_right (by decide) hle)) (Nat.pow_pos (n := c) (by decide : 0 < 10))
    exact narrow_of_dvd g hc (Nat.zero_le c) (one_dvd M) (by rw [pow_zero, Nat.div_one]; omega)

/-- A difference that is the value of some decimal is what SUB writes. -/
theorem exec_sub_of_representable {s : State} {ra rb : DSel} (rd : DSel) (ha : valid (s.d.get ra) = true)
    (hb : valid (s.d.get rb) = true) {z : Dec} (hz : val (s.d.get ra) - val (s.d.get rb) = val z) :
    ∃ x, exec (.sub rd ra rb) s = .next { s with d := s.d.set rd x, code := 0 } ∧ val x = val z := by
  obtain ⟨g, M, hexec, hq⟩ := exec_addOrSub (rd := rd) ha hb (.inr ⟨rfl, rfl⟩)
  rw [hz] at hq
  obtain ⟨x, hx, hval⟩ := narrow_of_representable (commonScale_le ha hb) (congrArg abs hq.symm)
  exact ⟨x, by rw [hexec, hx, putResult_ok], hval.trans hq.symm⟩

/-- ADD ends with code 0 only with a well-formed result in its destination. -/
theorem exec_add_ok {s t : State} {rd ra rb : DSel} (ha : valid (s.d.get ra) = true) (hb : valid (s.d.get rb) = true)
    (h : exec (.add rd ra rb) s = .next t) (hcode : t.code = 0) :
    ∃ x, valid x = true ∧ t = { s with d := s.d.set rd x, code := 0 } := by
  rw [exec_add_of_valid rd ha hb] at h
  cases hsum : addWithSign (s.d.get ra) (s.d.get rb) (sign (s.d.get rb)) with
  | ok x =>
    rw [hsum, putResult_ok] at h
    cases h
    exact ⟨x, (narrow_ok hsum).1, rfl⟩
  | error e =>
    rw [hsum, putResult_error] at h
    cases h
    rcases narrow_error hsum with rfl | rfl <;> cases hcode

/-- Settles O43: the difference is the value of `D[ra]` again, or of zero where the sum took the place of `D[rb]`; either is
the value of a decimal. -/
theorem subtractUndoesExactAdd : Obligations.SubtractUndoesExactAdd := by
  intro s t rd rb ra re ha hb hadd hcode hexact
  obtain ⟨x, hx, rfl⟩ := exec_add_ok ha hb hadd hcode
  have hread : ∀ r, (s.d.set rd x).get r = if rd = r then x else s.d.get r := fun r => get_set s.d rd r x
  have hsub : ∀ z : Dec, val ((s.d.set rd x).get rd) - val ((s.d.set rd x).get rb) = val z → ∃ u,
      exec (.sub re rd rb) { s with d := s.d.set rd x, code := 0 } = .next u ∧ u.code = 0 ∧ val (u.d.get re) = val z := by
    intro z hz
    obtain ⟨y, hy, hval⟩ := exec_sub_of_representable (s := { s with d := s.d.set rd x, code := 0 }) re
      (by rw [hread, if_pos rfl, hx]) (by rw [hread]; split <;> [exact hx; exact hb]) hz
    exact ⟨_, hy, rfl, by rw [get_set, if_pos rfl, hval]⟩
  split
  next hover =>
    have hzero : val (0 : Dec) = 0 := (val_eq_zero_iff 0).mpr (mant_eq 0)
    rw [← hzero]
    exact hsub 0 (by rw [← hover, sub_self, hzero])
  next hkept =>
    refine hsub (s.d.get ra) ?_
    rw [hexact, hread, if_neg hkept]
    ring

/-! ## MUL (43_arith.md section 3) -/

/-- Settles O45: what narrowing does to the exact product. -/
theorem mulRoundsTheExactProduct : Obligations.MulRoundsTheExactProduct := by
  intro s rd ra rb q ha hb hq
  rw [exec_mul_of_valid rd ha hb]
  exact putResult_narrow_rounds s rd (hq.trans (signedValue_mul _ _ _ _ _ _))

/-! ## DIV (43_arith.md section 4) -/

/-- Long division at the scale where it stops: the dividend is quotient times divisor plus the rest at that scale. -/
theorem val_eq_divQuot_mul_add {a b : Dec} (ha : valid a = true) :
    val a = signedValue (sign a ^^ sign b) (divQuot a b) (divScale a b) * val b +
      signedValue (sign a) (divRem a b) (divScale a b + scale b) := by
  obtain ⟨hstart, -⟩ := divScale_spec (b := b) ha
  have hdivide : divQuot a b * mant b + divRem a b = divNum a b (divScale a b) := Nat.div_add_mod' _ _
  have hscale : scale a + ((scale b - scale a) + (divScale a b - divStart a b)) = divScale a b + scale b := by
    rw [divStart] at hstart ⊢; omega
  rw [val_eq_signedValue b, signedValue_mul, Bool.xor_assoc, Bool.xor_self, Bool.xor_false, ← signedValue_add, hdivide,
    divNum, ← hscale, signedValue_shift]
  rfl

/-- The rest is smaller than the divisor. -/
theorem abs_divRem_lt {a b : Dec} (hb : mant b ≠ 0) :
    |signedValue (sign a) (divRem a b) (divScale a b + scale b)| < |val b| := by
  rw [abs_signedValue, abs_val]
  calc (divRem a b : ℚ) / 10 ^ (divScale a b + scale b)
      ≤ divRem a b / 10 ^ scale b := div_pow_anti _ (Nat.le_add_left _ _)
    _ < mant b / 10 ^ scale b := div_lt_div_of_pos_right (Nat.cast_lt.mpr (divRem_lt hb)) (by positivity)

/-- The remainder's decimal is exact where its scale is legal. -/
theorem divRemainder_of_scale_le {a b : Dec} (h : divScale a b + scale b ≤ 28) :
    divRemainder a b = mkdec (sign a) (divRem a b) (divScale a b + scale b) := by
  rw [divRemainder_eq, Nat.sub_eq_zero_of_le h, dropDigits_zero, Nat.min_eq_left h]

/-- A division that ends with code 0 and whose quotient fits has written the quotient unrounded. -/
theorem exec_div_ok {s t : State} {rd rc ra rb : DSel} (ha : valid (s.d.get ra) = true) (hb : valid (s.d.get rb) = true)
    (h : exec (.div rd rc ra rb) s = .next t) (hcode : t.code = 0) (hfits : divQuot (s.d.get ra) (s.d.get rb) < 2 ^ 96) :
    t = { s with
      d := (s.d.set rc (divRemainder (s.d.get ra) (s.d.get rb))).set rd (mkdec (sign (s.d.get ra) ^^ sign (s.d.get rb))
        (divQuot (s.d.get ra) (s.d.get rb)) (divScale (s.d.get ra) (s.d.get rb))),
      code := 0 } := by
  cases hdiv : divDec (s.d.get ra) (s.d.get rb) with
  | ok q =>
    obtain ⟨-, hq, -⟩ := divDec_ok hdiv
    rw [narrow_of_lt _ (divScale_spec ha).2.1 hfits] at hq
    cases hq
    cases (exec_div_of_ok rd rc ha hb hdiv).symm.trans h
    rfl
  | error e =>
    cases (exec_div_of_error rd rc ha hb hdiv).symm.trans h
    rcases divDec_error hdiv with rfl | rfl | rfl <;> cases hcode

/-- Settles O47: the remainder is the rest of the long division at the scale where it stops. -/
theorem divIdentity : Obligations.DivIdentity := by
  intro s t rd rc ra rb ha hb hne hdiv hcode hquot hscale
  obtain ⟨-, hw, -⟩ := divScale_spec (b := s.d.get rb) ha
  have hrem : divRem (s.d.get ra) (s.d.get rb) < 2 ^ 96 := (divRem_lt hne).trans (mant_lt _)
  cases exec_div_ok ha hb hdiv hcode hquot
  refine ⟨signedValue (sign (s.d.get ra)) (divRem (s.d.get ra) (s.d.get rb)) _, ?identity, abs_divRem_lt hne, ?sameSign,
    fun hother => ?register⟩
  case identity =>
    rw [get_set, if_pos rfl, val_mkdec _ hquot hw]
    exact val_eq_divQuot_mul_add ha
  case sameSign =>
    rw [val_eq_signedValue, signedValue_mul, Bool.xor_self]
    simp only [signedValue, Bool.false_eq_true, if_false]
    positivity
  case register =>
    rw [get_set, if_neg hother, get_set, if_pos rfl, divRemainder_of_scale_le hscale]
    exact ⟨val_mkdec _ hrem hscale, sign_mkdec _ hrem hscale⟩

end Sys2Proof.Machine
end

section
/-! PROOF. The conversion unit (45_convert.md R160 to R164): 32-bit integers into and out of decimals, the decimal of a
binary32 and the binary32 of a decimal, and that an exact conversion comes back bit for bit. -/

namespace Sys2Proof.Machine

/-! ## Integers (45_convert.md R161, R162) -/

theorem natAbs_toInt_lt (x : Word) : x.toInt.natAbs < 2 ^ 96 := signed32_eq_toInt x ▸ signed32_natAbs_lt x

theorem exec_itod (rd : DSel) (s : State) : exec (.itod rd) s =
    .next { s with d := s.d.set rd (mkdec (decide (s.arg.toInt < 0)) s.arg.toInt.natAbs 0), code := 0 } := by
  rw [exec, execItod, signed32_eq_toInt, putD_eq]

/-- The number of an integer's sign and absolute value. -/
theorem signedValue_natAbs (n : ℤ) : signedValue (decide (n < 0)) n.natAbs 0 = n := by
  rw [signedValue, pow_zero, div_one, Nat.cast_natAbs, Int.cast_abs]
  rcases lt_or_ge n 0 with hneg | hnonneg
  · simp [hneg, abs_of_neg (Int.cast_lt_zero.mpr hneg)]
  · simp [hnonneg.not_gt, abs_of_nonneg (Int.cast_nonneg hnonneg)]

/-- The integral part of a decimal with its sign (45_convert.md R162). -/
def truncated (a : Dec) : ℤ := (if sign a then -1 else 1) * (intPart a : ℤ)

/-- The two's-complement pattern of a negative integer (45_convert.md R160 (a)). -/
theorem ofNat_two_pow_sub (n : ℕ) (h : n ≤ 2 ^ 32) : BitVec.ofNat 32 ((2 ^ 32 - n) % 2 ^ 32) = BitVec.ofInt 32 (-n) := by
  apply BitVec.eq_of_toNat_eq
  rw [BitVec.toNat_ofNat, BitVec.toNat_ofInt]
  omega

/-- DTOI in terms of the truncated value: the 32-bit pattern of an integer in range. -/
theorem exec_dtoi_of_valid {s : State} {ra : DSel} (h : valid (s.d.get ra) = true) : exec (.dtoi ra) s =
    if -2 ^ 31 ≤ truncated (s.d.get ra) ∧ truncated (s.d.get ra) < 2 ^ 31 then
      .next { s with res := BitVec.ofInt 32 (truncated (s.d.get ra)), code := 0 }
    else .next { s with code := 4 } := by
  rw [exec, execDtoi, withDec_valid h, truncated]
  generalize intPart (s.d.get ra) = n
  cases sign (s.d.get ra) with
  | false =>
    have hrange : n ≤ 2 ^ 31 - 1 ↔ -2 ^ 31 ≤ (n : ℤ) ∧ (n : ℤ) < 2 ^ 31 := by omega
    simp only [Bool.false_eq_true, if_false, true_and, false_and, one_mul, if_congr hrange rfl rfl,
      BitVec.ofInt_natCast]
    rfl
  | true =>
    have hrange : n ≤ 2 ^ 31 ↔ -2 ^ 31 ≤ -(n : ℤ) ∧ -(n : ℤ) < 2 ^ 31 := by omega
    simp only [reduceCtorEq, if_true, if_false, true_and, false_and, neg_one_mul, if_congr hrange rfl rfl]
    split
    next hin => rw [ofNat_two_pow_sub n (by omega)]; rfl
    next => rfl

theorem exec_dtoi_of_malformed {s : State} {ra : DSel} (h : valid (s.d.get ra) = false) :
    exec (.dtoi ra) s = .next { s with code := 4 } := by
  rw [exec, execDtoi, withDec_malformed h]

/-- The truncated value of an integer's decimal is the integer. -/
theorem truncated_mkdec (x : Word) : truncated (mkdec (decide (x.toInt < 0)) x.toInt.natAbs 0) = x.toInt := by
  have hx := natAbs_toInt_lt x
  rw [truncated, intPart, sign_mkdec _ hx (by decide), mant_mkdec _ hx (by decide), scale_mkdec _ hx (by decide), pow_zero,
    Nat.div_one]
  rcases lt_or_ge x.toInt 0 with hneg | hnonneg
  · simp only [hneg, decide_true, if_true]; omega
  · simp only [hnonneg.not_gt, decide_false, Bool.false_eq_true, if_false]; omega

/-- Settles O50: ITOD packs sign and absolute value, DTOI is the pattern of the truncated value, and that of an integer's
decimal is the integer. -/
theorem integerConversions : Obligations.IntegerConversions := by
  intro s rd ra
  have hx := natAbs_toInt_lt s.arg
  have hscale : 0 ≤ 28 := Nat.zero_le _
  refine ⟨encodedAs_of_fields (Laws.RoundTrip.itod rd) rfl (by simp), encodedAs_ra (Laws.RoundTrip.dtoi ra) rfl (by simp),
    ⟨_, exec_itod rd s, valid_mkdec _ hx hscale, scale_mkdec _ hx hscale, ?sign, mant_mkdec _ hx hscale, ?value⟩,
    exec_dtoi_of_malformed, fun h I hI => ⟨fun hlo hhi => ?inRange, fun hout => ?outOfRange⟩, fun t ht => ?roundTrip⟩
  case sign => rw [sign_mkdec _ hx hscale, decide_eq_true_iff]
  case value => exact (val_mkdec _ hx hscale).trans (signedValue_natAbs _)
  case inRange =>
    obtain rfl : I = truncated (s.d.get ra) := hI
    refine ⟨_, (exec_dtoi_of_valid h).trans (if_pos ⟨hlo, hhi⟩), ?_⟩
    rw [BitVec.toInt_ofInt]
    exact Int.bmod_eq_of_le (by simpa using hlo) (by simpa using hhi)
  case outOfRange =>
    obtain rfl : I = truncated (s.d.get ra) := hI
    exact (exec_dtoi_of_valid h).trans (if_neg (by omega))
  case roundTrip =>
    cases (exec_itod rd s).symm.trans ht
    have hlo := BitVec.le_toInt s.arg
    have hhi := BitVec.toInt_lt (x := s.arg)
    have hread := get_set s.d rd rd (mkdec (decide (s.arg.toInt < 0)) s.arg.toInt.natAbs 0)
    rw [if_pos rfl] at hread
    rw [exec_dtoi_of_valid (by rw [hread]; exact valid_mkdec _ hx hscale), hread, truncated_mkdec, if_pos ⟨hlo, hhi⟩,
      BitVec.ofInt_toInt]

/-! ## Binary32 to decimal (45_convert.md R163) -/

theorem exec_ftod (rd : DSel) (s : State) : exec (.ftod rd) s = execFtod rd s := rfl

theorem exec_ftod_of_refused (rd : DSel) {s : State} (h : floatExp s.arg = 255 ∨ 2 ^ 96 * floatDen ≤ floatNum s.arg) :
    exec (.ftod rd) s = .next { s with code := 4 } := by
  rw [exec_ftod, execFtod]
  split
  next => rfl
  next hfinite => rw [if_pos (h.resolve_left hfinite)]; rfl

theorem exec_ftod_of_finite (rd : DSel) {s : State} (hfinite : floatExp s.arg ≠ 255)
    (hlt : floatNum s.arg < 2 ^ 96 * floatDen) : exec (.ftod rd) s =
      .next { s with
        d := s.d.set rd (mkdec (floatSign s.arg) (rneDiv (floatNum s.arg * 10 ^ floatScale s.arg) floatDen)
          (floatScale s.arg)),
        code := 0 } := by
  rw [exec_ftod, execFtod, if_neg hfinite, if_neg (Nat.not_le.mpr hlt)]
  rfl

/-- Everything `sfit` is: a scale of at most 28 at which the value fits, and the greatest one (45_convert.md R163). -/
theorem scaleFit_spec (f : Word) (h : floatNum f < 2 ^ 96 * floatDen) :
    rneDiv (floatNum f * 10 ^ scaleFit f) floatDen < 2 ^ 96 ∧
      ∀ j, scaleFit f < j → j ≤ 28 → 2 ^ 96 ≤ rneDiv (floatNum f * 10 ^ j) floatDen := by
  obtain ⟨-, hgreatest, hfits⟩ := greatestUpTo_spec
    (fun s => decide (rneDiv (floatNum f * 10 ^ s) floatDen ≤ Config.maxMant)) Config.maxScale
  rw [← scaleFit] at hgreatest hfits
  simp only [decide_eq_true_eq, decide_eq_false_iff_not, Config.maxMant, Config.maxScale] at hgreatest hfits
  refine ⟨?_, fun j hj hle => ?_⟩
  · rcases hfits with hfits | hzero
    · omega
    · have hscale : floatScale f = scaleFit f := by rw [floatScale, hzero, Nat.min_zero]
      exact hscale ▸ rneDiv_floatScale_lt f h
  · have := hgreatest j hj hle
    omega

/-- Settles O51: the two scales are the model's searches, and each rounded value is the one nearest-even integer. -/
theorem floatToDecimal : Obligations.FloatToDecimal := by
  intro s rd v hv
  subst hv
  rw [← floatExp_eq, ← floatSign_eq]
  refine ⟨encodedAs_of_fields (Laws.RoundTrip.ftod rd) rfl (by simp), fun h => ?refused, fun hfinite hlt => ?converted⟩
  case refused => exact exec_ftod_of_refused rd (h.imp_right (binary32Mag_ge_iff s.arg).mp)
  case converted =>
    have hnum : floatNum s.arg < 2 ^ 96 * floatDen := Nat.lt_of_not_le (mt (binary32Mag_ge_iff s.arg).mpr (not_le.mpr hlt))
    obtain ⟨hexact, hleast⟩ := scaleExact_spec s.arg
    obtain ⟨hfits, hgreatest⟩ := scaleFit_spec s.arg hnum
    refine ⟨scaleExact s.arg, scaleFit s.arg, _,
      ⟨(binary32Mag_mul_int_iff _ _).mpr hexact, fun j hj => mt (binary32Mag_mul_int_iff _ _).mp (hleast j hj)⟩,
      ⟨scaleFit_le _, ⟨_, isNearestEven_binary32Mag _ _, Nat.le_pred_of_lt hfits⟩, fun j hj hle n hn => ?beyond⟩,
      isNearestEven_binary32Mag _ _, Nat.le_pred_of_lt (rneDiv_floatScale_lt _ hnum), exec_ftod_of_finite rd hfinite hnum⟩
    case beyond =>
      rw [hn.unique (isNearestEven_binary32Mag _ _)]
      exact lt_of_lt_of_le (by decide) (hgreatest j hj hle)

/-! ## Decimal to binary32 (45_convert.md R164) -/

/-- The word that DTOF writes: the sign bit over the 31 bits of the nearest binary32. -/
def floatOf (a : Dec) : Word := BitVec.ofNat 32 ((sign a).toNat * 2 ^ 31 + round32 (mant a) (10 ^ scale a))

theorem exec_dtof_of_valid {s : State} {ra : DSel} (h : valid (s.d.get ra) = true) :
    exec (.dtof ra) s = .next { s with res := floatOf (s.d.get ra), code := 0 } := by
  rw [exec, execDtof, withDec_valid h, putRes_eq]
  rfl

theorem exec_dtof_of_malformed {s : State} {ra : DSel} (h : valid (s.d.get ra) = false) :
    exec (.dtof ra) s = .next { s with code := 4 } := by
  rw [exec, execDtof, withDec_malformed h]

theorem toNat_floatOf {a : Dec} (h : valid a = true) :
    (floatOf a).toNat = (sign a).toNat * 2 ^ 31 + round32 (mant a) (10 ^ scale a) := by
  have hlt := round32_lt (mant_lt a) (scale_le h)
  have hsign := Bool.toNat_lt (sign a)
  rw [floatOf, BitVec.toNat_ofNat]
  exact Nat.mod_eq_of_lt (by omega)

theorem two_zpow_sub (j k : ℕ) : (2 : ℚ) ^ ((j : ℤ) - k) = 2 ^ j / 2 ^ k := by
  rw [zpow_sub₀ two_ne_zero, zpow_natCast, zpow_natCast]

/-- The binade of a quotient is the power of two at or below it. -/
theorem floatBinade_bounds {n c : ℕ} (hn : 0 < n) (hn' : n < 2 ^ 96) (hc : c ≤ 28) :
    (2 : ℚ) ^ ((floatBinade n (10 ^ c) : ℤ) - 94) ≤ (n : ℚ) / 10 ^ c ∧
      (n : ℚ) / 10 ^ c < (2 : ℚ) ^ ((floatBinade n (10 ^ c) : ℤ) - 94 + 1) := by
  obtain ⟨-, hupper, hlower⟩ := floatBinade_spec hn hn' hc
  have hupper' : (n : ℚ) * 2 ^ 93 < 10 ^ c * 2 ^ floatBinade n (10 ^ c) := by exact_mod_cast hupper
  have hlower' : (10 : ℚ) ^ c * 2 ^ floatBinade n (10 ^ c) ≤ n * 2 ^ 94 := by exact_mod_cast hlower
  have hexp : (floatBinade n (10 ^ c) : ℤ) - 94 + 1 = floatBinade n (10 ^ c) - (93 : ℕ) := by push_cast; ring
  rw [hexp, two_zpow_sub, show (94 : ℤ) = (94 : ℕ) from rfl, two_zpow_sub,
    div_le_div_iff₀ (by positivity) (by positivity), div_lt_div_iff₀ (by positivity) (by positivity)]
  exact ⟨by linarith, by linarith⟩

/-- The significand is the quotient in units of its binade's last place, rounded nearest-even. -/
theorem isNearestEven_floatSignificand (n c : ℕ) :
    IsNearestEven ((n : ℚ) / 10 ^ c / (2 : ℚ) ^ ((floatBinade n (10 ^ c) : ℤ) - 94 - 23))
      (floatSignificand n (10 ^ c)) := by
  have hnear := isNearestEven_rneDiv (n * 2 ^ 117) (d := 10 ^ c * 2 ^ floatBinade n (10 ^ c)) (by positivity)
  have hexp : (floatBinade n (10 ^ c) : ℤ) - 94 - 23 = floatBinade n (10 ^ c) - (117 : ℕ) := by push_cast; ring
  have hquot : (n : ℚ) / 10 ^ c / (2 : ℚ) ^ ((floatBinade n (10 ^ c) : ℤ) - 94 - 23) =
      ((n * 2 ^ 117 : ℕ) : ℚ) / ((10 ^ c * 2 ^ floatBinade n (10 ^ c) : ℕ) : ℚ) := by
    rw [hexp, two_zpow_sub, div_div_div_eq]
    push_cast
    rfl
  rw [hquot]
  exact hnear

/-- The 31 bits as a number, a significand of `2^24` being the start of the next binade. -/
theorem round32_eq {n c : ℕ} (hn : 0 < n) (hn' : n < 2 ^ 96) (hc : c ≤ 28) : ((round32 n (10 ^ c) : ℕ) : ℤ) =
    if floatSignificand n (10 ^ c) = 2 ^ 24 then ((floatBinade n (10 ^ c) : ℤ) - 94 + 1 + 127) * 2 ^ 23
    else ((floatBinade n (10 ^ c) : ℤ) - 94 + 127) * 2 ^ 23 + ((floatSignificand n (10 ^ c) : ℤ) - 2 ^ 23) := by
  obtain ⟨hlow, -⟩ := floatSignificand_bounds hn hn' hc
  rw [round32, if_neg hn.ne']
  split
  next => omega
  next => omega

/-- Settles O52: the word is a sign bit and `round32` of the magnitude, whose binade and significand are R164's. -/
theorem decimalToFloat : Obligations.DecimalToFloat := by
  intro s ra q hq
  refine ⟨encodedAs_ra (Laws.RoundTrip.dtof ra) rfl (by simp), exec_dtof_of_malformed, fun h =>
    ⟨_, exec_dtof_of_valid h, ?sign, fun hzero => ?zero, fun hne => ?nearest⟩⟩
  all_goals
    have hm := mant_lt (s.d.get ra)
    have hc := scale_le h
    have hlt := round32_lt hm hc
    rw [toNat_floatOf h]
  case sign => cases sign (s.d.get ra) <;> simp <;> omega
  case zero =>
    have hmant : mant (s.d.get ra) = 0 := by
      rw [hq, div_eq_zero_iff, Nat.cast_eq_zero] at hzero
      exact hzero.resolve_right (by positivity)
    rw [hmant, round32, if_pos rfl]
    omega
  case nearest =>
    have hpos : 0 < mant (s.d.get ra) := Nat.pos_of_ne_zero fun hmant => hne (by rw [hq, hmant, Nat.cast_zero, zero_div])
    obtain ⟨hlower, hupper⟩ := floatBinade_bounds hpos hm hc
    obtain ⟨hbinade, -⟩ := floatBinade_spec hpos hm hc
    obtain ⟨hmin, hmax⟩ := floatSignificand_bounds hpos hm hc
    have hlow : ((sign (s.d.get ra)).toNat * 2 ^ 31 + round32 (mant (s.d.get ra)) (10 ^ scale (s.d.get ra))) % 2 ^ 31 =
        round32 (mant (s.d.get ra)) (10 ^ scale (s.d.get ra)) := by omega
    rw [hlow, hq]
    exact ⟨_, _, hlower, hupper, by omega, by omega, isNearestEven_floatSignificand _ _, hmin, hmax,
      round32_eq hpos hm hc⟩

/-! ## The exact round trip (45_convert.md section 3) -/

/-- The low 31 bits of a binary32 are its exponent and its trailing significand (45_convert.md R160 (b)). -/
theorem floatExp_floatFrac (f : Word) : floatExp f * 2 ^ 23 + floatFrac f = f.toNat % 2 ^ 31 := by
  rw [floatExp_eq, floatFrac_eq]
  omega

theorem floatFrac_lt (f : Word) : floatFrac f < 2 ^ 23 := floatFrac_eq f ▸ Nat.mod_lt _ (by decide)

/-- A binary32 value that is a decimal of a legal scale is zero or normal: the least unit of such decimals is far above the
greatest subnormal number. -/
theorem floatExp_ne_zero_of_exact {f : Word} {m c : ℕ} (hpos : 0 < m) (hc : c ≤ 28)
    (h : m * floatDen = floatNum f * 10 ^ c) : floatExp f ≠ 0 := by
  intro hzero
  have hfrac := floatFrac_lt f
  have hpow : 10 ^ c ≤ 10 ^ 28 := Nat.pow_le_pow_right (by decide) hc
  have hsmall : floatNum f * 10 ^ c < floatDen := by
    rw [floatNum, if_pos hzero]
    calc 2 * floatFrac f * 10 ^ c ≤ 2 ^ 24 * 10 ^ 28 := Nat.mul_le_mul (by omega) hpow
      _ < floatDen := by decide
  have hlarge : floatDen ≤ m * floatDen := Nat.le_mul_of_pos_left _ hpos
  omega

/-- The binade of an exact normal value is that of its biased exponent: the significand has exactly 24 bits. -/
theorem floatBinade_of_exact {f : Word} {m c : ℕ} (hpos : 0 < m) (hm : m < 2 ^ 96) (hc : c ≤ 28)
    (h : m * floatDen = (2 ^ 23 + floatFrac f) * 2 ^ floatExp f * 10 ^ c) : floatExp f = floatBinade m (10 ^ c) + 33 := by
  obtain ⟨-, hupper, hlower⟩ := floatBinade_spec hpos hm hc
  generalize floatBinade m (10 ^ c) = j at *
  have hfrac := floatFrac_lt f
  have htens : 0 < 10 ^ c := Nat.pow_pos (by decide)
  rw [floatDen] at h
  have habove : 2 ^ (23 + floatExp f) < 2 ^ (j + 57) := by
    refine Nat.lt_of_mul_lt_mul_right (a := 10 ^ c) ?_
    calc 2 ^ (23 + floatExp f) * 10 ^ c ≤ (2 ^ 23 + floatFrac f) * 2 ^ floatExp f * 10 ^ c := by
          rw [pow_add]; exact Nat.mul_le_mul_right _ (Nat.mul_le_mul_right _ (Nat.le_add_right _ _))
      _ = m * 2 ^ 93 * 2 ^ 57 := by rw [← h]; ring
      _ < 10 ^ c * 2 ^ j * 2 ^ 57 := Nat.mul_lt_mul_of_pos_right hupper (by decide)
      _ = 2 ^ (j + 57) * 10 ^ c := by ring
  have hbelow : 2 ^ (j + 56) < 2 ^ (24 + floatExp f) := by
    refine Nat.lt_of_mul_lt_mul_right (a := 10 ^ c) ?_
    calc 2 ^ (j + 56) * 10 ^ c = 10 ^ c * 2 ^ j * 2 ^ 56 := by ring
      _ ≤ m * 2 ^ 94 * 2 ^ 56 := Nat.mul_le_mul_right _ hlower
      _ = (2 ^ 23 + floatFrac f) * 2 ^ floatExp f * 10 ^ c := by rw [← h]; ring
      _ < 2 ^ 24 * 2 ^ floatExp f * 10 ^ c :=
          Nat.mul_lt_mul_of_pos_right (Nat.mul_lt_mul_of_pos_right (by omega) (Nat.two_pow_pos _)) htens
      _ = 2 ^ (24 + floatExp f) * 10 ^ c := by rw [pow_add]
  have hlt := (Nat.pow_lt_pow_iff_right (by decide)).mp habove
  have hlt' := (Nat.pow_lt_pow_iff_right (by decide)).mp hbelow
  omega

/-- Rounding the exact value of a binary32 finds its own exponent and significand. -/
theorem round32_of_exact {f : Word} {m c : ℕ} (hm : m < 2 ^ 96) (hc : c ≤ 28) (h : m * floatDen = floatNum f * 10 ^ c) :
    round32 m (10 ^ c) = f.toNat % 2 ^ 31 := by
  have htens : 0 < 10 ^ c := Nat.pow_pos (by decide)
  rw [← floatExp_floatFrac]
  rcases Nat.eq_zero_or_pos m with rfl | hpos
  · have hzero : floatNum f = 0 := by
      rw [Nat.zero_mul] at h
      exact (Nat.mul_eq_zero.mp h.symm).resolve_right htens.ne'
    rw [round32, if_pos rfl]
    rw [floatNum] at hzero
    split at hzero
    next hexp => omega
    next => exact absurd hzero (Nat.mul_pos (by omega) (Nat.two_pow_pos _)).ne'
  · rw [floatNum, if_neg (floatExp_ne_zero_of_exact hpos hc h)] at h
    have hbinade := floatBinade_of_exact hpos hm hc h
    have hfrac := floatFrac_lt f
    have hsignificand : floatSignificand m (10 ^ c) = 2 ^ 23 + floatFrac f := by
      have hscaled : m * 2 ^ 117 = (2 ^ 23 + floatFrac f) * (10 ^ c * 2 ^ floatBinade m (10 ^ c)) := by
        refine Nat.eq_of_mul_eq_mul_right (show 0 < 2 ^ 33 by decide) ?_
        calc m * 2 ^ 117 * 2 ^ 33 = m * floatDen := by rw [floatDen]; ring
          _ = (2 ^ 23 + floatFrac f) * (10 ^ c * 2 ^ floatBinade m (10 ^ c)) * 2 ^ 33 := by rw [h, hbinade]; ring
      rw [floatSignificand, hscaled, rneDiv_mul _ (by positivity)]
    rw [round32, if_neg hpos.ne', hsignificand, if_neg (by omega), hbinade, Nat.add_sub_cancel_left]

theorem toNat_floatSign (f : Word) : (floatSign f).toNat = f.toNat / 2 ^ 31 := by
  have hf := f.isLt
  have htop : f.toNat / 2 ^ 31 = 0 ∨ f.toNat / 2 ^ 31 = 1 := by omega
  rw [floatSign_eq]
  rcases htop with h | h <;> rw [h] <;> rfl

/-- FTOD ends with code 0 only with a packed decimal of a legal scale in its destination, under the sign of `ARG`. -/
theorem exec_ftod_ok {s t : State} {rd : DSel} (h : exec (.ftod rd) s = .next t) (hcode : t.code = 0) :
    ∃ m c, m < 2 ^ 96 ∧ c ≤ 28 ∧ t = { s with d := s.d.set rd (mkdec (floatSign s.arg) m c), code := 0 } := by
  by_cases hrefused : floatExp s.arg = 255 ∨ 2 ^ 96 * floatDen ≤ floatNum s.arg
  · cases (exec_ftod_of_refused rd hrefused).symm.trans h
    cases hcode
  · rw [not_or, Nat.not_le] at hrefused
    obtain ⟨hfinite, hlt⟩ := hrefused
    cases (exec_ftod_of_finite rd hfinite hlt).symm.trans h
    exact ⟨_, _, rneDiv_floatScale_lt _ hlt, (Nat.min_le_right _ _).trans (scaleFit_le _), rfl⟩

/-- Settles O53: the decimal has the sign of the binary32 and exactly its magnitude, which rounds to the same 31 bits. -/
theorem exactFloatRoundTrip : Obligations.ExactFloatRoundTrip := by
  intro s t rd hftod hcode hexact
  obtain ⟨m, c, hm, hc, rfl⟩ := exec_ftod_ok hftod hcode
  have hread := get_set s.d rd rd (mkdec (floatSign s.arg) m c)
  rw [if_pos rfl] at hread
  have hvalid := valid_mkdec (floatSign s.arg) hm hc
  have hvalue : m * floatDen = floatNum s.arg * 10 ^ c := by
    have hden : (floatDen : ℚ) ≠ 0 := Nat.cast_ne_zero.mpr floatDen_pos.ne'
    rw [hread, abs_val, mant_mkdec _ hm hc, scale_mkdec _ hm hc, binary32Mag_eq,
      div_eq_div_iff (by positivity) hden] at hexact
    exact_mod_cast hexact
  have hword : floatOf (mkdec (floatSign s.arg) m c) = s.arg := by
    apply BitVec.eq_of_toNat_eq
    rw [toNat_floatOf hvalid, sign_mkdec _ hm hc, mant_mkdec _ hm hc, scale_mkdec _ hm hc, round32_of_exact hm hc hvalue,
      toNat_floatSign]
    omega
  rw [exec_dtof_of_valid (by rw [hread]; exact hvalid), hread, hword]

end Sys2Proof.Machine
end
